-- ==== Sys2Proof/Word.lean ====
section
/-! DEFINITION. The word types: the 32-bit words of the control registers and commands, and the
64-bit pattern of a binary64 number, which is the element type `Num` of the modelled instance
(rules R10, R26, R228). -/

namespace Sys2Proof

/-- A 32-bit word: a command, `STATUS`, `CFG`, or a bit-reversal entry as the host sees it. -/
abbrev Word := BitVec 32

/-- The 64-bit pattern of an IEEE 754 binary64 value (rule R10, decision D4). -/
abbrev F64 := BitVec 64

end Sys2Proof
end

