-- ==== Sys2Proof/Syntax.lean ====
section
/-! DEFINITION. The instructions of FFTBN (every row of the opcode table) and the three formats
they are written in: the command word `C`, the transaction tuple `T` and the micro-operation
selector `U` (rules R3, R90, R98, R100). -/

namespace Sys2Proof

/-- The eight 3-bit space codes of rule R61; codes 5, 6 and 7 are reserved and any access to them
is a bad access. -/
inductive Space where
  | csr
  | x
  | y
  | sintbl
  | bitrev
  | reserved5
  | reserved6
  | reserved7
  deriving DecidableEq, Repr

/-- One element as it crosses the host boundary (rule R228): a `Num` for `X`, `Y` and `SINTBL`, a
32-bit word for `CSR` and `BITREV`. -/
inductive Datum where
  | word (w : Word)
  | num (v : F64)
  deriving DecidableEq, Repr

/-- The four legal command words (rules R92 to R96). -/
inductive Command where
  | mksin
  | mkbrev
  | xformFwd
  | xformInv
  deriving DecidableEq, Repr

/-- The instructions: the four host commands, the six micro-operations of the sequencer and the
three host transactions (rule R3). Micro-operations have no operand fields (rule R100). -/
inductive Instr where
  | mksin
  | mkbrev
  | xformFwd
  | xformInv
  | sinw
  | brvs
  | perm
  | twld
  | bfly
  | norm
  | hrd (space : Space) (index : BitVec 32)
  | hwr (space : Space) (index : BitVec 32) (data : Datum)
  | reset
  deriving DecidableEq, Repr

/-- Format `T`, the host transaction tuple of rule R98, as raw fields. `data` is wide enough for
every element type; how many of its bits an access uses follows from the space. -/
structure Txn where
  kind : BitVec 2
  space : BitVec 3
  index : BitVec 32
  data : BitVec 64
  deriving DecidableEq, Repr

/-- An instruction as bits, in one of the three formats of rule R90. -/
inductive Code where
  | c (w : Word)
  | t (tuple : Txn)
  | u (phase : BitVec 3)
  deriving DecidableEq, Repr

/-- The instruction a command is. -/
def Command.instr : Command → Instr
  | .mksin => .mksin
  | .mkbrev => .mkbrev
  | .xformFwd => .xformFwd
  | .xformInv => .xformInv

end Sys2Proof
end

