-- ==== Sys2Proof/WellFormed.lean ====
section
/-! DEFINITION. Which instruction terms the encodings of the spec can express: the data of a write
is one element of its space (rules R98, R228). Every other field has exactly the width of its type. -/

namespace Sys2Proof

/-- The element type that an access to a space moves: `Num` for `X`, `Y` and `SINTBL`, a 32-bit word
for `CSR` and `BITREV` (rules R61, R98, R228). A reserved space has no element and the spec gives
its data no type; the model takes a 32-bit word (DESIGN CHOICE, log entry 28), with no effect, since
every access to it is a bad access whatever the data. -/
def Space.holdsNum : Space → Bool
  | .x => true
  | .y => true
  | .sintbl => true
  | .csr => false
  | .bitrev => false
  | .reserved5 => false
  | .reserved6 => false
  | .reserved7 => false

/-- The datum is of the element type of the space. -/
def Datum.fits (space : Space) : Datum → Bool
  | .word _ => !space.holdsNum
  | .num _ => space.holdsNum

/-- An instruction term that some encoding stands for. -/
def Instr.wellFormed : Instr → Bool
  | .hwr space _ data => data.fits space
  | .mksin => true
  | .mkbrev => true
  | .xformFwd => true
  | .xformInv => true
  | .sinw => true
  | .brvs => true
  | .perm => true
  | .twld => true
  | .bfly => true
  | .norm => true
  | .hrd _ _ => true
  | .reset => true

end Sys2Proof
end

