-- ==== Sys2Proof/Decode.lean ====
section
/-! DEFINITION. Decoding and encoding of the three formats (rules R90 to R104): total on every
bit pattern, rejecting by name. -/

namespace Sys2Proof

/-- Why a bit pattern is no instruction. -/
inductive Reject where
  /-- A word that is none of the four legal commands (rules R92, R97). -/
  | illegalCommand (w : Word)
  /-- Transaction kind `11`, reserved and never issued (rule R98, U14). -/
  | reservedKind
  /-- `PHASE` is `IDLE` or `HALT`, which select no micro-operation (rule R100). -/
  | noMicroOperation (phase : BitVec 3)
  deriving DecidableEq, Repr

/-- Decoding of a command word, in the order of rule R92: `w[31:3]`, then `OP = w[2:1]`, then
`INV = w[0]`. -/
def decodeCommand (w : Word) : Option Command :=
  if w.extractLsb 31 3 ≠ 0 then none
  else if w.extractLsb 2 1 = 0b00#2 then none
  else if w.extractLsb 2 1 = 0b01#2 ∧ w.extractLsb 0 0 = 0#1 then some .mksin
  else if w.extractLsb 2 1 = 0b10#2 ∧ w.extractLsb 0 0 = 0#1 then some .mkbrev
  else if w.extractLsb 2 1 = 0b11#2 ∧ w.extractLsb 0 0 = 0#1 then some .xformFwd
  else if w.extractLsb 2 1 = 0b11#2 ∧ w.extractLsb 0 0 = 1#1 then some .xformInv
  else none

/-- The space a 3-bit code names (rule R61). -/
def decodeSpace (b : BitVec 3) : Space :=
  match b.toNat with
  | 0 => .csr
  | 1 => .x
  | 2 => .y
  | 3 => .sintbl
  | 4 => .bitrev
  | 5 => .reserved5
  | 6 => .reserved6
  | _ => .reserved7

/-- The element carried by the data field of a write to a space: all 64 bits for a `Num`, the low
32 bits for a word (rules R98, R228; DESIGN CHOICE, log entry 9). -/
def decodeDatum (space : Space) (data : BitVec 64) : Datum :=
  if space.holdsNum then .num data else .word (data.setWidth 32)

/-- Decoding of a transaction tuple (rule R98). A field the kind does not use is not looked at. -/
def decodeTxn (t : Txn) : Except Reject Instr :=
  if t.kind = 0b00#2 then .ok (.hrd (decodeSpace t.space) t.index)
  else if t.kind = 0b01#2 then
    .ok (.hwr (decodeSpace t.space) t.index (decodeDatum (decodeSpace t.space) t.data))
  else if t.kind = 0b10#2 then .ok .reset
  else .error .reservedKind

/-- The micro-operation a value of `PHASE` selects (rule R100). -/
def decodePhase (p : BitVec 3) : Except Reject Instr :=
  if p = 0b001#3 then .ok .sinw
  else if p = 0b010#3 then .ok .brvs
  else if p = 0b011#3 then .ok .perm
  else if p = 0b100#3 then .ok .twld
  else if p = 0b101#3 then .ok .bfly
  else if p = 0b110#3 then .ok .norm
  else .error (.noMicroOperation p)

/-- The decoder: an instruction or a named rejection, for every bit pattern of every format. -/
def decode : Code → Except Reject Instr
  | .c w =>
    match decodeCommand w with
    | some cmd => .ok cmd.instr
    | none => .error (.illegalCommand w)
  | .t tuple => decodeTxn tuple
  | .u p => decodePhase p

/-! ## The encoder -/

/-- The word of a command (rules R93 to R96). -/
def encodeCommand : Command → Word
  | .mksin => 0x00000002#32
  | .mkbrev => 0x00000004#32
  | .xformFwd => 0x00000006#32
  | .xformInv => 0x00000007#32

/-- The 3-bit code of a space (rule R61). -/
def encodeSpace : Space → BitVec 3
  | .csr => 0#3
  | .x => 1#3
  | .y => 2#3
  | .sintbl => 3#3
  | .bitrev => 4#3
  | .reserved5 => 5#3
  | .reserved6 => 6#3
  | .reserved7 => 7#3

/-- The data field that carries an element. -/
def encodeDatum : Datum → BitVec 64
  | .word w => w.setWidth 64
  | .num v => v

/-- The bits of an instruction (rules R93 to R98, R100). -/
def encode : Instr → Code
  | .mksin => .c (encodeCommand .mksin)
  | .mkbrev => .c (encodeCommand .mkbrev)
  | .xformFwd => .c (encodeCommand .xformFwd)
  | .xformInv => .c (encodeCommand .xformInv)
  | .sinw => .u 0b001#3
  | .brvs => .u 0b010#3
  | .perm => .u 0b011#3
  | .twld => .u 0b100#3
  | .bfly => .u 0b101#3
  | .norm => .u 0b110#3
  | .hrd space index => .t { kind := 0b00#2, space := encodeSpace space, index, data := 0#64 }
  | .hwr space index data =>
    .t { kind := 0b01#2, space := encodeSpace space, index, data := encodeDatum data }
  | .reset => .t { kind := 0b10#2, space := 0#3, index := 0#32, data := 0#64 }

/-! ## A transaction as the engine takes it -/

/-- The transaction that writes a word to `CMD`: `HWR(space 0, index 0, data w)` (rule R102). -/
def Txn.writeCmd (w : Word) : Txn :=
  { kind := 0b01#2, space := 0#3, index := 0#32, data := w.setWidth 64 }

/-- The instruction a host transaction is (rule R3): a write of a legal word to `CMD` is that
command, every other transaction is what its tuple decodes to. -/
def decodeHost (t : Txn) : Except Reject Instr :=
  match decodeTxn t with
  | .ok (.hwr .csr index (.word w)) =>
    if index = 0#32 then
      match decodeCommand w with
      | some cmd => .ok cmd.instr
      | none => .ok (.hwr .csr index (.word w))
    else .ok (.hwr .csr index (.word w))
  | r => r

/-! ## Words of the opcode table -/

/-- A transaction tuple from one number: `kind` in bits 1:0 as the opcode table has it, then
`space`, `index` and `data` upwards (the layout is the model's own, D7; DESIGN CHOICE, log entry 9). -/
def Txn.ofBits (w : Nat) : Txn :=
  { kind := BitVec.ofNat 2 w
    space := BitVec.ofNat 3 (w / 2 ^ 2)
    index := BitVec.ofNat 32 (w / 2 ^ 5)
    data := BitVec.ofNat 64 (w / 2 ^ 37) }

/-- The format in which a word of the opcode table is read. Only the number of its bits tells: 32
is a command, 2 the kind field of a transaction, 3 a value of `PHASE`, more than 32 a whole tuple.
In one whole byte the table's rows of formats `T` and `U` overlap: values 0, 1 and 2 are read as
the three kinds of transaction, larger ones as `PHASE` (DESIGN CHOICE, log entry 11). -/
def tableCode (nbits w : Nat) : Code :=
  if nbits = 32 then .c (BitVec.ofNat 32 w)
  else if nbits = 3 then .u (BitVec.ofNat 3 w)
  else if nbits ≤ 2 then .t (Txn.ofBits w)
  else if 32 < nbits then .t (Txn.ofBits w)
  else if w < 3 then .t (Txn.ofBits w)
  else if w < 8 then .u (BitVec.ofNat 3 w)
  else .t (Txn.ofBits w)

/-- The instruction the decoder reads from a word of the opcode table. -/
def decodeTableWord (nbits w : Nat) : Option Instr :=
  match decode (tableCode nbits w) with
  | .ok i => some i
  | .error _ => none

end Sys2Proof
end

