-- ==== Sys2Proof/Config.lean ====
section
/-! DEFINITION. The free values: what the spec leaves unspecified and a model must draw, as
constants without a body, so that nothing can be proved of any of them. Each is applied to the
number of the draw (the field `draws` of the state) and to a slot inside that draw. The parameters
of an instance (`M`, `PRELOAD`) are hardwired fields of the state, so every statement about every
state holds for all of them. -/

namespace Sys2Proof

/-- The bits from which the NaN of an arithmetic result is made: sign and payload are unspecified
(rule R11, U7; DESIGN CHOICE, log entry 4). Arguments: draw, operation within the micro-operation. -/
opaque Config.freeNaN : Nat → Nat → BitVec 64

/-- What a micro-operation finds in an element of `X` or `Y` that holds no value: arbitrary bits
(rule R22; DESIGN CHOICE, log entry 7). Only states that no run reaches read one. Arguments: draw, slot. -/
opaque Config.emptyElement : Nat → Nat → BitVec 64

/-- What an entry of `SINTBL` that nothing has written holds (rule R41, U5; DESIGN CHOICE, log entry 8).
Arguments: draw, index. -/
opaque Config.unbuiltSine : Nat → Nat → BitVec 64

/-- What an entry of `BITREV` that nothing has written holds (rule R41, U5; DESIGN CHOICE, log entry 8).
Arguments: draw, index. -/
opaque Config.unbuiltRev : Nat → Nat → Nat

/-- The word a host read of `BITREV` returns for an entry of more than 32 bits, for which the spec
states none (rules R61, R228; DESIGN CHOICE, log entry 18). Arguments: draw, entry. -/
opaque Config.wideRevWord : Nat → Nat → Word

end Sys2Proof
end

