-- ==== Sys2Proof/Machine/Ieee.lean ====
section
/-! DEFINITION. IEEE 754 binary64 arithmetic on bit patterns, round to nearest ties to even, one
rounding per operation, subnormals kept, no flags (rules R10, R11, R177; what the standard says is
PRESUMED, log entry 3). A finite value is an exact integer number of units of 2^-1074; an operation
computes the exact result in a fraction of that unit and rounds it once. -/

namespace Sys2Proof.Machine

/-- Bit 63. -/
def Ieee.negative (v : F64) : Bool := v.msb

/-- The biased exponent, bits 62:52. -/
def Ieee.expField (v : F64) : Nat := (v.extractLsb 62 52).toNat

/-- The fraction, bits 51:0. -/
def Ieee.fracField (v : F64) : Nat := (v.extractLsb 51 0).toNat

def Ieee.isNaN (v : F64) : Bool := Ieee.expField v = 2047 && Ieee.fracField v ≠ 0

def Ieee.isInf (v : F64) : Bool := Ieee.expField v = 2047 && Ieee.fracField v = 0

def Ieee.isFinite (v : F64) : Bool := Ieee.expField v ≠ 2047

/-- The magnitude of a finite value, in units of 2^-1074: subnormals have exponent field 0 and no
hidden bit. -/
def Ieee.units (v : F64) : Nat :=
  if Ieee.expField v = 0 then Ieee.fracField v
  else (2 ^ 52 + Ieee.fracField v) * 2 ^ (Ieee.expField v - 1)

/-- A finite value as a signed number of units of 2^-1074. -/
def Ieee.signedUnits (v : F64) : Int :=
  if Ieee.negative v then -(Ieee.units v : Int) else (Ieee.units v : Int)

/-- The bits 62:0 of an infinity. -/
def Ieee.infBits : Nat := 2047 * 2 ^ 52

/-- A pattern from its sign and its bits 62:0. -/
def Ieee.pack (neg : Bool) (mag : Nat) : F64 :=
  BitVec.ofNat 64 ((if neg then 2 ^ 63 else 0) + mag)

/-- The number of low bits dropped when `a / 2^sh` units are rounded: all fraction bits, and more
when the integer part needs more than the 53 bits of a significand. -/
def Ieee.dropped (a sh : Nat) : Nat := sh + (a.log2 + 1 - sh - 53)

/-- `a / 2^cut` rounded to the nearest integer, ties to even. -/
def Ieee.nearestEven (a cut : Nat) : Nat :=
  let q := a / 2 ^ cut
  let r := a % 2 ^ cut
  if 2 ^ cut < 2 * r then q + 1
  else if 2 * r = 2 ^ cut ∧ q % 2 = 1 then q + 1
  else q

/-- The binary64 value nearest to `± a / 2^sh` units of 2^-1074, ties to even. A significand of up
to 53 bits with its hidden bit, added to the number of extra dropped bits in the exponent place, is
the pattern of the result; a magnitude of 2^1024 or more becomes an infinity. -/
def Ieee.round (neg : Bool) (a sh : Nat) : F64 :=
  let cut := Ieee.dropped a sh
  Ieee.pack neg (min ((cut - sh) * 2 ^ 52 + Ieee.nearestEven a cut) Ieee.infBits)

/-- A NaN made from any 64 bits: their sign and their fraction, the fraction made non-zero. Every
NaN is made from some bits (rule R11, U7). -/
def Ieee.nanOf (bits : BitVec 64) : F64 :=
  Ieee.pack (Ieee.negative bits)
    (Ieee.infBits + if Ieee.fracField bits = 0 then 2 ^ 51 else Ieee.fracField bits)

/-- `add(a, b)` of rule R10; `q` is the NaN it returns if its result is a NaN. -/
def Ieee.add (q a b : F64) : F64 :=
  if Ieee.isNaN a || Ieee.isNaN b then q
  else if Ieee.isInf a then
    if Ieee.isInf b && Ieee.negative a != Ieee.negative b then q else a
  else if Ieee.isInf b then b
  else
    let sum := Ieee.signedUnits a + Ieee.signedUnits b
    if sum = 0 then Ieee.pack (Ieee.negative a && Ieee.negative b) 0
    else Ieee.round (sum < 0) sum.natAbs 0

/-- `neg(a)` of rule R10: the sign bit flipped, exact, of a NaN too. -/
def Ieee.neg (a : F64) : F64 := a ^^^ (1#64 <<< 63)

/-- `sub(a, b)` of rule R10: the sum of `a` and the negated `b`. -/
def Ieee.sub (q a b : F64) : F64 := Ieee.add q a (Ieee.neg b)

/-- `mul(a, b)` of rule R10. -/
def Ieee.mul (q a b : F64) : F64 :=
  if Ieee.isNaN a || Ieee.isNaN b then q
  else if Ieee.isInf a || Ieee.isInf b then
    if Ieee.isFinite a && Ieee.units a = 0 || Ieee.isFinite b && Ieee.units b = 0 then q
    else Ieee.pack (Ieee.negative a != Ieee.negative b) Ieee.infBits
  else Ieee.round (Ieee.negative a != Ieee.negative b) (Ieee.units a * Ieee.units b) 1074

/-- `divN(a)` of rules R10 and R172: one correctly rounded division by `N = 2^m`. -/
def Ieee.divN (m : Nat) (q a : F64) : F64 :=
  if Ieee.isNaN a then q
  else if Ieee.isInf a then a
  else Ieee.round (Ieee.negative a) (Ieee.units a) m

end Sys2Proof.Machine
end

