-- ==== Sys2Proof/Machine/Params.lean ====
section
/-! DEFINITION. The parameters of an instance that derive from `M` (rules R8, R9) and the
bit-reversal function of the notation (rule R13). -/

namespace Sys2Proof.Machine

/-- `N = 2^M`, the sample length (rule R8). -/
def Params.len (m : Nat) : Nat := 2 ^ m

/-- `Q`, the quarter-period offset: `N/4` when `M >= 2`, 0 when `M = 0` (rules R8, R121). -/
def Params.quarter (m : Nat) : Nat := if 2 ≤ m then 2 ^ m / 4 else 0

/-- `L = N + Q`, the length of the sine table (rule R8). -/
def Params.sineLen (m : Nat) : Nat := Params.len m + Params.quarter m

/-- The admitted values of `M`: 0, or 2 to 255 (rules R8, R9). -/
def Params.admitted (m : Nat) : Bool := m = 0 || (2 ≤ m && m ≤ 255)

/-- The `M` of a raw sample length, if it is admitted (rule R247). -/
def Params.ofLength (n : Nat) : Option Nat :=
  if 2 ^ n.log2 = n ∧ Params.admitted n.log2 then some n.log2 else none

/-- `rev_M(i)`: the `M`-bit representation of `i` read in reverse order (rule R13). -/
def rev : Nat → Nat → Nat
  | 0, _ => 0
  | m + 1, i => (i % 2) * 2 ^ m + rev m (i / 2)

end Sys2Proof.Machine
end

