-- ==== Sys2Proof/Machine/Sine.lean ====
section
/-! DEFINITION. `SINVAL` over binary64, the contents of the twiddle ROM: the exact value
`sin(2π·i/N)` rounded once (rules R122, R128). The quadrants are folded onto the first one, so the
exact entries and the symmetries of rule R128 hold by construction; a value inside the first
quadrant is computed with 448 fraction bits and rounded (UNVERIFIED, log entry 5). -/

namespace Sys2Proof.Machine

/-- `floor(π · 2^448)`. -/
def Sine.piFixed : Nat :=
  0x3243f6a8885a308d313198a2e03707344a4093822299f31d0082efa98ec4e6c89452821e638d01377be5466cf34e90c6cc0ac29b7c97c50dd

/-- The alternating series `t - t·x²/((2n+2)(2n+3)) + ...` with 448 fraction bits; `x2` is `x²` with
896 of them. Each term is smaller than the one before it for `x < 2`, so no difference is
negative. -/
def Sine.series : Nat → Nat → Nat → Nat → Nat
  | 0, _, _, _ => 0
  | fuel + 1, n, x2, t =>
    t - Sine.series fuel (n + 1) x2 (t * x2 / 2 ^ 896 / ((2 * n + 2) * (2 * n + 3)))

/-- `sin(2π·r/2^m)` with 448 fraction bits, for an angle of the first quadrant. -/
def Sine.fixed (m r : Nat) : Nat :=
  let x := 2 * r * Sine.piFixed / 2 ^ m
  Sine.series 56 0 (x * x) x

/-- The sine of an angle strictly inside the first quadrant, rounded once to binary64. -/
def Sine.firstQuadrant (neg : Bool) (m r : Nat) : F64 :=
  Ieee.round neg (Sine.fixed m r * 2 ^ (1074 - 448)) 0

/-- `SINVAL(i)` over binary64 (rule R122). -/
def Sine.sinval (m i : Nat) : F64 :=
  if m < 2 then 0#64
  else
    let q := 2 ^ m / 4
    let r := i % q
    match i / q % 4 with
    | 0 => if r = 0 then Ieee.pack false 0 else Sine.firstQuadrant false m r
    | 1 => if r = 0 then Ieee.pack false (1023 * 2 ^ 52) else Sine.firstQuadrant false m (q - r)
    | 2 => if r = 0 then Ieee.pack false 0 else Sine.firstQuadrant true m r
    | _ => if r = 0 then Ieee.pack true (1023 * 2 ^ 52) else Sine.firstQuadrant true m (q - r)

end Sys2Proof.Machine
end

