-- ==== Sys2Proof/Machine/Arith.lean ====
section
/-! DEFINITION. The numeric record `Num` of rule R10 as an argument of the engine, and its hardware
default, binary64. -/

namespace Sys2Proof.Machine

/-- The operations the datapath performs on `Num` (rule R10) and the values it draws. The first
argument of `add`, `sub` and `mul`, and the second of `divN`, is the NaN the operation returns if
its result is a NaN (rule R11). -/
structure Arith (α : Type) where
  /-- The value of a datapath register after reset (DESIGN CHOICE, log entry 6). -/
  zero : α
  add : α → α → α → α
  sub : α → α → α → α
  mul : α → α → α → α
  neg : α → α
  /-- Division by `N = 2^m`. -/
  divN : Nat → α → α → α
  /-- `SINVAL(i)` of the instance with `M = m` (rule R122). -/
  sinval : Nat → Nat → α
  /-- The NaN of an operation: draw, operation. -/
  nan : Nat → Nat → α
  /-- The content of a buffer element that holds no value: draw, slot. -/
  empty : Nat → Nat → α
  /-- The content of a sine table entry that nothing has written: draw, index. -/
  unbuilt : Nat → Nat → α

/-- The hardware default: IEEE 754 binary64 (decision D4). -/
def Arith.binary64 : Arith F64 where
  zero := 0#64
  add := Ieee.add
  sub := Ieee.sub
  mul := Ieee.mul
  neg := Ieee.neg
  divN := Ieee.divN
  sinval := Sine.sinval
  nan := fun draw op => Ieee.nanOf (Config.freeNaN draw op)
  empty := Config.emptyElement
  unbuilt := Config.unbuiltSine

end Sys2Proof.Machine
end

