-- ==== Sys2Proof/Machine/Engine.lean ====
section
/-! DEFINITION. The state of one FFTBN engine as plain data, over any number type (rule R20), and
the data spaces it is made of. -/

namespace Sys2Proof.Machine

/-- A data space: its elements that hold a value, as (index, element) pairs with indices strictly
rising; an element not listed holds no value (rules R22, R60; DESIGN CHOICE, log entry 23). -/
abbrev Cells (α : Type) := List (Nat × α)

/-- `SEQ.PHASE` (rule R33). -/
inductive Phase where
  | idle
  | sinb
  | brvb
  | perm
  | twld
  | bfly
  | norm
  | halt
  deriving DecidableEq, Repr

/-- `SEQ.INV`: the direction of a transform (rules R34, R99). -/
inductive Direction where
  | fwd
  | inv
  deriving DecidableEq, Repr

/-- `STATUS.ERR`: no fault, or one of the three fault codes (rule R241; codes 4 to 7 are never
raised, U12). -/
inductive ErrCode where
  | none
  | illegalCmd
  | notReady
  | badAccess
  deriving DecidableEq, Repr

/-- The state of an engine (rule R20). `CMD` stores nothing (rule R26). -/
structure Engine (α : Type) where
  /-- `CFG.M`, hardwired (rules R8, R32). -/
  m : Nat
  /-- `CFG.PRELOAD`, hardwired (rules R8, R32). -/
  preload : Bool
  /-- The signal buffers (rules R21, R22). -/
  x : Cells α
  y : Cells α
  /-- The sine table (rule R23). -/
  sintbl : Cells α
  /-- The bit-reversal table (rule R24). -/
  bitrev : Cells Nat
  /-- `STATUS.SINV` (rule R28). -/
  sinv : Bool
  /-- `STATUS.BRV` (rule R29). -/
  brv : Bool
  /-- `STATUS.ERR` (rule R30). -/
  err : ErrCode
  /-- `SEQ.PHASE` (rule R33). -/
  phase : Phase
  /-- `SEQ.INV` (rule R34). -/
  dir : Direction
  /-- The transform loop counters (rule R35). -/
  i : Nat
  j : Nat
  k : Nat
  k2 : Nat
  d : Nat
  h : Nat
  ik : Nat
  /-- The table-build counters (rule R36). -/
  si : Nat
  bi : Nat
  bj : Nat
  bk : Nat
  /-- The datapath registers `C S XK YK XI YI DX DY` (rule R37). -/
  rc : α
  rs : α
  rxk : α
  ryk : α
  rxi : α
  ryi : α
  rdx : α
  rdy : α
  /-- THE MODEL'S OWN: the number of the next draw of free values (DESIGN CHOICE, log entry 25). -/
  draws : Nat
  deriving DecidableEq, Repr

/-- The four new values of a butterfly and its two intermediate results (rule R170). -/
structure ButterflyResult (α : Type) where
  dx : α
  dy : α
  xi : α
  xk : α
  yi : α
  yk : α
  deriving DecidableEq, Repr

/-- The value an element of a space holds, if any. -/
def Cells.read {α : Type} : Cells α → Nat → Option α
  | [], _ => none
  | (b, w) :: rest, a => if a = b then some w else Cells.read rest a

/-- The space after an element is written; the order of the list is kept. -/
def Cells.write {α : Type} : Cells α → Nat → α → Cells α
  | [], a, v => [(a, v)]
  | (b, w) :: rest, a, v =>
    if a < b then (a, v) :: (b, w) :: rest
    else if a = b then (a, v) :: rest
    else (b, w) :: Cells.write rest a v

/-- The canonical form of a space of `n` elements: indices strictly rising and below `n`. -/
abbrev Cells.wf {α : Type} (n : Nat) (cells : Cells α) : Prop :=
  cells.Pairwise (fun a b => a.1 < b.1) ∧ ∀ c ∈ cells, c.1 < n

/-- The space of `n` elements that all hold the value a function gives. -/
def Cells.ofFn {α : Type} (n : Nat) (f : Nat → α) : Cells α := (List.range n).map fun i => (i, f i)

/-- Every element of a space of `n` elements holds a value. -/
def Cells.populated {α : Type} (n : Nat) (cells : Cells α) : Bool :=
  (List.range n).all fun i => (cells.read i).isSome

/-- The engine after reset (rules R41, R280): the tables are as `PRELOAD` says, the buffers hold no
value, `PHASE` is `IDLE`, `ERR` is 0. Counters and datapath registers are unspecified in the spec;
they get zero (DESIGN CHOICE, log entry 6). -/
def Engine.resetOf {α : Type} (A : Arith α) (m : Nat) (preload : Bool) (draws : Nat) : Engine α where
  m := m
  preload := preload
  x := []
  y := []
  sintbl := if preload then Cells.ofFn (Params.sineLen m) (A.sinval m) else []
  bitrev := if preload then Cells.ofFn (Params.len m) (rev m) else []
  sinv := preload
  brv := preload
  err := .none
  phase := .idle
  dir := .fwd
  i := 0
  j := 0
  k := 0
  k2 := 0
  d := 0
  h := 0
  ik := 0
  si := 0
  bi := 0
  bj := 0
  bk := 0
  rc := A.zero
  rs := A.zero
  rxk := A.zero
  ryk := A.zero
  rxi := A.zero
  ryi := A.zero
  rdx := A.zero
  rdy := A.zero
  draws := draws

end Sys2Proof.Machine
end

