-- ==== Sys2Proof/Machine/State.lean ====
section
/-! DEFINITION. The state of the machine: one binary64 engine, the host transactions still to come
and what the latest one returned; the reasons a step can stop; the state after reset. -/

namespace Sys2Proof.Machine

/-- What a host transaction returned (rule R221): no data, `ok(value)` or `err`. -/
inductive Reply where
  | nothing
  | ok (value : Datum)
  | err
  deriving DecidableEq, Repr

/-- The machine. `x y sintbl bitrev ... draws` are the engine's (rule R20); `pending` and `reply` are
the model's own, for the host (rules R12, R302; DESIGN CHOICE, log entry 10). -/
structure State extends Engine F64 where
  /-- The host's transactions that have not been taken yet, oldest first. -/
  pending : List Txn
  /-- What the latest host transaction returned. -/
  reply : Reply
  deriving DecidableEq, Repr

/-- Why the machine stops for good. The faults of the spec are not here: they are exceptions the
machine takes, `STATUS.ERR` latched and `PHASE = HALT` (rule R244). No run reaches either stop. -/
inductive Fault where
  /-- A micro-operation whose counters point outside a space (raised by `SINW`, `BRVS`, `PERM`,
  `TWLD`, `BFLY`, `NORM`): such an element does not exist (rules R61, R209). Safe. -/
  | noSuchElement
  /-- The advance of `BRVS` from an accumulator with which its loop never ends (rule R149). Safe. -/
  | advanceNeverEnds
  deriving DecidableEq, Repr

/-- Why the model gives a step no meaning. -/
inductive Refusal where
  /-- An instruction without a meaning yet (raised by an arm of `exec`). Safe. -/
  | notModelled (mnemonic : String)
  /-- An `XFORM` while some element of `X` or `Y` holds no value (rules R161, R251). Safe. -/
  | unpopulatedBuffer
  /-- An `HRD` of an element of `X` or `Y` that holds no value (rules R226, R251). Safe. -/
  | unwrittenRead
  /-- Any step of an instance whose `M` is not admitted (rules R9, R247, R251). Safe. -/
  | badConfiguration
  /-- A host transaction while a command is executing (rules R70, R223, U16). Safe; `step` never
  asks for it. -/
  | hostHasNoMove
  /-- A micro-operation that `PHASE` does not select (rule R100). Safe; `step` never asks for
  it. -/
  | notSelected
  /-- A transaction of the reserved kind `11` (rule R98, U14). Safe. -/
  | reservedKind
  /-- A write whose data is not an element of its space (rule R98). Safe; no tuple decodes to
  it. -/
  | illTypedData
  deriving DecidableEq, Repr

/-- The machine of an instance right after reset, before any transaction (rules R41, R280). -/
def State.ofReset (m : Nat) (preload : Bool) : State where
  toEngine := Engine.resetOf Arith.binary64 m preload 0
  pending := []
  reply := .nothing

/-- The instance the fixed name stands for: `M = 3`, `PRELOAD = 0` (DESIGN CHOICE, log entry 1). -/
def State.reset : State := State.ofReset 3 false

end Sys2Proof.Machine
end

