-- ==== Sys2Proof/Machine/Flags.lean ====
section
/-! DEFINITION. The status and configuration words as the host reads them, and the codes of their
fields (rules R27, R32, R33, R241). These are the only flags of the machine (rule R39). -/

namespace Sys2Proof.Machine

/-- The value of `STATUS.ERR` (rule R241). -/
def ErrCode.code : ErrCode → BitVec 3
  | .none => 0#3
  | .illegalCmd => 1#3
  | .notReady => 2#3
  | .badAccess => 3#3

/-- The value of `SEQ.PHASE` (rules R33, R100). -/
def Phase.code : Phase → BitVec 3
  | .idle => 0b000#3
  | .sinb => 0b001#3
  | .brvb => 0b010#3
  | .perm => 0b011#3
  | .twld => 0b100#3
  | .bfly => 0b101#3
  | .norm => 0b110#3
  | .halt => 0b111#3

/-- The phase of a 3-bit code; all eight are defined (rule R100). -/
def Phase.ofCode (b : BitVec 3) : Phase :=
  match b.toNat with
  | 0 => .idle
  | 1 => .sinb
  | 2 => .brvb
  | 3 => .perm
  | 4 => .twld
  | 5 => .bfly
  | 6 => .norm
  | _ => .halt

/-- A command is executing: the engine has a next micro-operation and the host has no move
(rules R70, R223). -/
def Phase.busy : Phase → Bool
  | .idle => false
  | .halt => false
  | .sinb => true
  | .brvb => true
  | .perm => true
  | .twld => true
  | .bfly => true
  | .norm => true

/-- The value of `SEQ.INV` (rule R34). -/
def Direction.bit : Direction → BitVec 1
  | .fwd => 0#1
  | .inv => 1#1

/-- The word read from `STATUS`: `zext_32(ERR ++ BRV ++ SINV)` (rule R27). -/
def Engine.statusWord {α : Type} (e : Engine α) : Word :=
  (e.err.code ++ BitVec.ofBool e.brv ++ BitVec.ofBool e.sinv).setWidth 32

/-- The word read from `CFG`: `M` in bits 7:0, `PRELOAD` in bit 8 (rule R32). -/
def Engine.cfgWord {α : Type} (e : Engine α) : Word :=
  (BitVec.ofBool e.preload ++ BitVec.ofNat 8 e.m).setWidth 32

end Sys2Proof.Machine
end

