-- ==== Sys2Proof/Machine/Operands.lean ====
section
/-! DEFINITION. Every operand form: the locations of a host access and its rights (rules R61, R224)
and the elements a micro-operation reads (rules R124, R142, R165 to R171). -/

namespace Sys2Proof.Machine

/-- `N` of the instance. -/
def Engine.len {α : Type} (e : Engine α) : Nat := Params.len e.m

/-- `Q` of the instance. -/
def Engine.quarter {α : Type} (e : Engine α) : Nat := Params.quarter e.m

/-- `L` of the instance. -/
def Engine.sineLen {α : Type} (e : Engine α) : Nat := Params.sineLen e.m

/-- `readable(space, index)` of rule R224. -/
def Engine.readable {α : Type} (e : Engine α) (space : Space) (index : Nat) : Bool :=
  match space with
  | .csr => index = 1 || index = 2
  | .x => index < e.len
  | .y => index < e.len
  | .sintbl => index < e.sineLen && e.sinv
  | .bitrev => index < e.len && e.brv
  | .reserved5 => false
  | .reserved6 => false
  | .reserved7 => false

/-- `writable(space, index)` of rule R224. -/
def Engine.writable {α : Type} (e : Engine α) (space : Space) (index : Nat) : Bool :=
  match space with
  | .csr => index = 0
  | .x => index < e.len
  | .y => index < e.len
  | .sintbl => false
  | .bitrev => false
  | .reserved5 => false
  | .reserved6 => false
  | .reserved7 => false

/-- Every element of both buffers holds a value (rule R161). -/
def Engine.populated {α : Type} (e : Engine α) : Bool :=
  e.x.populated e.len && e.y.populated e.len

/-- `X[i]` as a micro-operation reads it (DESIGN CHOICE, log entry 7). -/
def Engine.xAt {α : Type} (A : Arith α) (e : Engine α) (slot i : Nat) : α :=
  (e.x.read i).getD (A.empty e.draws slot)

/-- `Y[i]` as a micro-operation reads it (DESIGN CHOICE, log entry 7). -/
def Engine.yAt {α : Type} (A : Arith α) (e : Engine α) (slot i : Nat) : α :=
  (e.y.read i).getD (A.empty e.draws slot)

/-- `SINTBL[i]` (DESIGN CHOICE, log entry 8). -/
def Engine.sinAt {α : Type} (A : Arith α) (e : Engine α) (i : Nat) : α :=
  (e.sintbl.read i).getD (A.unbuilt e.draws i)

/-- `BITREV[i]`, an entry `M` bits wide (rule R24; log entries 8 and 26). -/
def Engine.revAt {α : Type} (e : Engine α) (i : Nat) : Nat :=
  ((e.bitrev.read i).getD (Config.unbuiltRev e.draws i)) % e.len

/-- A bit-reversal entry as a 32-bit word (rules R61, R228; DESIGN CHOICE, log entry 18). -/
def revWord (draws v : Nat) : Word :=
  if v < 2 ^ 32 then BitVec.ofNat 32 v else Config.wideRevWord draws v

/-- `MemRead(space, index)` of rule R221 for a readable location; no value for an element of `X` or
`Y` that holds none, and for a location that is not readable. -/
def Engine.hostValue (e : Engine F64) (space : Space) (index : Nat) : Option Datum :=
  match space with
  | .csr =>
    if index = 1 then some (.word e.statusWord)
    else if index = 2 then some (.word e.cfgWord)
    else none
  | .x => (e.x.read index).map .num
  | .y => (e.y.read index).map .num
  | .sintbl => some (.num (e.sinAt Arith.binary64 index))
  | .bitrev => some (.word (revWord e.draws (e.revAt index)))
  | .reserved5 => none
  | .reserved6 => none
  | .reserved7 => none

end Sys2Proof.Machine
end

