-- ==== Sys2Proof/Machine/Ops.lean ====
section
/-! DEFINITION. The operations the instructions share: taking a fault and leaving it, admission of a
host transaction and selection of a micro-operation, the probe loop of the bit-reversal build, the
butterfly, and fetching. -/

namespace Sys2Proof.Machine

/-! ## Faults -/

/-- `raise F` (rule R244): the code is latched and the engine halts; nothing else changes. -/
def Engine.raise {α : Type} (code : ErrCode) (e : Engine α) : Engine α :=
  { e with err := code, phase := .halt }

/-- `RESET`, the only way out of `HALT` (rules R253, R281). The instance's parameters stay; what
becomes unspecified is drawn anew. -/
def Engine.afterReset {α : Type} (A : Arith α) (e : Engine α) : Engine α :=
  Engine.resetOf A e.m e.preload (e.draws + 1)

/-- An engine from a raw sample length (rules R9, R247). -/
def buildEngine {α : Type} (A : Arith α) (n : Nat) (preload : Bool) :
    Host.Outcome (Engine α) Fault Refusal :=
  match Params.ofLength n with
  | some m => .next (Engine.resetOf A m preload 0)
  | none => .refused .badConfiguration

/-! ## Who may move -/

/-- A micro-operation runs when its phase selects it (rule R100), in an admitted instance. -/
def Engine.selected {α : Type} (p : Phase) (work : Engine α → Host.Outcome (Engine α) Fault Refusal)
    (e : Engine α) : Host.Outcome (Engine α) Fault Refusal :=
  if Params.admitted e.m then
    if e.phase = p then work e else .refused .notSelected
  else .refused .badConfiguration

/-- The machine whose engine is the outcome's; the host's part changes only in its reply. -/
def State.withEngine (s : State) (reply : Reply) (r : Host.Outcome (Engine F64) Fault Refusal) :
    Host.Outcome State Fault Refusal :=
  match r with
  | .next e => .next { s with toEngine := e, reply := reply }
  | .fault f => .fault f
  | .refused f => .refused f

/-- A micro-operation of the machine: the host's part does not change. -/
def State.microOp (p : Phase) (work : Engine F64 → Host.Outcome (Engine F64) Fault Refusal)
    (s : State) : Host.Outcome State Fault Refusal :=
  s.withEngine s.reply (Engine.selected p work s.toEngine)

/-- Admission of a host transaction (rules R223, R227): in `IDLE` its full semantics, in `HALT` its
reduced ones, otherwise the host has no move. -/
def State.hostMove (idle halt : State → Host.Outcome State Fault Refusal) (s : State) :
    Host.Outcome State Fault Refusal :=
  if Params.admitted s.m then
    match s.phase with
    | .idle => idle s
    | .halt => halt s
    | .sinb => .refused .hostHasNoMove
    | .brvb => .refused .hostHasNoMove
    | .perm => .refused .hostHasNoMove
    | .twld => .refused .hostHasNoMove
    | .bfly => .refused .hostHasNoMove
    | .norm => .refused .hostHasNoMove
  else .refused .badConfiguration

/-- A write ignored in `HALT` (rule R227): no state of the engine changes. -/
def State.ignored (s : State) : Host.Outcome State Fault Refusal :=
  .next { s with reply := .nothing }

/-- A write of the host: `work` in `IDLE`, ignored in `HALT` (rules R222, R227). -/
def State.hostWrite (work : Engine F64 → Host.Outcome (Engine F64) Fault Refusal) (s : State) :
    Host.Outcome State Fault Refusal :=
  s.hostMove (fun t => t.withEngine .nothing (work t.toEngine)) State.ignored

/-! ## Command start -/

/-- `si <- 0; PHASE <- SINB` (rule R123). -/
def Engine.startMksin {α : Type} (e : Engine α) : Engine α := { e with si := 0, phase := .sinb }

/-- `bi <- 0; bj <- 0; PHASE <- BRVB` (rule R141). -/
def Engine.startMkbrev {α : Type} (e : Engine α) : Engine α :=
  { e with bi := 0, bj := 0, phase := .brvb }

/-- The start check of rule R161 and the command start of rule R162. -/
def Engine.startXform {α : Type} (dir : Direction) (e : Engine α) :
    Host.Outcome (Engine α) Fault Refusal :=
  if e.sinv = false ∨ e.brv = false then .next (e.raise .notReady)
  else if e.populated = false then .refused .unpopulatedBuffer
  else .next { e with dir := dir, i := 0, phase := .perm }

/-- A word written to `CMD` in `IDLE` (rules R92, R222, R242). -/
def Engine.command {α : Type} (w : Word) (e : Engine α) : Host.Outcome (Engine α) Fault Refusal :=
  match decodeCommand w with
  | some .mksin => .next e.startMksin
  | some .mkbrev => .next e.startMkbrev
  | some .xformFwd => e.startXform .fwd
  | some .xformInv => e.startXform .inv
  | none => .next (e.raise .illegalCmd)

/-! ## Sequencing and datapath -/

/-- The probe loop of rule R143 from accumulator `j` and probe `k`: the advanced accumulator and the
surviving probe. At `k = 0` the loop never ends (rule R149). -/
def brAdvance : Nat → Nat → Nat → Option (Nat × Nat)
  | 0, _, _ => none
  | fuel + 1, j, k =>
    if k = 0 then none
    else if k ≤ j then brAdvance fuel (j - k) (k / 2)
    else some (j + k, k)

/-- `brnext(j)` of rule R143 with the surviving probe; the probe starts at `N/2` and is 0 after `M`
halvings, so `M + 1` tests decide. -/
def brNext (m j : Nat) : Option (Nat × Nat) := brAdvance (m + 1) j (2 ^ m / 2)

/-- `enter_stage(kn)` of rule R173. -/
def Engine.enterStage {α : Type} (kn : Nat) (e : Engine α) : Engine α :=
  if kn < e.len then
    { e with k := kn, k2 := 2 * kn, d := e.len / (2 * kn), j := 0, h := 0, phase := .twld }
  else if e.dir = .fwd then { e with k := kn, i := 0, phase := .norm }
  else { e with k := kn, phase := .idle }

/-- The butterfly of rules R169 and R170 as a function of the twiddle factor and the four old
values; `nan n` is the NaN of its `n`-th operation. An infinite odd sample times a zero factor makes
NaN only the pair of outputs whose `DX` or `DY` holds that product, as these rules and vector V-T10
have it, although rule R177 says all four (DESIGN CHOICE, log entry 30). -/
def butterfly {α : Type} (A : Arith α) (nan : Nat → α) (c s xi xk yi yk : α) : ButterflyResult α :=
  let dx := A.add (nan 2) (A.mul (nan 0) s yk) (A.mul (nan 1) c xk)
  let dy := A.sub (nan 5) (A.mul (nan 3) c yk) (A.mul (nan 4) s xk)
  { dx := dx
    dy := dy
    xk := A.sub (nan 6) xi dx
    xi := A.add (nan 7) xi dx
    yk := A.sub (nan 8) yi dy
    yi := A.add (nan 9) yi dy }

/-! ## Fetching -/

/-- What the machine does next: a micro-operation that `PHASE` selects, or the oldest host
transaction, which is taken off the list, or nothing. -/
inductive Fetched where
  | nothing
  | instr (i : Instr) (s : State)
  | rejected (r : Reject)
  deriving DecidableEq, Repr

/-- Fetch (rules R33, R70, R223): while a command executes `PHASE` alone selects; in `IDLE` and
`HALT` the host moves. -/
def State.fetch (s : State) : Fetched :=
  if s.phase.busy then
    match decode (.u s.phase.code) with
    | .ok i => .instr i s
    | .error r => .rejected r
  else
    match s.pending with
    | [] => .nothing
    | t :: rest =>
      match decodeHost t with
      | .ok i => .instr i { s with pending := rest }
      | .error r => .rejected r

/-- The machine with an instruction placed where the next fetch finds it: a value of `PHASE` for a
micro-operation, otherwise the host's next transaction, which a busy engine does not take, so that
a busy one is made idle. -/
def State.place (s : State) (code : Code) : State :=
  match code with
  | .u p => { s with phase := Phase.ofCode p }
  | .t t => { s with pending := t :: s.pending, phase := if s.phase.busy then .idle else s.phase }
  | .c w =>
    { s with
      pending := Txn.writeCmd w :: s.pending
      phase := if s.phase.busy then .idle else s.phase }

end Sys2Proof.Machine
end

