-- ==== Sys2Proof/Machine/BitReversal.lean ====
section
/-! DEFINITION. `MKBREV` and `BRVS`: building the bit-reversal table (rules R141 to R149). -/

namespace Sys2Proof.Machine

/-- The work and the transition of `BRVS` (rules R142, R145): no advance after the last entry. -/
def Engine.brvs {α : Type} (e : Engine α) : Host.Outcome (Engine α) Fault Refusal :=
  if e.bi < e.len then
    let e1 := { e with bitrev := e.bitrev.write e.bi e.bj }
    if e.bi + 1 = e.len then .next { e1 with brv := true, phase := .idle }
    else
      match brNext e.m e.bj with
      | some (bj, bk) => .next { e1 with bj := bj, bk := bk, bi := e.bi + 1 }
      | none => .fault .advanceNeverEnds
  else .fault .noSuchElement

/-- `MKBREV` (rule R141): starts the build; legal when the table is valid too (rule R147). -/
def execMkbrev (s : State) : Host.Outcome State Fault Refusal :=
  s.hostWrite fun e => .next e.startMkbrev

/-- `BRVS` (rule R142). -/
def execBrvs (s : State) : Host.Outcome State Fault Refusal :=
  s.microOp .brvb Engine.brvs

end Sys2Proof.Machine
end

