-- ==== Sys2Proof/Machine/HostAccess.lean ====
section
/-! DEFINITION. The host transactions `HRD`, `HWR` and `RESET` (rules R221 to R228, R280, R281). -/

namespace Sys2Proof.Machine

/-- The answer to a read of a readable location (rules R221, R226). -/
def State.answer (space : Space) (index : Nat) (s : State) : Host.Outcome State Fault Refusal :=
  match s.hostValue space index with
  | some v => .next { s with reply := .ok v }
  | none => .refused .unwrittenRead

/-- `HRD` in `IDLE` (rule R221). -/
def State.readIdle (space : Space) (index : Nat) (s : State) : Host.Outcome State Fault Refusal :=
  if s.readable space index then s.answer space index
  else .next { s with toEngine := s.toEngine.raise .badAccess, reply := .err }

/-- `HRD` in `HALT` (rule R227): a location that is not readable returns `err` and no new fault is
recorded. -/
def State.readHalt (space : Space) (index : Nat) (s : State) : Host.Outcome State Fault Refusal :=
  if s.readable space index then s.answer space index
  else .next { s with reply := .err }

/-- `HWR` in `IDLE` (rules R222, R224). -/
def Engine.hostStore (space : Space) (index : Nat) (data : Datum) (e : Engine F64) :
    Host.Outcome (Engine F64) Fault Refusal :=
  if e.writable space index then
    match space, data with
    | .x, .num v => .next { e with x := e.x.write index v }
    | .y, .num v => .next { e with y := e.y.write index v }
    | .csr, .word w => e.command w
    | _, _ => .refused .illTypedData
  else .next (e.raise .badAccess)

/-- `HRD(space, index)` (rules R221, R223, R227). -/
def execHrd (space : Space) (index : BitVec 32) (s : State) : Host.Outcome State Fault Refusal :=
  s.hostMove (State.readIdle space index.toNat) (State.readHalt space index.toNat)

/-- `HWR(space, index, data)` (rules R222, R223, R227). -/
def execHwr (space : Space) (index : BitVec 32) (data : Datum) (s : State) :
    Host.Outcome State Fault Refusal :=
  s.hostWrite (Engine.hostStore space index.toNat data)

/-- `RESET` (rules R280, R281), admitted in `IDLE` and in `HALT`. -/
def execReset (s : State) : Host.Outcome State Fault Refusal :=
  let doReset := fun (t : State) =>
    Host.Outcome.next
      { t with toEngine := t.toEngine.afterReset Arith.binary64, reply := .nothing }
  s.hostMove doReset doReset

end Sys2Proof.Machine
end

