-- ==== Sys2Proof/Machine/SineTable.lean ====
section
/-! DEFINITION. `MKSIN` and `SINW`: building the sine table (rules R123 to R127). -/

namespace Sys2Proof.Machine

/-- The work and the transition of `SINW` (rules R124, R125). -/
def Engine.sinw {α : Type} (A : Arith α) (e : Engine α) : Host.Outcome (Engine α) Fault Refusal :=
  if e.si < e.sineLen then
    let e1 := { e with sintbl := e.sintbl.write e.si (A.sinval e.m e.si), si := e.si + 1 }
    .next (if e.si + 1 = e.sineLen then { e1 with sinv := true, phase := .idle } else e1)
  else .fault .noSuchElement

/-- `MKSIN` (rule R123): starts the build; legal when the table is valid too (rule R127). -/
def execMksin (s : State) : Host.Outcome State Fault Refusal :=
  s.hostWrite fun e => .next e.startMksin

/-- `SINW` (rule R124). -/
def execSinw (s : State) : Host.Outcome State Fault Refusal :=
  s.microOp .sinb (Engine.sinw Arith.binary64)

end Sys2Proof.Machine
end

