-- ==== Sys2Proof/Machine/Transform.lean ====
section
/-! DEFINITION. `XFORM FWD`, `XFORM INV` and their micro-operations `PERM`, `TWLD`, `BFLY`, `NORM`
(rules R160 to R177). Each micro-operation is its work on the data, a function of explicit counters,
and then its transition of the sequencer (rule R173). -/

namespace Sys2Proof.Machine

/-! ## Work -/

/-- The conditional swap at index `i` (rule R165): all four old values are staged first. -/
def Engine.permWork {α : Type} (A : Arith α) (i : Nat) (e : Engine α) : Engine α :=
  let t := e.revAt i
  let xi := e.xAt A 0 i
  let xk := e.xAt A 1 t
  let yi := e.yAt A 2 i
  let yk := e.yAt A 3 t
  { e with
    x := if i < t then (e.x.write i xk).write t xi else e.x
    y := if i < t then (e.y.write i yk).write t yi else e.y
    rxi := if i < t then xi else e.rxi
    rxk := if i < t then xk else e.rxk
    ryi := if i < t then yi else e.ryi
    ryk := if i < t then yk else e.ryk
    draws := e.draws + 1 }

/-- The twiddle factor of index `h` (rules R130, R167): the sine negated when `INV = 1`. -/
def Engine.twldWork {α : Type} (A : Arith α) (h : Nat) (e : Engine α) : Engine α :=
  { e with
    rc := e.sinAt A (h + e.quarter)
    rs := if e.dir = .inv then A.neg (e.sinAt A h) else e.sinAt A h
    draws := e.draws + 1 }

/-- One butterfly of the lines `i` and `i + k` (rules R169, R170). -/
def Engine.bflyWork {α : Type} (A : Arith α) (i k : Nat) (e : Engine α) : Engine α :=
  let ik := i + k
  let xk := e.xAt A 0 ik
  let yk := e.yAt A 1 ik
  let xi := e.xAt A 2 i
  let yi := e.yAt A 3 i
  let b := butterfly A (A.nan e.draws) e.rc e.rs xi xk yi yk
  { e with
    ik := ik
    rxk := xk
    ryk := yk
    rdx := b.dx
    rdy := b.dy
    rxi := xi
    ryi := yi
    x := (e.x.write ik b.xk).write i b.xi
    y := (e.y.write ik b.yk).write i b.yi
    draws := e.draws + 1 }

/-- Division of the elements at index `i` by `N` (rule R171). -/
def Engine.normWork {α : Type} (A : Arith α) (i : Nat) (e : Engine α) : Engine α :=
  { e with
    x := e.x.write i (A.divN e.m (A.nan e.draws 0) (e.xAt A 0 i))
    y := e.y.write i (A.divN e.m (A.nan e.draws 1) (e.yAt A 1 i))
    draws := e.draws + 1 }

/-! ## Micro-operations -/

/-- `PERM` (rules R165, R173). -/
def Engine.perm {α : Type} (A : Arith α) (e : Engine α) : Host.Outcome (Engine α) Fault Refusal :=
  if e.i < e.len then
    let e1 := { e.permWork A e.i with i := e.i + 1 }
    .next (if e.i + 1 = e.len then e1.enterStage 1 else e1)
  else .fault .noSuchElement

/-- `TWLD` (rules R167, R173). -/
def Engine.twld {α : Type} (A : Arith α) (e : Engine α) : Host.Outcome (Engine α) Fault Refusal :=
  if e.h + e.quarter < e.sineLen then
    .next { e.twldWork A e.h with i := e.j, phase := .bfly }
  else .fault .noSuchElement

/-- `BFLY` (rules R169, R173): then the next butterfly of the group, the next group of the stage, or
the next stage. After the last butterfly of a group `i` is left at `j + N`, as the pseudocode of rule
R169 has it, although rules R35 and R209 give no counter more than `N` (DESIGN CHOICE, log entry
29). -/
def Engine.bfly {α : Type} (A : Arith α) (e : Engine α) : Host.Outcome (Engine α) Fault Refusal :=
  if e.i + e.k < e.len then
    let e1 := { e.bflyWork A e.i e.k with i := e.i + e.k2 }
    if e.i + e.k2 < e.len then .next e1
    else
      let e2 := { e1 with h := e.h + e.d, j := e.j + 1 }
      .next (if e.j + 1 < e.k then { e2 with phase := .twld } else e2.enterStage e.k2)
  else .fault .noSuchElement

/-- `NORM` (rules R171, R173). -/
def Engine.norm {α : Type} (A : Arith α) (e : Engine α) : Host.Outcome (Engine α) Fault Refusal :=
  if e.i < e.len then
    let e1 := { e.normWork A e.i with i := e.i + 1 }
    .next (if e.i + 1 = e.len then { e1 with phase := .idle } else e1)
  else .fault .noSuchElement

/-! ## Meanings -/

/-- `XFORM FWD` (rules R160 to R162). -/
def execXformFwd (s : State) : Host.Outcome State Fault Refusal :=
  s.hostWrite (Engine.startXform .fwd)

/-- `XFORM INV` (rules R160 to R162). -/
def execXformInv (s : State) : Host.Outcome State Fault Refusal :=
  s.hostWrite (Engine.startXform .inv)

/-- `PERM` (rule R165). -/
def execPerm (s : State) : Host.Outcome State Fault Refusal :=
  s.microOp .perm (Engine.perm Arith.binary64)

/-- `TWLD` (rule R167). -/
def execTwld (s : State) : Host.Outcome State Fault Refusal :=
  s.microOp .twld (Engine.twld Arith.binary64)

/-- `BFLY` (rule R169). -/
def execBfly (s : State) : Host.Outcome State Fault Refusal :=
  s.microOp .bfly (Engine.bfly Arith.binary64)

/-- `NORM` (rule R171). -/
def execNorm (s : State) : Host.Outcome State Fault Refusal :=
  s.microOp .norm (Engine.norm Arith.binary64)

end Sys2Proof.Machine
end

