-- ==== Sys2Proof/Machine/Dispatch.lean ====
section
/-! DEFINITION. One arm per instruction. -/

namespace Sys2Proof.Machine

def exec (i : Instr) (s : State) : Host.Outcome State Fault Refusal :=
  match i with
  | .mksin => Sys2Proof.Machine.execMksin s
  | .mkbrev => Sys2Proof.Machine.execMkbrev s
  | .xformFwd => Sys2Proof.Machine.execXformFwd s
  | .xformInv => Sys2Proof.Machine.execXformInv s
  | .sinw => Sys2Proof.Machine.execSinw s
  | .brvs => Sys2Proof.Machine.execBrvs s
  | .perm => Sys2Proof.Machine.execPerm s
  | .twld => Sys2Proof.Machine.execTwld s
  | .bfly => Sys2Proof.Machine.execBfly s
  | .norm => Sys2Proof.Machine.execNorm s
  | .hrd space index => Sys2Proof.Machine.execHrd space index s
  | .hwr space index data => Sys2Proof.Machine.execHwr space index data s
  | .reset => Sys2Proof.Machine.execReset s

end Sys2Proof.Machine
end

