-- ==== Sys2Proof/Machine/Step.lean ====
section
/-! DEFINITION. One step of the machine: fetch and run. -/

namespace Sys2Proof.Machine

/-- One step: the micro-operation `PHASE` selects while a command executes, otherwise the host's
next transaction; with none left the engine waits (rules R33, R70, R302). An instance whose `M` is
not admitted has no steps (rule R9). -/
def step (s : State) : Host.Outcome State Fault Refusal :=
  if Params.admitted s.m then
    match s.fetch with
    | .nothing => .next s
    | .instr i t => exec i t
    | .rejected _ => .refused .reservedKind
  else .refused .badConfiguration

/-- The machine with a word of the opcode table placed where the next step fetches (log entries 10
and 11). -/
def State.withFetchWord (s : State) (nbits w : Nat) : State := s.place (tableCode nbits w)

end Sys2Proof.Machine
end

