-- ==== Sys2Proof/Machine/BigStep.lean ====
section
/-! DEFINITION. The engine as an agent that steps while the host waits, over any number type, and
the big-step semantics of the four commands, the loops of rules R123, R141, R163, R164 and R172. The
two views agree on everything the host can see (rule R70). -/

namespace Sys2Proof.Machine

/-- One micro-operation of an engine; in `IDLE` and `HALT` there is none (rule R33). -/
def Engine.micro {α : Type} (A : Arith α) (e : Engine α) : Host.Outcome (Engine α) Fault Refusal :=
  match e.phase with
  | .idle => .next e
  | .halt => .next e
  | .sinb => e.selected .sinb (Engine.sinw A)
  | .brvb => e.selected .brvb Engine.brvs
  | .perm => e.selected .perm (Engine.perm A)
  | .twld => e.selected .twld (Engine.twld A)
  | .bfly => e.selected .bfly (Engine.bfly A)
  | .norm => e.selected .norm (Engine.norm A)

/-- That many micro-operations. -/
def Engine.run {α : Type} (A : Arith α) : Nat → Engine α → Host.Outcome (Engine α) Fault Refusal
  | 0, e => .next e
  | n + 1, e =>
    match e.micro A with
    | .next e' => Engine.run A n e'
    | .fault f => .fault f
    | .refused f => .refused f

/-- `for i in 0 .. n-1`, ascending. -/
def forRange {σ : Type} (n : Nat) (body : Nat → σ → σ) (s : σ) : σ :=
  (List.range n).foldl (fun s i => body i s) s

/-- `MKSIN`, big step (rule R123). -/
def Engine.bigMksin {α : Type} (A : Arith α) (e : Engine α) : Engine α :=
  { forRange e.sineLen (fun i f => { f with sintbl := f.sintbl.write i (A.sinval f.m i) }) e with
    sinv := true }

/-- `MKBREV`, big step (rule R141): the accumulator is carried and is not advanced after the last
entry. -/
def Engine.bigMkbrev {α : Type} (e : Engine α) : Engine α :=
  let body := fun i (f : Engine α) =>
    { f with
      bitrev := f.bitrev.write i f.bj
      bj := if i + 1 < f.len then ((brNext f.m f.bj).map Prod.fst).getD f.bj else f.bj }
  { forRange e.len body { e with bj := 0 } with brv := true }

/-- The permute phase (rule R163). -/
def Engine.bigPermute {α : Type} (A : Arith α) (e : Engine α) : Engine α :=
  forRange e.len (Engine.permWork A) e

/-- Stage number `s`, of size `k = 2^s` (rules R164, R202): `k` groups, each with one twiddle factor
and `d = N/2^(s+1)` butterflies. -/
def Engine.bigStage {α : Type} (A : Arith α) (s : Nat) (e : Engine α) : Engine α :=
  let d := e.len / 2 ^ (s + 1)
  let group := fun j (f : Engine α) =>
    forRange d (fun t g => g.bflyWork A (j + t * 2 ^ (s + 1)) (2 ^ s)) (f.twldWork A (j * d))
  forRange (2 ^ s) group e

/-- The butterfly stages (rule R164). -/
def Engine.bigStages {α : Type} (A : Arith α) (e : Engine α) : Engine α :=
  forRange e.m (Engine.bigStage A) e

/-- Normalisation, on the forward direction only (rule R172). -/
def Engine.bigNorm {α : Type} (A : Arith α) (e : Engine α) : Engine α :=
  if e.dir = .fwd then forRange e.len (Engine.normWork A) e else e

/-- `XFORM`, big step: permute, butterfly stages, normalisation (rule R160). -/
def Engine.bigXform {α : Type} (A : Arith α) (dir : Direction) (e : Engine α) : Engine α :=
  (({ e with dir := dir } : Engine α).bigPermute A |>.bigStages A).bigNorm A

end Sys2Proof.Machine
end

