-- ==== Sys2Proof/Machine/Reals.lean ====
section
/-! DEFINITION. The reference instance of the number type, exact reals (rules R10, R122), and the
closed form of a transform over it (rule R205). The engine is the same; only its numeric record
differs. -/

namespace Sys2Proof.Machine

/-- Exact reals as the number type (rule R10). No operation is undefined, so no NaN is drawn; what
an unwritten element holds is whatever `draw` says. -/
noncomputable def Arith.real (draw : Nat → Nat → ℝ) : Arith ℝ where
  zero := 0
  add := fun _ a b => a + b
  sub := fun _ a b => a - b
  mul := fun _ a b => a * b
  neg := fun a => -a
  divN := fun m _ a => a / (2 ^ m : ℝ)
  sinval := fun m i => Real.sin (2 * Real.pi * i / (2 ^ m : ℝ))
  nan := draw
  empty := draw
  unbuilt := draw

/-- The complex sequence the buffers hold: `z[n] = X[n] + j·Y[n]` (rule R21). -/
noncomputable def Engine.signal (e : Engine ℝ) (n : Nat) : ℂ :=
  ⟨(e.x.read n).getD 0, (e.y.read n).getD 0⟩

/-- The sum of rule R205 without its factor: `sum over n of z[n] · e^(σ·j·2π·m·n/N)`. -/
noncomputable def dftSum (σ : ℝ) (len : Nat) (z : Nat → ℂ) (m : Nat) : ℂ :=
  ∑ n ∈ Finset.range len,
    z n * Complex.exp (Complex.I * ((σ * (2 * Real.pi * m * n / len) : ℝ) : ℂ))

end Sys2Proof.Machine
end

