-- ==== Sys2Proof/Safety.lean ====
section
/-! DEFINITION. What statements speak of: the invariant of the machine, the number of
micro-operations a command has left, a run that has gone right, what the host can see, and the
value of a binary64 pattern with what it means to be the rounding of an exact number. -/

namespace Sys2Proof.Machine

/-! ## The invariant -/

/-- The first entries of the sine table hold their contract values (rules R120, R126). -/
def Engine.SineBuilt {α : Type} (A : Arith α) (e : Engine α) (upto : Nat) : Prop :=
  ∀ i < upto, e.sintbl.read i = some (A.sinval e.m i)

/-- The first entries of the bit-reversal table hold their contract values (rules R140, R146). -/
def Engine.RevBuilt {α : Type} (e : Engine α) (upto : Nat) : Prop :=
  ∀ i < upto, e.bitrev.read i = some (rev e.m i)

/-- What the start check of an `XFORM` has established (rule R161). -/
def Engine.Ready {α : Type} (e : Engine α) : Prop :=
  e.sinv = true ∧ e.brv = true ∧ e.populated = true

/-- The counters inside a stage (rule R209). -/
def Engine.InStage {α : Type} (e : Engine α) : Prop :=
  ∃ s < e.m, e.k = 2 ^ s ∧ e.k2 = 2 ^ (s + 1) ∧ e.d = 2 ^ (e.m - (s + 1)) ∧ e.j < e.k ∧
    e.h = e.j * e.d

/-- What holds on entry to the micro-operation that the phase selects (rules R124, R146, R209). -/
def Engine.PhaseOk {α : Type} (A : Arith α) (e : Engine α) : Prop :=
  match e.phase with
  | .idle => True
  | .halt => True
  | .sinb => e.si < e.sineLen ∧ e.SineBuilt A e.si
  | .brvb => e.bi < e.len ∧ e.bj = rev e.m e.bi ∧ e.RevBuilt e.bi
  | .perm => e.Ready ∧ e.i < e.len
  | .twld => e.Ready ∧ e.InStage
  | .bfly => e.Ready ∧ e.InStage ∧ ∃ t < e.d, e.i = e.j + t * e.k2
  | .norm => e.Ready ∧ e.i < e.len ∧ e.dir = .fwd

/-- The invariant of an engine (rules R9, R42, R126, R146, R209, R245). -/
structure Engine.Inv {α : Type} (A : Arith α) (e : Engine α) : Prop where
  admitted : Params.admitted e.m = true
  x_wf : e.x.wf e.len
  y_wf : e.y.wf e.len
  sintbl_wf : e.sintbl.wf e.sineLen
  bitrev_wf : e.bitrev.wf e.len
  halt_iff : e.phase = .halt ↔ e.err ≠ .none
  sine_valid : e.sinv = true → e.SineBuilt A e.sineLen
  rev_valid : e.brv = true → e.RevBuilt e.len
  preload_valid : e.preload = true → e.sinv = true ∧ e.brv = true
  phase_ok : e.PhaseOk A

/-- The invariant of the machine. -/
def State.Inv (s : State) : Prop := s.toEngine.Inv Arith.binary64

/-! ## Runs -/

/-- The run of a host program has ended (rule R302): no transaction is still to come (`pending` is the
model's own, log entry 10) and the last one has completed, on an engine that exists (rule R9). -/
def State.Ended (s : State) : Prop :=
  Params.admitted s.m = true ∧ s.pending = [] ∧ (s.phase = .idle ∨ s.phase = .halt)

/-- A run has ended and gone right (rule R302). A state is only ever reached without a refusal, which
is an outcome of its own (rule R250). -/
def State.Final (s : State) : Prop := s.Ended ∧ s.phase = .idle ∧ s.err = .none

/-- Some number of steps leads from one state to the other, none of them refused. -/
def State.Reaches (s t : State) : Prop := ∃ n, core.run n s = .next t

/-- The run of the host program that a state has pending goes right (rule R302). -/
def State.GoesRight (s : State) : Prop := ∃ t, s.Reaches t ∧ t.Final

/-- The run of the host program that a state has pending goes wrong: it ends with a fault recorded, or
some step of it is refused (rules R250, R253, R302) or stops the machine. -/
def State.GoesWrong (s : State) : Prop :=
  (∃ t, s.Reaches t ∧ t.Ended ∧ ¬t.Final) ∨ (∃ n r, core.run n s = .refused r) ∨
    ∃ n f, core.run n s = .fault f

/-- The micro-operations of the stages of size `kn` and more: `k` twiddle loads and `N/2`
butterflies each (rule R200). -/
def stagesLeft (m kn : Nat) : Nat := (2 ^ m - kn) + (m - kn.log2) * (2 ^ m / 2)

/-- The micro-operations a normalisation will take. -/
def Engine.normLeft {α : Type} (e : Engine α) : Nat := if e.dir = .fwd then e.len else 0

/-- How many micro-operations the running command has left (rule R300). -/
def Engine.remaining {α : Type} (e : Engine α) : Nat :=
  match e.phase with
  | .idle => 0
  | .halt => 0
  | .sinb => e.sineLen - e.si
  | .brvb => e.len - e.bi
  | .perm => (e.len - e.i) + stagesLeft e.m 1 + e.normLeft
  | .twld => (e.k - e.j) * (1 + e.d) + stagesLeft e.m e.k2 + e.normLeft
  | .bfly =>
    (e.len - e.i + e.k2 - 1) / e.k2 + (e.k - e.j - 1) * (1 + e.d) + stagesLeft e.m e.k2 +
      e.normLeft
  | .norm => e.len - e.i

/-- The two engines agree on everything a host transaction can see, and on the draws made: all but
the counters and the datapath registers, which are hidden and dead between commands (rules R33,
R38, R70). -/
structure Engine.SameVisible {α : Type} (e f : Engine α) : Prop where
  m : e.m = f.m
  preload : e.preload = f.preload
  x : e.x = f.x
  y : e.y = f.y
  sintbl : e.sintbl = f.sintbl
  bitrev : e.bitrev = f.bitrev
  sinv : e.sinv = f.sinv
  brv : e.brv = f.brv
  err : e.err = f.err
  phase : e.phase = f.phase
  draws : e.draws = f.draws

/-- For each row of the transition table of rule R173 that starts in the present phase of a transform,
in the table's order, whether its condition holds. -/
def Engine.transitionRows {α : Type} (e : Engine α) : List Bool :=
  match e.phase with
  | .perm =>
    [e.i + 1 < e.len,
      e.i + 1 = e.len ∧ 1 < e.len,
      e.i + 1 = e.len ∧ e.len = 1 ∧ e.dir = .fwd,
      e.i + 1 = e.len ∧ e.len = 1 ∧ e.dir = .inv]
  | .twld => [true]
  | .bfly =>
    [e.i + e.k2 < e.len,
      e.len ≤ e.i + e.k2 ∧ e.j + 1 < e.k,
      e.len ≤ e.i + e.k2 ∧ e.j + 1 = e.k ∧ e.k2 < e.len,
      e.len ≤ e.i + e.k2 ∧ e.j + 1 = e.k ∧ e.k2 = e.len ∧ e.dir = .fwd,
      e.len ≤ e.i + e.k2 ∧ e.j + 1 = e.k ∧ e.k2 = e.len ∧ e.dir = .inv]
  | .norm => [e.i + 1 < e.len, e.i + 1 = e.len]
  | .idle => []
  | .halt => []
  | .sinb => []
  | .brvb => []

/-! ## Values of binary64 -/

/-- The number a finite pattern stands for. -/
def Ieee.value (v : F64) : ℚ := (Ieee.signedUnits v : ℚ) / 2 ^ 1074

/-- `r` is a finite value nearest to `x`, and if another value is as near, `r` is the even one. -/
def Ieee.NearestEven (x : ℝ) (r : F64) : Prop :=
  Ieee.isFinite r = true ∧
    ∀ w : F64, Ieee.isFinite w = true →
      |(Ieee.value r : ℝ) - x| ≤ |(Ieee.value w : ℝ) - x| ∧
        (|(Ieee.value r : ℝ) - x| = |(Ieee.value w : ℝ) - x| → Ieee.value w ≠ Ieee.value r →
          Ieee.fracField r % 2 = 0)

/-- `r` is `x` rounded once to binary64, to nearest, ties to even: from `2^1024 - 2^970` on, half a
unit beyond the largest finite value, the result is an infinity (rule R10). -/
def Ieee.RoundedTo (x : ℝ) (r : F64) : Prop :=
  if |x| < 2 ^ 1024 - 2 ^ 970 then Ieee.NearestEven x r
  else Ieee.isInf r = true ∧ (Ieee.negative r = true ↔ x < 0)

end Sys2Proof.Machine
end

