-- ==== Sys2Proof/Certificates/Slice0/Obligations.lean ====
section
/-! DEFINITION. The statements for the provers, each from the spec's numbered rules. Statements about
a free value hold for every value of it; no statement rests on a value the model chose. -/

open Sys2Proof Sys2Proof.Machine

/-! ## Encoding -/

/-- Bit patterns written out from rules R93 to R98, R100, the five tuples of vector V-E4 and the read of
`BITREV[6]` of vector V-B8 decode to the instructions they stand for; two illegal words of vector
V-E1 and the reserved kind are rejected. -/
def Obligations.SpecWordsDecodeAsWritten : Prop :=
  decode (.c 0x00000002#32) = .ok .mksin ∧
  decode (.c 0x00000004#32) = .ok .mkbrev ∧
  decode (.c 0x00000006#32) = .ok .xformFwd ∧
  decode (.c 0x00000007#32) = .ok .xformInv ∧
  decode (.u 0b001#3) = .ok .sinw ∧
  decode (.u 0b010#3) = .ok .brvs ∧
  decode (.u 0b011#3) = .ok .perm ∧
  decode (.u 0b100#3) = .ok .twld ∧
  decode (.u 0b101#3) = .ok .bfly ∧
  decode (.u 0b110#3) = .ok .norm ∧
  decode (.t ⟨0b01#2, 1#3, 3#32, 0x3FF8000000000000#64⟩) =
    .ok (.hwr .x 3#32 (.num 0x3FF8000000000000#64)) ∧
  decode (.t ⟨0b01#2, 0#3, 0#32, 0x00000007#64⟩) = .ok (.hwr .csr 0#32 (.word 7#32)) ∧
  decode (.t ⟨0b00#2, 2#3, 0#32, 0#64⟩) = .ok (.hrd .y 0#32) ∧
  decode (.t ⟨0b00#2, 0#3, 1#32, 0#64⟩) = .ok (.hrd .csr 1#32) ∧
  decode (.t ⟨0b00#2, 4#3, 6#32, 0#64⟩) = .ok (.hrd .bitrev 6#32) ∧
  decode (.t ⟨0b10#2, 0#3, 0#32, 0#64⟩) = .ok .reset ∧
  decode (.c 0x00000003#32) = .error (.illegalCommand 3#32) ∧
  decode (.c 0x80000006#32) = .error (.illegalCommand 0x80000006#32) ∧
  decode (.t ⟨0b11#2, 0#3, 0#32, 0#64⟩) = .error .reservedKind

/-- Rules R92 and R104: of all words exactly four are legal, and they are these commands. -/
def Obligations.CommandWordsAreExactlyFour : Prop :=
  ∀ w : Word, decodeCommand w =
    if w = 0x00000002#32 then some .mksin
    else if w = 0x00000004#32 then some .mkbrev
    else if w = 0x00000006#32 then some .xformFwd
    else if w = 0x00000007#32 then some .xformInv
    else none

/-- Every well-formed instruction, with every operand at every value, is read back from its bits. -/
def Obligations.DecodeInvertsEncode : Prop :=
  ∀ i : Instr, i.wellFormed = true → decode (encode i) = .ok i

/-- What the decoder accepts is well-formed, and in the formats without unused bits (commands and
`PHASE`) the bits are those the encoder gives. -/
def Obligations.DecodedInstructionsAreWellFormed : Prop :=
  (∀ (code : Code) (i : Instr), decode code = .ok i → i.wellFormed = true) ∧
  (∀ (w : Word) (i : Instr), decode (.c w) = .ok i → encode i = .c w) ∧
  (∀ (p : BitVec 3) (i : Instr), decode (.u p) = .ok i → encode i = .u p)

/-- A write of a legal word to `CMD` is that command (rules R3, R102); every other tuple of a kind
that exists is the transaction it decodes to. -/
def Obligations.HostTransactionsDecode : Prop :=
  (∀ c : Command, decodeHost (Txn.writeCmd (encodeCommand c)) = .ok c.instr) ∧
  (∀ w : Word, decodeCommand w = none →
    decodeHost (Txn.writeCmd w) = .ok (.hwr .csr 0#32 (.word w))) ∧
  (∀ t : Txn, t.kind ≠ 0b01#2 ∨ t.space ≠ 0#3 ∨ t.index ≠ 0#32 → decodeHost t = decodeTxn t)

/-! ## The step -/

/-- While a command executes the step is the micro-operation that `PHASE` selects, which is the step of
the engine alone; in `IDLE` and
`HALT` it is the host's oldest transaction, taken off the list; with none left the machine waits; a
transaction of the reserved kind has no meaning (rules R33, R70, R98, R223). The list of transactions
and the wait are the model's own (log entries 10, 19 and 20). -/
def Obligations.StepRunsTheDecodedInstruction : Prop :=
  ∀ s : State, Params.admitted s.m = true →
    (s.phase.busy = true →
      ∀ i : Instr, decode (.u s.phase.code) = .ok i → step s = exec i s) ∧
    (s.phase.busy = false →
      ∀ (t : Txn) (rest : List Txn) (i : Instr), s.pending = t :: rest → decodeHost t = .ok i →
        step s = exec i { s with pending := rest }) ∧
    (s.phase.busy = false → s.pending = [] → step s = .next s) ∧
    (s.phase.busy = false →
      ∀ (t : Txn) (rest : List Txn), s.pending = t :: rest → t.kind = 0b11#2 →
        step s = .refused .reservedKind) ∧
    (s.phase.busy = true →
      step s = s.withEngine s.reply (s.toEngine.micro Arith.binary64))

/-- Rules R9, R247 and R251: an instance whose `M` is not admitted has no steps and no instruction
has a meaning in it; `M` is admitted when it is 0 or 2 to 255, and an engine is built from a raw
length exactly when that is `2^M` for such an `M`. That an instance that should not exist refuses
every step is the model's choice (log entry 21). -/
def Obligations.UnadmittedLengthsAreRefused : Prop :=
  (∀ m : Nat, Params.admitted m = true ↔ m = 0 ∨ 2 ≤ m ∧ m ≤ 255) ∧
  (∀ s : State, Params.admitted s.m = false →
    step s = .refused .badConfiguration ∧ ∀ i : Instr, exec i s = .refused .badConfiguration) ∧
  (∀ (n : Nat) (preload : Bool),
    (∀ m : Nat, n = 2 ^ m → (m = 0 ∨ 2 ≤ m ∧ m ≤ 255) →
      buildEngine Arith.binary64 n preload = .next (Engine.resetOf Arith.binary64 m preload 0)) ∧
    ((¬∃ m : Nat, n = 2 ^ m ∧ (m = 0 ∨ 2 ≤ m ∧ m ≤ 255)) →
      buildEngine Arith.binary64 n preload = .refused .badConfiguration))

/-! ## Invariant and progress -/

/-- What reset leaves, where the spec gives a value (rules R41, R280). -/
def Obligations.ResetStateIsAsSpecified : Prop :=
  ∀ (m : Nat) (preload : Bool),
    let s := State.ofReset m preload
    s.m = m ∧ s.preload = preload ∧ s.phase = .idle ∧ s.err = .none ∧
    s.sinv = preload ∧ s.brv = preload ∧
    (∀ a, s.x.read a = none ∧ s.y.read a = none) ∧
    (preload = true →
      (∀ i < Params.sineLen m, s.sintbl.read i = some (Sine.sinval m i)) ∧
      (∀ i < Params.len m, s.bitrev.read i = some (rev m i)))

/-- Every admitted instance meets the invariant at reset. -/
def Obligations.ResetMeetsTheInvariant : Prop :=
  ∀ (m : Nat) (preload : Bool), Params.admitted m = true → (State.ofReset m preload).Inv

/-- Every step keeps the invariant: canonical memories, the tables' contract contents whenever they
are valid (rules R126, R146), `ERR` non-zero exactly in `HALT` (rule R42), the counters in their
ranges (rule R209), the buffers populated throughout a transform (rule R174). -/
def Obligations.StepKeepsTheInvariant : Prop :=
  ∀ s t : State, s.Inv → step s = .next t → t.Inv

/-- Rules R245, R249 and R263: once a command has started no step faults, stops or is refused, and the
host sees nothing until it ends. -/
def Obligations.RunningCommandsNeverStop : Prop :=
  ∀ s : State, s.Inv → s.phase.busy = true →
    ∃ t : State, step s = .next t ∧ t.err = .none ∧ t.phase ≠ .halt ∧
      t.pending = s.pending ∧ t.reply = s.reply

/-- Every micro-operation of a running command brings its end exactly one step nearer, over any
number type (rule R300). -/
def Obligations.EveryMicroOperationCountsDown : Prop :=
  ∀ (α : Type) (A : Arith α) (e : Engine α), e.Inv A → e.phase.busy = true →
    ∃ e' : Engine α, e.micro A = .next e' ∧ e'.Inv A ∧ e'.remaining + 1 = e.remaining ∧
      (e'.remaining = 0 ↔ e'.phase = .idle)

/-- The number of micro-operations of each command (rule R300), over any number type: after exactly
that many, and not before, the engine is idle without a fault. -/
def Obligations.CommandsTakeTheirCountOfSteps : Prop :=
  ∀ (α : Type) (A : Arith α) (e e1 : Engine α) (n : Nat), e.Inv A → e.phase = .idle →
    (e1 = e.startMksin ∧ n = e.len + e.quarter ∨
      e1 = e.startMkbrev ∧ n = e.len ∨
      e.startXform .inv = .next e1 ∧ e1.phase = .perm ∧ n = 2 * e.len - 1 + e.m * e.len / 2 ∨
      e.startXform .fwd = .next e1 ∧ e1.phase = .perm ∧ n = 3 * e.len - 1 + e.m * e.len / 2) →
    (∃ e2 : Engine α, e1.run A n = .next e2 ∧ e2.phase = .idle ∧ e2.err = .none) ∧
    (∀ k < n, ∃ e2 : Engine α, e1.run A k = .next e2 ∧ e2.phase.busy = true)

/-! ## Commands -/

/-- `MKSIN` and `MKBREV` start their builds, valid tables or not, and change nothing else (rules R123,
R127, R141, R147). The reply is the model's own (log entry 27). -/
def Obligations.TableBuildsStart : Prop :=
  ∀ s : State, Params.admitted s.m = true → s.phase = .idle →
    exec .mksin s = .next { s with si := 0, phase := .sinb, reply := .nothing } ∧
    exec .mkbrev s = .next { s with bi := 0, bj := 0, phase := .brvb, reply := .nothing }

/-- Rule R162: with both tables valid and both buffers populated an `XFORM` starts, and changes
nothing else. -/
def Obligations.XformStartsWhenReady : Prop :=
  ∀ s : State, Params.admitted s.m = true → s.phase = .idle → s.sinv = true → s.brv = true →
    (∀ i < s.len, (∃ v, s.x.read i = some v) ∧ ∃ v, s.y.read i = some v) →
    (∃ t : State, exec .xformFwd s = .next t ∧ t.pending = s.pending ∧
      t.toEngine = { s.toEngine with dir := .fwd, i := 0, phase := .perm }) ∧
    (∃ t : State, exec .xformInv s = .next t ∧ t.pending = s.pending ∧
      t.toEngine = { s.toEngine with dir := .inv, i := 0, phase := .perm })

/-- Rule R243: before both tables are valid an `XFORM` raises `NOT_READY`, populated or not; with
`PRELOAD = 1` it never can. -/
def Obligations.XformBeforeTablesRaisesNotReady : Prop :=
  (∀ s : State, Params.admitted s.m = true → s.phase = .idle → (s.sinv = false ∨ s.brv = false) →
    (∃ t : State, exec .xformFwd s = .next t ∧ t.pending = s.pending ∧
      t.toEngine = { s.toEngine with err := .notReady, phase := .halt }) ∧
    (∃ t : State, exec .xformInv s = .next t ∧ t.pending = s.pending ∧
      t.toEngine = { s.toEngine with err := .notReady, phase := .halt })) ∧
  (∀ s : State, s.Inv → s.preload = true → s.sinv = true ∧ s.brv = true)

/-- Rules R161 and R251: an `XFORM` with valid tables while some element of a buffer holds no value is
refused. -/
def Obligations.XformOnUnpopulatedBufferIsRefused : Prop :=
  ∀ s : State, Params.admitted s.m = true → s.phase = .idle → s.sinv = true → s.brv = true →
    (∃ i < s.len, s.x.read i = none ∨ s.y.read i = none) →
    exec .xformFwd s = .refused .unpopulatedBuffer ∧
    exec .xformInv s = .refused .unpopulatedBuffer

/-! ## Micro-operations -/

/-- `SINW` (rules R124, R125): one entry written, every other element of every space unchanged; the
last one sets `SINV` and ends the command in the same step. -/
def Obligations.SinwWritesOneEntry : Prop :=
  ∀ s : State, Params.admitted s.m = true → s.phase = .sinb → s.si < s.sineLen →
    ∃ tbl : Cells F64,
      exec .sinw s = .next { s with
        sintbl := tbl
        si := s.si + 1
        sinv := if s.si + 1 = s.sineLen then true else s.sinv
        phase := if s.si + 1 = s.sineLen then .idle else .sinb } ∧
      ∀ a, tbl.read a = if a = s.si then some (Sine.sinval s.m s.si) else s.sintbl.read a

/-- `BRVS` (rules R142, R145): the accumulator is recorded; after the last entry the command ends
without an advance, otherwise the accumulator is incremented in reversed bit order. -/
def Obligations.BrvsRecordsAndAdvances : Prop :=
  ∀ s : State, Params.admitted s.m = true → s.phase = .brvb → s.bi < s.len →
    (s.bi + 1 = s.len →
      ∃ tbl : Cells Nat,
        exec .brvs s = .next { s with bitrev := tbl, brv := true, phase := .idle } ∧
        ∀ a, tbl.read a = if a = s.bi then some s.bj else s.bitrev.read a) ∧
    (s.bi + 1 < s.len → s.bj + 1 < s.len →
      ∃ (tbl : Cells Nat) (bk : Nat),
        brNext s.m s.bj = some (rev s.m (rev s.m s.bj + 1), bk) ∧
        exec .brvs s = .next { s with
          bitrev := tbl
          bj := rev s.m (rev s.m s.bj + 1)
          bk := bk
          bi := s.bi + 1 } ∧
        ∀ a, tbl.read a = if a = s.bi then some s.bj else s.bitrev.read a)

/-- Rules R143 and R149: `brnext(rev_M(i)) = rev_M(i+1)` below the last index; the loop body runs at most
`M-1` times (the loop is left `M` tests) and ends with a probe of at least 1. From the last
accumulator, all bits one, the loop never ends, however many tests it is left; so `BRVS` must not
advance after the last entry. -/
def Obligations.BrNextIsTheReversedIncrement : Prop :=
  (∀ m i : Nat, i + 1 < 2 ^ m →
    ∃ k : Nat, 1 ≤ k ∧
      brAdvance m (rev m i) (2 ^ m / 2) = some (rev m (i + 1), k) ∧
      brNext m (rev m i) = some (rev m (i + 1), k)) ∧
  (∀ m fuel : Nat, brAdvance fuel (2 ^ m - 1) (2 ^ m / 2) = none)

/-- `rev_M` is a self-inverse permutation with the fixed entries of rule R148. -/
def Obligations.BitReversalIsSelfInverse : Prop :=
  ∀ m i : Nat, i < 2 ^ m →
    rev m i < 2 ^ m ∧ rev m (rev m i) = i ∧ rev m 0 = 0 ∧ rev m (2 ^ m - 1) = 2 ^ m - 1 ∧
    (1 ≤ m → rev m 1 = 2 ^ m / 2) ∧
    ∀ t < m, (rev m i).testBit t = i.testBit (m - 1 - t)

/-- `PERM` (rules R165, R173): the pair is swapped through the staging registers when `i < t`, and
then the next index or the first stage; nothing else changes. The count of draws is the model's own
(log entry 25); an element without a value and an entry nothing has written are free values (log
entries 7, 8, 26). -/
def Obligations.PermSwapsWhenSmaller : Prop :=
  ∀ s : State, Params.admitted s.m = true → s.phase = .perm → s.i < s.len →
    let t := s.revAt s.i
    let xi := s.xAt Arith.binary64 0 s.i
    let xk := s.xAt Arith.binary64 1 t
    let yi := s.yAt Arith.binary64 2 s.i
    let yk := s.yAt Arith.binary64 3 t
    t < s.len ∧
    ∃ x' y' : Cells F64,
      let e : Engine F64 := { s.toEngine with
        x := x'
        y := y'
        rxi := if s.i < t then xi else s.rxi
        rxk := if s.i < t then xk else s.rxk
        ryi := if s.i < t then yi else s.ryi
        ryk := if s.i < t then yk else s.ryk
        i := s.i + 1
        draws := s.draws + 1 }
      exec .perm s = .next { s with
        toEngine := if s.i + 1 = s.len then e.enterStage 1 else e } ∧
      (∀ a, x'.read a =
        if s.i < t then
          if a = t then some xi else if a = s.i then some xk else s.x.read a
        else s.x.read a) ∧
      (∀ a, y'.read a =
        if s.i < t then
          if a = t then some yi else if a = s.i then some yk else s.y.read a
        else s.y.read a)

/-- `TWLD` (rule R167): loads the twiddle factor and changes nothing else. The count of draws is the
model's own (log entry 25); an entry nothing has written is a free value (log entry 8). -/
def Obligations.TwldLoadsTheTwiddleFactor : Prop :=
  ∀ s : State, Params.admitted s.m = true → s.phase = .twld → s.h + s.quarter < s.sineLen →
    exec .twld s = .next { s with
      rc := s.sinAt Arith.binary64 (s.h + s.quarter)
      rs :=
        if s.dir = .inv then Ieee.neg (s.sinAt Arith.binary64 s.h)
        else s.sinAt Arith.binary64 s.h
      i := s.j
      phase := .bfly
      draws := s.draws + 1 }

/-- Rules R130 and R209: in every state of the invariant `TWLD` reads inside the table and finds the
ROM values of its index; over exact reals they are the cosine and the sine of `2π·h/N`, the sine
negated for the inverse (rule R168). -/
def Obligations.TwiddleFactorIsTheRomPair : Prop :=
  (∀ s : State, s.Inv → s.phase = .twld →
    s.h < s.len / 2 ∧ s.h + s.quarter < s.sineLen ∧
    ∃ t : State, exec .twld s = .next t ∧ t.rc = Sine.sinval s.m (s.h + s.quarter) ∧
      t.rs = if s.dir = .inv then Ieee.neg (Sine.sinval s.m s.h) else Sine.sinval s.m s.h) ∧
  (∀ (draw : Nat → Nat → ℝ) (e : Engine ℝ), e.Inv (Arith.real draw) → e.phase = .twld →
    ∃ e' : Engine ℝ, e.micro (Arith.real draw) = .next e' ∧
      e'.rc = Real.cos (2 * Real.pi * e.h / e.len) ∧
      e'.rs = (if e.dir = .inv then -1 else 1) * Real.sin (2 * Real.pi * e.h / e.len))

/-- `BFLY` (rules R169, R170): all four old values are read before any is written, ten operations each
rounded once, and then the next butterfly, group or stage; nothing else changes. The count of draws
and the NaN of each operation are the model's free values (log entries 4, 7, 25), and `i` is advanced
past `N` after a group, against the bound of rule R209 (log entry 29). -/
def Obligations.BflyComputesOneButterfly : Prop :=
  ∀ s : State, Params.admitted s.m = true → s.phase = .bfly → s.i + s.k < s.len →
    let ik := s.i + s.k
    let nan := fun op => Ieee.nanOf (Config.freeNaN s.draws op)
    let xk := s.xAt Arith.binary64 0 ik
    let yk := s.yAt Arith.binary64 1 ik
    let xi := s.xAt Arith.binary64 2 s.i
    let yi := s.yAt Arith.binary64 3 s.i
    let dx := Ieee.add (nan 2) (Ieee.mul (nan 0) s.rs yk) (Ieee.mul (nan 1) s.rc xk)
    let dy := Ieee.sub (nan 5) (Ieee.mul (nan 3) s.rc yk) (Ieee.mul (nan 4) s.rs xk)
    ∃ x' y' : Cells F64,
      let e : Engine F64 := { s.toEngine with
        x := x'
        y := y'
        ik := ik
        rxk := xk
        ryk := yk
        rxi := xi
        ryi := yi
        rdx := dx
        rdy := dy
        i := s.i + s.k2
        draws := s.draws + 1 }
      exec .bfly s = .next { s with
        toEngine :=
          if s.i + s.k2 < s.len then e
          else if s.j + 1 < s.k then { e with h := s.h + s.d, j := s.j + 1, phase := .twld }
          else ({ e with h := s.h + s.d, j := s.j + 1 } : Engine F64).enterStage s.k2 } ∧
      (∀ a, x'.read a =
        if a = s.i then some (Ieee.add (nan 7) xi dx)
        else if a = ik then some (Ieee.sub (nan 6) xi dx)
        else s.x.read a) ∧
      (∀ a, y'.read a =
        if a = s.i then some (Ieee.add (nan 9) yi dy)
        else if a = ik then some (Ieee.sub (nan 8) yi dy)
        else s.y.read a)

/-- `NORM` (rule R171): divides one element of each buffer by `N` and changes nothing else. The
count of draws and the NaN are the model's free values (log entries 4, 7, 25). -/
def Obligations.NormDividesOneIndex : Prop :=
  ∀ s : State, Params.admitted s.m = true → s.phase = .norm → s.i < s.len →
    ∃ x' y' : Cells F64,
      exec .norm s = .next { s with
        x := x'
        y := y'
        i := s.i + 1
        phase := if s.i + 1 = s.len then .idle else .norm
        draws := s.draws + 1 } ∧
      (∀ a, x'.read a =
        if a = s.i then
          some (Ieee.divN s.m (Ieee.nanOf (Config.freeNaN s.draws 0)) (s.xAt Arith.binary64 0 s.i))
        else s.x.read a) ∧
      (∀ a, y'.read a =
        if a = s.i then
          some (Ieee.divN s.m (Ieee.nanOf (Config.freeNaN s.draws 1)) (s.yAt Arith.binary64 1 s.i))
        else s.y.read a)

/-- The rows of rule R173: each with its condition, its next phase and its counters; in every state of
the invariant in a busy phase of a transform exactly one row's condition holds; no transition leads
to `HALT`. -/
def Obligations.SequencerFollowsTheTransitionTable : Prop :=
  ∀ s t : State,
    (s.phase = .idle → s.Ready → exec .xformFwd s = .next t →
      t.phase = .perm ∧ t.dir = .fwd ∧ t.i = 0) ∧
    (s.phase = .idle → s.Ready → exec .xformInv s = .next t →
      t.phase = .perm ∧ t.dir = .inv ∧ t.i = 0) ∧
    (s.phase = .perm → exec .perm s = .next t → t.dir = s.dir ∧
      (s.i + 1 < s.len → t.phase = .perm ∧ t.i = s.i + 1) ∧
      (s.i + 1 = s.len → 1 < s.len →
        t.phase = .twld ∧ t.k = 1 ∧ t.k2 = 2 ∧ t.d = s.len / 2 ∧ t.j = 0 ∧ t.h = 0) ∧
      (s.i + 1 = s.len → s.len = 1 → s.dir = .fwd → t.phase = .norm ∧ t.k = 1 ∧ t.i = 0) ∧
      (s.i + 1 = s.len → s.len = 1 → s.dir = .inv → t.phase = .idle ∧ t.k = 1)) ∧
    (s.phase = .twld → exec .twld s = .next t →
      t.phase = .bfly ∧ t.i = s.j ∧ t.dir = s.dir ∧ t.k = s.k ∧ t.k2 = s.k2 ∧ t.d = s.d ∧
      t.j = s.j ∧ t.h = s.h) ∧
    (s.phase = .bfly → exec .bfly s = .next t → t.dir = s.dir ∧
      (s.i + s.k2 < s.len →
        t.phase = .bfly ∧ t.i = s.i + s.k2 ∧ t.j = s.j ∧ t.h = s.h ∧ t.k = s.k ∧ t.k2 = s.k2 ∧
        t.d = s.d) ∧
      (s.len ≤ s.i + s.k2 → s.j + 1 < s.k →
        t.phase = .twld ∧ t.i = s.i + s.k2 ∧ t.h = s.h + s.d ∧ t.j = s.j + 1 ∧ t.k = s.k ∧
        t.k2 = s.k2 ∧ t.d = s.d) ∧
      (s.len ≤ s.i + s.k2 → s.j + 1 = s.k → s.k2 < s.len →
        t.phase = .twld ∧ t.k = s.k2 ∧ t.k2 = 2 * s.k2 ∧ t.d = s.len / t.k2 ∧ t.j = 0 ∧
        t.h = 0) ∧
      (s.len ≤ s.i + s.k2 → s.j + 1 = s.k → s.k2 = s.len → s.dir = .fwd →
        t.phase = .norm ∧ t.k = s.len ∧ t.i = 0) ∧
      (s.len ≤ s.i + s.k2 → s.j + 1 = s.k → s.k2 = s.len → s.dir = .inv →
        t.phase = .idle ∧ t.k = s.len)) ∧
    (s.phase = .norm → exec .norm s = .next t →
      (s.i + 1 < s.len → t.phase = .norm ∧ t.i = s.i + 1) ∧
      (s.i + 1 = s.len → t.phase = .idle ∧ t.i = s.len)) ∧
    (s.Inv → (s.phase = .perm ∨ s.phase = .twld ∨ s.phase = .bfly ∨ s.phase = .norm) →
      s.transitionRows.count true = 1) ∧
    (s.phase.busy = true → step s = .next t → t.phase ≠ .halt)

/-! ## Host access -/

/-- `HRD` of a readable location, in `IDLE` and in `HALT` alike (rules R221, R225, R227, R228): the
stored value unchanged, or the word of the register; nothing else of the machine changes. -/
def Obligations.HrdReturnsReadableLocations : Prop :=
  ∀ (s : State) (n : BitVec 32), Params.admitted s.m = true →
    (s.phase = .idle ∨ s.phase = .halt) →
    exec (.hrd .csr 1#32) s = .next { s with reply := .ok (.word s.statusWord) } ∧
    exec (.hrd .csr 2#32) s = .next { s with reply := .ok (.word s.cfgWord) } ∧
    (∀ v, n.toNat < s.len → s.x.read n.toNat = some v →
      exec (.hrd .x n) s = .next { s with reply := .ok (.num v) }) ∧
    (∀ v, n.toNat < s.len → s.y.read n.toNat = some v →
      exec (.hrd .y n) s = .next { s with reply := .ok (.num v) }) ∧
    (n.toNat < s.sineLen → s.sinv = true →
      (∃ v, exec (.hrd .sintbl n) s = .next { s with reply := .ok (.num v) }) ∧
      ∀ v, s.sintbl.read n.toNat = some v →
        exec (.hrd .sintbl n) s = .next { s with reply := .ok (.num v) }) ∧
    (n.toNat < s.len → s.brv = true →
      (∃ w, exec (.hrd .bitrev n) s = .next { s with reply := .ok (.word w) }) ∧
      ∀ v, s.bitrev.read n.toNat = some v → v < s.len → v < 2 ^ 32 →
        exec (.hrd .bitrev n) s = .next { s with reply := .ok (.word (BitVec.ofNat 32 v)) })

/-- `HRD` of a location that rule R224 does not make readable: in `IDLE` it raises `BAD_ACCESS` and
returns `err`, in `HALT` it only returns `err` (rules R221, R224, R227, R246). -/
def Obligations.HrdOfUnreadableLocationIsABadAccess : Prop :=
  ∀ (s : State) (space : Space) (n : BitVec 32), Params.admitted s.m = true →
    (space = .csr ∧ n ≠ 1#32 ∧ n ≠ 2#32 ∨
      (space = .x ∨ space = .y) ∧ s.len ≤ n.toNat ∨
      space = .sintbl ∧ (s.sineLen ≤ n.toNat ∨ s.sinv = false) ∨
      space = .bitrev ∧ (s.len ≤ n.toNat ∨ s.brv = false) ∨
      space = .reserved5 ∨ space = .reserved6 ∨ space = .reserved7) →
    (s.phase = .idle →
      exec (.hrd space n) s =
        .next { s with err := .badAccess, phase := .halt, reply := .err }) ∧
    (s.phase = .halt → exec (.hrd space n) s = .next { s with reply := .err })

/-- Rule R226: `HRD` of a buffer element that holds no value is refused. -/
def Obligations.HrdOfUnwrittenElementIsRefused : Prop :=
  ∀ (s : State) (n : BitVec 32), Params.admitted s.m = true →
    (s.phase = .idle ∨ s.phase = .halt) → n.toNat < s.len →
    (s.x.read n.toNat = none → exec (.hrd .x n) s = .refused .unwrittenRead) ∧
    (s.y.read n.toNat = none → exec (.hrd .y n) s = .refused .unwrittenRead)

/-- Rule R66: an answered host read changes nothing of the engine, and the same read again returns the
same value. -/
def Obligations.HostReadsHaveNoSideEffect : Prop :=
  ∀ (s t : State) (space : Space) (n : BitVec 32), s.readable space n.toNat = true →
    exec (.hrd space n) s = .next t →
    t.toEngine = s.toEngine ∧ t.pending = s.pending ∧ exec (.hrd space n) t = .next t

/-- `HWR` to a buffer (rule R222): the element is stored bit for bit, every other element of every
space and everything else is unchanged. The reply is the model's own (log entry 27). -/
def Obligations.HwrStoresOneElement : Prop :=
  ∀ (s : State) (n : BitVec 32) (v : F64), Params.admitted s.m = true → s.phase = .idle →
    n.toNat < s.len →
    (∃ x' : Cells F64,
      exec (.hwr .x n (.num v)) s = .next { s with x := x', reply := .nothing } ∧
      ∀ a, x'.read a = if a = n.toNat then some v else s.x.read a) ∧
    (∃ y' : Cells F64,
      exec (.hwr .y n (.num v)) s = .next { s with y := y', reply := .nothing } ∧
      ∀ a, y'.read a = if a = n.toNat then some v else s.y.read a)

/-- Rules R102 and R222: writing a command's word to `CMD` is that command, in every state. -/
def Obligations.HwrOfCommandWordIsTheCommand : Prop :=
  ∀ (s : State) (c : Command),
    exec (.hwr .csr 0#32 (.word (encodeCommand c))) s = exec c.instr s

/-- Rule R242: a word written to `CMD` in `IDLE` that is no command raises `ILLEGAL_CMD` and starts
nothing. -/
def Obligations.IllegalCommandWordFaults : Prop :=
  ∀ (s : State) (w : Word), Params.admitted s.m = true → s.phase = .idle →
    w ≠ 2#32 → w ≠ 4#32 → w ≠ 6#32 → w ≠ 7#32 →
    ∃ t : State, exec (.hwr .csr 0#32 (.word w)) s = .next t ∧ t.pending = s.pending ∧
      t.toEngine = { s.toEngine with err := .illegalCmd, phase := .halt }

/-- Rules R224 and R246: `HWR` to a location that is not writable raises `BAD_ACCESS` and changes
nothing else, whatever the data. The reply is the model's own (log entry 27). -/
def Obligations.HwrToUnwritableLocationIsABadAccess : Prop :=
  ∀ (s : State) (space : Space) (n : BitVec 32) (data : Datum), Params.admitted s.m = true →
    s.phase = .idle →
    (space = .csr ∧ n ≠ 0#32 ∨
      (space = .x ∨ space = .y) ∧ s.len ≤ n.toNat ∨
      space = .sintbl ∨ space = .bitrev ∨
      space = .reserved5 ∨ space = .reserved6 ∨ space = .reserved7) →
    exec (.hwr space n data) s =
      .next { s with err := .badAccess, phase := .halt, reply := .nothing }

/-- Rule R227: in `HALT` a write of any kind is ignored, and so is every command. The reply is the
model's own (log entry 27). -/
def Obligations.HaltIgnoresWritesAndCommands : Prop :=
  ∀ (s : State) (space : Space) (n : BitVec 32) (data : Datum) (c : Command),
    Params.admitted s.m = true → s.phase = .halt →
    exec (.hwr space n data) s = .next { s with reply := .nothing } ∧
    exec c.instr s = .next { s with reply := .nothing }

/-- Rules R253 and R227: in `HALT` no step changes the engine, unless it takes a `RESET`. -/
def Obligations.OnlyResetLeavesHalt : Prop :=
  ∀ s t : State, s.phase = .halt → step s = .next t →
    t.toEngine = s.toEngine ∨
    ∃ (txn : Txn) (rest : List Txn), s.pending = txn :: rest ∧ decodeHost txn = .ok .reset ∧
      t.phase = .idle ∧ t.err = .none

/-- `RESET` (rules R280, R281): in `IDLE` and in `HALT`, what the spec gives a value after reset has
it, the parameters stay, and the host's remaining transactions stay (they and the reply are the
model's own, log entries 10 and 27). -/
def Obligations.ResetRestoresTheResetState : Prop :=
  ∀ s : State, Params.admitted s.m = true → (s.phase = .idle ∨ s.phase = .halt) →
    ∃ t : State, exec .reset s = .next t ∧
      t.err = .none ∧ t.phase = .idle ∧ t.sinv = s.preload ∧ t.brv = s.preload ∧
      t.m = s.m ∧ t.preload = s.preload ∧ t.cfgWord = s.cfgWord ∧
      t.pending = s.pending ∧ t.reply = .nothing ∧
      (∀ a, t.x.read a = none ∧ t.y.read a = none) ∧
      (s.preload = true →
        (∀ i < s.sineLen, t.sintbl.read i = some (Sine.sinval s.m i)) ∧
        (∀ i < s.len, t.bitrev.read i = some (rev s.m i))) ∧
      (s.preload = false → ∀ a, t.sintbl.read a = none ∧ t.bitrev.read a = none)

/-- Rules R70 and R223: while a command executes no host transaction is admitted, and the step leaves
the host's transactions where they are. The refusal's name, the list and the reply are the model's
own (log entries 10 and 13). -/
def Obligations.HostHasNoMoveWhileBusy : Prop :=
  (∀ (s : State) (space : Space) (n : BitVec 32) (data : Datum) (c : Command),
    Params.admitted s.m = true → s.phase.busy = true →
    exec (.hrd space n) s = .refused .hostHasNoMove ∧
    exec (.hwr space n data) s = .refused .hostHasNoMove ∧
    exec .reset s = .refused .hostHasNoMove ∧
    exec c.instr s = .refused .hostHasNoMove) ∧
  (∀ s t : State, s.phase.busy = true → step s = .next t →
    t.pending = s.pending ∧ t.reply = s.reply)

/-! ## Whole-machine rules -/

/-- Rules R244, R245 and R263: a step that raises a fault starts in `IDLE`, takes a host transaction,
ends in `HALT`, and changes nothing of the engine but `ERR` and `PHASE`; in every other phase no step
records a fault. -/
def Obligations.FaultsAreRaisedFromIdleAndPrecise : Prop :=
  ∀ s t : State, step s = .next t →
    (s.err = .none → t.err ≠ .none →
      s.phase = .idle ∧ t.phase = .halt ∧
      t.toEngine = { s.toEngine with err := t.err, phase := .halt } ∧
      ∃ txn : Txn, s.pending = txn :: t.pending) ∧
    (s.phase ≠ .idle → t.err = s.err ∨ t.err = .none)

/-- The `STATUS` word (rule R27) and the `CFG` word (rule R32), bit by bit. -/
def Obligations.StatusAndCfgWordLayout : Prop :=
  ∀ s : State,
    s.statusWord.getLsbD 0 = s.sinv ∧ s.statusWord.getLsbD 1 = s.brv ∧
    (s.statusWord.extractLsb 4 2).toNat =
      (match s.err with
        | .none => 0
        | .illegalCmd => 1
        | .notReady => 2
        | .badAccess => 3) ∧
    (∀ b, 5 ≤ b → s.statusWord.getLsbD b = false) ∧
    (Params.admitted s.m = true → (s.cfgWord.extractLsb 7 0).toNat = s.m) ∧
    s.cfgWord.getLsbD 8 = s.preload ∧
    (∀ b, 9 ≤ b → s.cfgWord.getLsbD b = false)

/-- Rules R8 and R32: no instruction changes the parameters of the instance, `RESET` included, so
`CFG` reads the same for ever. -/
def Obligations.ParametersNeverChange : Prop :=
  ∀ (i : Instr) (s t : State), exec i s = .next t →
    t.m = s.m ∧ t.preload = s.preload ∧ t.cfgWord = s.cfgWord

/-- Rule R62: who writes which space. -/
def Obligations.SpacesAreWrittenByTheirOwnersOnly : Prop :=
  ∀ (i : Instr) (s t : State), exec i s = .next t →
    (i ≠ .sinw → i ≠ .reset → t.sintbl = s.sintbl) ∧
    (i ≠ .brvs → i ≠ .reset → t.bitrev = s.bitrev) ∧
    (i ≠ .perm → i ≠ .bfly → i ≠ .norm → i ≠ .reset →
      ((∀ n d, i ≠ .hwr .x n d) → t.x = s.x) ∧ ((∀ n d, i ≠ .hwr .y n d) → t.y = s.y))

/-- Rule R285: once valid, the tables stay valid and keep their contents until the next reset. -/
def Obligations.ValidTablesStayUntilReset : Prop :=
  ∀ (i : Instr) (s t : State), s.Inv → exec i s = .next t → i ≠ .reset →
    (s.sinv = true → t.sinv = true ∧ ∀ n < s.sineLen, t.sintbl.read n = s.sintbl.read n) ∧
    (s.brv = true → t.brv = true ∧ ∀ n < s.len, t.bitrev.read n = s.bitrev.read n)

/-! ## The sine table -/

/-- Rule R128: the exact entries and the symmetries of `SINVAL`, over binary64 and over exact
reals. -/
def Obligations.SineExactEntriesAndSymmetries : Prop :=
  (∀ m : Nat, 2 ≤ m →
    Sine.sinval m 0 = 0#64 ∧
    Sine.sinval m (2 ^ m / 4) = 0x3FF0000000000000#64 ∧
    Sine.sinval m (2 ^ m / 2) = 0#64 ∧
    Sine.sinval m (3 * 2 ^ m / 4) = 0xBFF0000000000000#64 ∧
    Sine.sinval m (2 ^ m) = 0#64 ∧
    (∀ i ≤ 2 ^ m / 2, Sine.sinval m (2 ^ m / 2 - i) = Sine.sinval m i) ∧
    (∀ i, 0 < i → i < 2 ^ m / 2 → i + 2 ^ m / 2 < Params.sineLen m →
      Sine.sinval m (i + 2 ^ m / 2) = Ieee.neg (Sine.sinval m i)) ∧
    (∀ i < Params.quarter m, Sine.sinval m (i + 2 ^ m) = Sine.sinval m i)) ∧
  Sine.sinval 0 0 = 0#64 ∧
  (∀ (draw : Nat → Nat → ℝ) (m : Nat), 2 ≤ m →
    let sinval := (Arith.real draw).sinval
    sinval m 0 = 0 ∧ sinval m (2 ^ m / 4) = 1 ∧ sinval m (2 ^ m / 2) = 0 ∧
    sinval m (3 * 2 ^ m / 4) = -1 ∧ sinval m (2 ^ m) = 0 ∧
    (∀ i ≤ 2 ^ m / 2, sinval m (2 ^ m / 2 - i) = sinval m i) ∧
    (∀ i, 0 < i → i < 2 ^ m / 2 → sinval m (i + 2 ^ m / 2) = -sinval m i) ∧
    (∀ i < Params.quarter m, sinval m (i + 2 ^ m) = sinval m i) ∧
    sinval 0 0 = 0)

/-- Rule R122 for the instances with `M` = 0, 2, 3 and 4: every entry of the twiddle ROM is the exact
sine rounded once. -/
def Obligations.SmallSineTablesAreCorrectlyRounded : Prop :=
  ∀ m : Nat, m = 0 ∨ m = 2 ∨ m = 3 ∨ m = 4 → ∀ i < Params.sineLen m,
    Ieee.RoundedTo (Real.sin (2 * Real.pi * i / (2 ^ m : ℝ))) (Sine.sinval m i)

/-! ## Arithmetic -/

/-- Rule R10, `add` and `sub`: on finite operands the result is the exact sum or difference rounded
once, to nearest, ties to even. -/
def Obligations.AdditionRoundsOnce : Prop :=
  ∀ q a b : F64, Ieee.isFinite a = true → Ieee.isFinite b = true →
    Ieee.RoundedTo ((Ieee.value a : ℝ) + (Ieee.value b : ℝ)) (Ieee.add q a b) ∧
    Ieee.RoundedTo ((Ieee.value a : ℝ) - (Ieee.value b : ℝ)) (Ieee.sub q a b)

/-- Rule R10, `mul`: on finite operands the result is the exact product rounded once. -/
def Obligations.MultiplicationRoundsOnce : Prop :=
  ∀ q a b : F64, Ieee.isFinite a = true → Ieee.isFinite b = true →
    Ieee.RoundedTo ((Ieee.value a : ℝ) * (Ieee.value b : ℝ)) (Ieee.mul q a b)

/-- Rules R10 and R172, `divN`: on a finite operand the result is the exact quotient by `N` rounded
once; `neg` flips the sign bit and nothing else, of every pattern. -/
def Obligations.DivisionRoundsOnceAndNegationIsExact : Prop :=
  (∀ (m : Nat) (q a : F64), Ieee.isFinite a = true →
    Ieee.RoundedTo ((Ieee.value a : ℝ) / 2 ^ m) (Ieee.divN m q a)) ∧
  (∀ a : F64, (Ieee.neg a).msb = !a.msb ∧ (Ieee.neg a).setWidth 63 = a.setWidth 63 ∧
    Ieee.neg (Ieee.neg a) = a)

/-- Rules R11 and R177: signs of zero sums and differences and of products and quotients, infinities as
either operand of `add`, `sub` and `mul` and of `divN`, and when a result is a NaN; the NaN is the
drawn one, every drawn one is a NaN and every NaN can be drawn. -/
def Obligations.ExceptionalValuesFollowIeee : Prop :=
  (∀ q a b : F64,
    (Ieee.isNaN a = true ∨ Ieee.isNaN b = true →
      Ieee.add q a b = q ∧ Ieee.sub q a b = q ∧ Ieee.mul q a b = q ∧
      (Ieee.isNaN a = true → ∀ m, Ieee.divN m q a = q)) ∧
    (Ieee.isInf a = true → Ieee.isInf b = true →
      Ieee.add q a b = (if Ieee.negative a = Ieee.negative b then a else q) ∧
      Ieee.sub q a b = (if Ieee.negative a = Ieee.negative b then q else a)) ∧
    (Ieee.isInf a = true → Ieee.isFinite b = true →
      Ieee.add q a b = a ∧ Ieee.add q b a = a ∧
      Ieee.sub q a b = a ∧ Ieee.sub q b a = Ieee.neg a ∧ ∀ m, Ieee.divN m q a = a) ∧
    (Ieee.isInf a = true → Ieee.isFinite b = true → Ieee.value b = 0 →
      Ieee.mul q a b = q ∧ Ieee.mul q b a = q) ∧
    (Ieee.isInf a = true → Ieee.isNaN b = false → (Ieee.isFinite b = true → Ieee.value b ≠ 0) →
      Ieee.isInf (Ieee.mul q a b) = true ∧ Ieee.isInf (Ieee.mul q b a) = true ∧
      Ieee.negative (Ieee.mul q a b) = (Ieee.negative a != Ieee.negative b) ∧
      Ieee.negative (Ieee.mul q b a) = (Ieee.negative a != Ieee.negative b)) ∧
    (Ieee.isFinite a = true → Ieee.isFinite b = true →
      Ieee.negative (Ieee.mul q a b) = (Ieee.negative a != Ieee.negative b) ∧
      (Ieee.value a + Ieee.value b = 0 →
        Ieee.negative (Ieee.add q a b) = (Ieee.negative a && Ieee.negative b)) ∧
      (Ieee.value a - Ieee.value b = 0 →
        Ieee.negative (Ieee.sub q a b) = (Ieee.negative a && !Ieee.negative b)) ∧
      ∀ m, Ieee.negative (Ieee.divN m q a) = Ieee.negative a)) ∧
  (∀ bits : BitVec 64, Ieee.isNaN (Ieee.nanOf bits) = true) ∧
  (∀ v : F64, Ieee.isNaN v = true → Ieee.nanOf v = v)

/-- Rule R177: a NaN in the odd sample makes all four outputs of a butterfly NaN; a NaN in `XI` makes
the two `X` outputs NaN and leaves the two `Y` outputs as they are without it, and the other way
round for `YI`. -/
def Obligations.NanSpreadsThroughAButterfly : Prop :=
  ∀ (nan : Nat → F64) (c s xi xk yi yk : F64), (∀ n, Ieee.isNaN (nan n) = true) →
    let b := butterfly Arith.binary64 nan c s xi xk yi yk
    (Ieee.isNaN xk = true ∨ Ieee.isNaN yk = true →
      Ieee.isNaN b.xi = true ∧ Ieee.isNaN b.xk = true ∧
      Ieee.isNaN b.yi = true ∧ Ieee.isNaN b.yk = true) ∧
    (Ieee.isNaN xi = true →
      Ieee.isNaN b.xi = true ∧ Ieee.isNaN b.xk = true ∧
      ∀ xi', (butterfly Arith.binary64 nan c s xi' xk yi yk).yi = b.yi ∧
        (butterfly Arith.binary64 nan c s xi' xk yi yk).yk = b.yk) ∧
    (Ieee.isNaN yi = true →
      Ieee.isNaN b.yi = true ∧ Ieee.isNaN b.yk = true ∧
      ∀ yi', (butterfly Arith.binary64 nan c s xi xk yi' yk).xi = b.xi ∧
        (butterfly Arith.binary64 nan c s xi xk yi' yk).xk = b.xk)

/-! ## Whole commands -/

/-- `MKSIN` run to its end is its big step (rules R70, R123): the table holds `SINVAL`, nothing else
the host can see has changed; a rebuild writes the same table (rule R127). -/
def Obligations.MksinBuildsTheSineTable : Prop :=
  ∀ (α : Type) (A : Arith α) (e : Engine α), e.Inv A → e.phase = .idle →
    ∃ e' : Engine α, e.startMksin.run A e.sineLen = .next e' ∧
      e'.SameVisible (e.bigMksin A) ∧ e'.phase = .idle ∧ e'.sinv = true ∧
      (∀ i < e.sineLen, e'.sintbl.read i = some (A.sinval e.m i)) ∧
      e'.x = e.x ∧ e'.y = e.y ∧ e'.bitrev = e.bitrev ∧ e'.brv = e.brv ∧ e'.err = e.err ∧
      (e.sinv = true → e'.sintbl = e.sintbl)

/-- `MKBREV` run to its end is its big step (rules R70, R141): the table holds `rev_M`, nothing else
the host can see has changed; a rebuild writes the same table (rule R147). -/
def Obligations.MkbrevBuildsTheBitReversalTable : Prop :=
  ∀ (α : Type) (A : Arith α) (e : Engine α), e.Inv A → e.phase = .idle →
    ∃ e' : Engine α, e.startMkbrev.run A e.len = .next e' ∧
      e'.SameVisible e.bigMkbrev ∧ e'.phase = .idle ∧ e'.brv = true ∧
      (∀ i < e.len, e'.bitrev.read i = some (rev e.m i)) ∧
      e'.x = e.x ∧ e'.y = e.y ∧ e'.sintbl = e.sintbl ∧ e'.sinv = e.sinv ∧ e'.err = e.err ∧
      (e.brv = true → e'.bitrev = e.bitrev)

/-- An `XFORM` run micro-operation by micro-operation to its end is its big step: permute, butterfly
stages, normalisation, over any number type, bit for bit (rules R70, R160, R173, R201). -/
def Obligations.TransformSmallStepIsBigStep : Prop :=
  ∀ (α : Type) (A : Arith α) (e : Engine α) (dir : Direction), e.Inv A → e.phase = .idle →
    e.Ready →
    ∃ e1 e2 : Engine α, e.startXform dir = .next e1 ∧ e1.run A e1.remaining = .next e2 ∧
      e2.SameVisible (e.bigXform A dir)

/-- Rule R163: the permute phase moves the element of index `rev_M(i)` to index `i`, whatever the
values. -/
def Obligations.PermuteReordersByBitReversal : Prop :=
  ∀ (α : Type) (A : Arith α) (e : Engine α), e.RevBuilt e.len → e.populated = true →
    ∀ i < e.len,
      (e.bigPermute A).x.read i = e.x.read (rev e.m i) ∧
      (e.bigPermute A).y.read i = e.y.read (rev e.m i)

/-- Rule R175: with `M = 0` both directions leave the sample as it is; the inverse moves it bit for
bit, and so does the forward direction for every value but a NaN. -/
def Obligations.LengthOneTransformIsTheIdentity : Prop :=
  ∀ (e : Engine F64) (vx vy : F64), e.Inv Arith.binary64 → e.m = 0 → e.phase = .idle →
    e.sinv = true → e.brv = true → e.x.read 0 = some vx → e.y.read 0 = some vy →
    (∃ e1 e2 : Engine F64, e.startXform .inv = .next e1 ∧ e1.run Arith.binary64 1 = .next e2 ∧
      e2.phase = .idle ∧ e2.x.read 0 = some vx ∧ e2.y.read 0 = some vy) ∧
    (∃ e1 e2 : Engine F64, e.startXform .fwd = .next e1 ∧ e1.run Arith.binary64 2 = .next e2 ∧
      e2.phase = .idle ∧
      (Ieee.isNaN vx = false → e2.x.read 0 = some vx) ∧
      (Ieee.isNaN vy = false → e2.y.read 0 = some vy))

/-- Rule R205 over exact reals: `XFORM FWD` replaces the buffers by their discrete Fourier transform
divided by `N`. -/
def Obligations.ForwardTransformIsTheDft : Prop :=
  ∀ (draw : Nat → Nat → ℝ) (e : Engine ℝ), e.Inv (Arith.real draw) → e.phase = .idle → e.Ready →
    ∃ e1 e2 : Engine ℝ, e.startXform .fwd = .next e1 ∧
      e1.run (Arith.real draw) e1.remaining = .next e2 ∧
      e2.phase = .idle ∧ e2.err = .none ∧ e2.populated = true ∧
      ∀ m < e.len, e2.signal m = (1 / (e.len : ℂ)) * dftSum (-1) e.len e.signal m

/-- Rule R205 over exact reals: `XFORM INV` replaces the buffers by their unnormalised inverse
transform. -/
def Obligations.InverseTransformIsTheInverseDft : Prop :=
  ∀ (draw : Nat → Nat → ℝ) (e : Engine ℝ), e.Inv (Arith.real draw) → e.phase = .idle → e.Ready →
    ∃ e1 e2 : Engine ℝ, e.startXform .inv = .next e1 ∧
      e1.run (Arith.real draw) e1.remaining = .next e2 ∧
      e2.phase = .idle ∧ e2.err = .none ∧ e2.populated = true ∧
      ∀ m < e.len, e2.signal m = dftSum 1 e.len e.signal m

/-- Rules R176 and R206 over exact reals: a transform in one direction and then in the other restores
both buffers, in either order. -/
def Obligations.RoundTripRestoresTheBuffers : Prop :=
  ∀ (draw : Nat → Nat → ℝ) (e : Engine ℝ) (first second : Direction), first ≠ second →
    e.Inv (Arith.real draw) → e.phase = .idle → e.Ready →
    ∃ e1 e2 e3 e4 : Engine ℝ,
      e.startXform first = .next e1 ∧ e1.run (Arith.real draw) e1.remaining = .next e2 ∧
      e2.startXform second = .next e3 ∧ e3.run (Arith.real draw) e3.remaining = .next e4 ∧
      e4.phase = .idle ∧ e4.x = e.x ∧ e4.y = e.y

/-- Rule R207 over exact reals, for both directions: the transform of `a·(x1, y1) + (x2, y2)` is `a`
times the transform of `(x1, y1)` plus that of `(x2, y2)`. -/
def Obligations.TransformsAreLinear : Prop :=
  ∀ (draw : Nat → Nat → ℝ) (a : ℝ) (dir : Direction) (e f g : Engine ℝ),
    e.Inv (Arith.real draw) → f.Inv (Arith.real draw) → g.Inv (Arith.real draw) →
    e.phase = .idle → f.phase = .idle → g.phase = .idle → e.Ready → f.Ready → g.Ready →
    f.m = e.m → g.m = e.m → (∀ n < e.len, g.signal n = a * e.signal n + f.signal n) →
    ∃ e1 e2 f1 f2 g1 g2 : Engine ℝ,
      e.startXform dir = .next e1 ∧ e1.run (Arith.real draw) e1.remaining = .next e2 ∧
      f.startXform dir = .next f1 ∧ f1.run (Arith.real draw) f1.remaining = .next f2 ∧
      g.startXform dir = .next g1 ∧ g1.run (Arith.real draw) g1.remaining = .next g2 ∧
      e2.phase = .idle ∧ f2.phase = .idle ∧ g2.phase = .idle ∧
      ∀ n < e.len, g2.signal n = a * e2.signal n + f2.signal n
end

