-- ==== Sys2Proof/Laws/Cells.lean ====
section
/-! SUPPORT. Reads, writes and the canonical form of the data spaces. -/

namespace Sys2Proof.Machine

variable {α : Type}

@[simp] theorem Cells.read_nil (a : Nat) : Cells.read ([] : Cells α) a = none := rfl

@[simp] theorem Cells.read_write_same (c : Cells α) (a : Nat) (v : α) :
    (c.write a v).read a = some v := by
  induction c with
  | nil => simp [Cells.write, Cells.read]
  | cons p rest ih =>
    obtain ⟨b, w⟩ := p
    by_cases h1 : a < b
    · simp [Cells.write, Cells.read, h1]
    · by_cases h2 : a = b <;> simp [Cells.write, Cells.read, h1, h2, ih]

theorem Cells.read_write_other (c : Cells α) {a b : Nat} (v : α) (h : b ≠ a) :
    (c.write a v).read b = c.read b := by
  induction c with
  | nil => simp [Cells.write, Cells.read, h]
  | cons p rest ih =>
    obtain ⟨b', w⟩ := p
    by_cases h1 : a < b'
    · simp [Cells.write, Cells.read, h1, h]
    · by_cases h2 : a = b'
      · subst h2; simp [Cells.write, Cells.read, h]
      · simp [Cells.write, Cells.read, h1, h2, ih]

/-- Everything a write does to later reads. -/
theorem Cells.read_write (c : Cells α) (a b : Nat) (v : α) :
    (c.write a v).read b = if b = a then some v else c.read b := by
  split
  · next h => subst h; simp
  · next h => exact Cells.read_write_other c v h

theorem Cells.mem_write {c : Cells α} {a : Nat} {v : α} {p : Nat × α} (h : p ∈ c.write a v) :
    p = (a, v) ∨ p ∈ c := by
  induction c with
  | nil => simpa [Cells.write] using h
  | cons q rest ih =>
    obtain ⟨b, w⟩ := q
    simp only [Cells.write] at h
    split at h
    · simpa using h
    · split at h
      · rcases List.mem_cons.1 h with h | h
        · exact .inl h
        · exact .inr (List.mem_cons_of_mem _ h)
      · rcases List.mem_cons.1 h with h | h
        · exact .inr (by simp [h])
        · rcases ih h with h | h
          · exact .inl h
          · exact .inr (List.mem_cons_of_mem _ h)

/-- A write inside the space keeps the canonical form. -/
theorem Cells.write_wf {n : Nat} {c : Cells α} {a : Nat} (v : α) (hc : c.wf n) (ha : a < n) :
    (c.write a v).wf n := by
  obtain ⟨hs, hb⟩ := hc
  constructor
  · clear hb
    induction c with
    | nil => simp [Cells.write]
    | cons q rest ih =>
      obtain ⟨b, w⟩ := q
      have hs' := List.pairwise_cons.1 hs
      simp only [Cells.write]
      split
      · next h1 =>
        refine List.pairwise_cons.2 ⟨fun p hp => ?_, hs⟩
        rcases List.mem_cons.1 hp with rfl | hp
        · exact h1
        · exact h1.trans (hs'.1 p hp)
      · split
        · next h1 h2 => subst h2; exact List.pairwise_cons.2 hs'
        · next h1 h2 =>
          refine List.pairwise_cons.2 ⟨fun p hp => ?_, ih hs'.2⟩
          rcases Cells.mem_write hp with rfl | hp
          · show b < a
            omega
          · exact hs'.1 p hp
  · intro p hp
    rcases Cells.mem_write hp with rfl | hp
    · exact ha
    · exact hb p hp

theorem Cells.nil_wf (n : Nat) : Cells.wf n ([] : Cells α) := by simp [Cells.wf]

theorem Cells.ofFn_wf (n : Nat) (f : Nat → α) : (Cells.ofFn n f).wf n := by
  constructor
  · simp only [Cells.ofFn, List.pairwise_map]
    exact List.pairwise_lt_range
  · intro c hc
    simp only [Cells.ofFn, List.mem_map, List.mem_range] at hc
    obtain ⟨i, hi, rfl⟩ := hc
    exact hi

theorem Cells.read_map_of_mem (l : List Nat) (f : Nat → α) {i : Nat} (h : i ∈ l) :
    Cells.read (l.map fun i => (i, f i)) i = some (f i) := by
  induction l with
  | nil => simp at h
  | cons a rest ih =>
    by_cases h2 : i = a
    · simp [Cells.read, h2]
    · simp only [List.map_cons, Cells.read, if_neg h2]
      exact ih (by simpa [h2] using h)

theorem Cells.read_ofFn {n i : Nat} (f : Nat → α) (h : i < n) :
    (Cells.ofFn n f).read i = some (f i) :=
  Cells.read_map_of_mem _ f (List.mem_range.2 h)

theorem Cells.populated_iff {n : Nat} {c : Cells α} :
    c.populated n = true ↔ ∀ i < n, ∃ v, c.read i = some v := by
  simp [Cells.populated, Option.isSome_iff_exists]

/-- A write keeps every element that holds a value holding one. -/
theorem Cells.populated_write {n : Nat} {c : Cells α} (a : Nat) (v : α)
    (h : c.populated n = true) : (c.write a v).populated n = true := by
  rw [Cells.populated_iff] at h ⊢
  intro i hi
  rw [Cells.read_write]
  split
  · exact ⟨v, rfl⟩
  · exact h i hi

/-- Two spaces in canonical form that read alike are the same data. -/
theorem Cells.ext_of_read {n m : Nat} {c c' : Cells α} (hc : c.wf n) (hc' : c'.wf m)
    (h : ∀ a, c.read a = c'.read a) : c = c' := by
  have none_of_lt : ∀ (l : Cells α) (a : Nat), (∀ p ∈ l, a < p.1) → l.read a = none := by
    intro l a hl
    induction l with
    | nil => rfl
    | cons p rest ih =>
      have h1 := hl p (by simp)
      simp only [Cells.read, if_neg (Nat.ne_of_lt h1)]
      exact ih fun q hq => hl q (List.mem_cons_of_mem _ hq)
  obtain ⟨hs, -⟩ := hc
  obtain ⟨hs', -⟩ := hc'
  induction c generalizing c' with
  | nil =>
    cases c' with
    | nil => rfl
    | cons q rest => have := h q.1; simp [Cells.read] at this
  | cons p rest ih =>
    cases c' with
    | nil => have := h p.1; simp [Cells.read] at this
    | cons q rest' =>
      have hp := List.pairwise_cons.1 hs
      have hq := List.pairwise_cons.1 hs'
      have key : p.1 = q.1 := by
        rcases Nat.lt_trichotomy p.1 q.1 with hlt | heq | hgt
        · have h1 := h p.1
          simp only [Cells.read, if_true, if_neg (Nat.ne_of_lt hlt)] at h1
          rw [none_of_lt rest' p.1 fun r hr => hlt.trans (hq.1 r hr)] at h1
          simp at h1
        · exact heq
        · have h1 := h q.1
          simp only [Cells.read, if_true, if_neg (Nat.ne_of_lt hgt)] at h1
          rw [none_of_lt rest q.1 fun r hr => hgt.trans (hp.1 r hr)] at h1
          simp at h1
      have val : p.2 = q.2 := by
        have h1 := h p.1
        simpa [Cells.read, key] using h1
      have tail : rest = rest' := by
        apply ih _ hp.2 hq.2
        intro a
        have h1 := h a
        by_cases ha : a = p.1
        · subst ha
          rw [none_of_lt rest _ hp.1, none_of_lt rest' _ (key ▸ hq.1)]
        · simpa [Cells.read, ha, key ▸ ha] using h1
      rw [tail, Prod.ext key val]

end Sys2Proof.Machine
end

