-- ==== Sys2Proof/Laws/State.lean ====
section
/-! SUPPORT. The state updates of the machine, field by field: what each named update leaves alone
and what it writes, so that no proof unfolds a record update. -/

namespace Sys2Proof.Machine

variable {α : Type} (A : Arith α) (e : Engine α)

/-! ## `raise` -/

@[simp] theorem Engine.raise_m (c : ErrCode) : (e.raise c).m = e.m := rfl
@[simp] theorem Engine.raise_preload (c : ErrCode) : (e.raise c).preload = e.preload := rfl
@[simp] theorem Engine.raise_x (c : ErrCode) : (e.raise c).x = e.x := rfl
@[simp] theorem Engine.raise_y (c : ErrCode) : (e.raise c).y = e.y := rfl
@[simp] theorem Engine.raise_sintbl (c : ErrCode) : (e.raise c).sintbl = e.sintbl := rfl
@[simp] theorem Engine.raise_bitrev (c : ErrCode) : (e.raise c).bitrev = e.bitrev := rfl
@[simp] theorem Engine.raise_sinv (c : ErrCode) : (e.raise c).sinv = e.sinv := rfl
@[simp] theorem Engine.raise_brv (c : ErrCode) : (e.raise c).brv = e.brv := rfl
@[simp] theorem Engine.raise_err (c : ErrCode) : (e.raise c).err = c := rfl
@[simp] theorem Engine.raise_phase (c : ErrCode) : (e.raise c).phase = .halt := rfl
@[simp] theorem Engine.raise_dir (c : ErrCode) : (e.raise c).dir = e.dir := rfl
@[simp] theorem Engine.raise_i (c : ErrCode) : (e.raise c).i = e.i := rfl
@[simp] theorem Engine.raise_j (c : ErrCode) : (e.raise c).j = e.j := rfl
@[simp] theorem Engine.raise_k (c : ErrCode) : (e.raise c).k = e.k := rfl
@[simp] theorem Engine.raise_k2 (c : ErrCode) : (e.raise c).k2 = e.k2 := rfl
@[simp] theorem Engine.raise_d (c : ErrCode) : (e.raise c).d = e.d := rfl
@[simp] theorem Engine.raise_h (c : ErrCode) : (e.raise c).h = e.h := rfl
@[simp] theorem Engine.raise_ik (c : ErrCode) : (e.raise c).ik = e.ik := rfl
@[simp] theorem Engine.raise_si (c : ErrCode) : (e.raise c).si = e.si := rfl
@[simp] theorem Engine.raise_bi (c : ErrCode) : (e.raise c).bi = e.bi := rfl
@[simp] theorem Engine.raise_bj (c : ErrCode) : (e.raise c).bj = e.bj := rfl
@[simp] theorem Engine.raise_bk (c : ErrCode) : (e.raise c).bk = e.bk := rfl
@[simp] theorem Engine.raise_rc (c : ErrCode) : (e.raise c).rc = e.rc := rfl
@[simp] theorem Engine.raise_rs (c : ErrCode) : (e.raise c).rs = e.rs := rfl
@[simp] theorem Engine.raise_rxk (c : ErrCode) : (e.raise c).rxk = e.rxk := rfl
@[simp] theorem Engine.raise_ryk (c : ErrCode) : (e.raise c).ryk = e.ryk := rfl
@[simp] theorem Engine.raise_rxi (c : ErrCode) : (e.raise c).rxi = e.rxi := rfl
@[simp] theorem Engine.raise_ryi (c : ErrCode) : (e.raise c).ryi = e.ryi := rfl
@[simp] theorem Engine.raise_rdx (c : ErrCode) : (e.raise c).rdx = e.rdx := rfl
@[simp] theorem Engine.raise_rdy (c : ErrCode) : (e.raise c).rdy = e.rdy := rfl
@[simp] theorem Engine.raise_draws (c : ErrCode) : (e.raise c).draws = e.draws := rfl
@[simp] theorem Engine.raise_len (c : ErrCode) : (e.raise c).len = e.len := rfl
@[simp] theorem Engine.raise_quarter (c : ErrCode) : (e.raise c).quarter = e.quarter := rfl
@[simp] theorem Engine.raise_sineLen (c : ErrCode) : (e.raise c).sineLen = e.sineLen := rfl

/-! ## `startMksin` -/

@[simp] theorem Engine.startMksin_m : (e.startMksin).m = e.m := rfl
@[simp] theorem Engine.startMksin_preload : (e.startMksin).preload = e.preload := rfl
@[simp] theorem Engine.startMksin_x : (e.startMksin).x = e.x := rfl
@[simp] theorem Engine.startMksin_y : (e.startMksin).y = e.y := rfl
@[simp] theorem Engine.startMksin_sintbl : (e.startMksin).sintbl = e.sintbl := rfl
@[simp] theorem Engine.startMksin_bitrev : (e.startMksin).bitrev = e.bitrev := rfl
@[simp] theorem Engine.startMksin_sinv : (e.startMksin).sinv = e.sinv := rfl
@[simp] theorem Engine.startMksin_brv : (e.startMksin).brv = e.brv := rfl
@[simp] theorem Engine.startMksin_err : (e.startMksin).err = e.err := rfl
@[simp] theorem Engine.startMksin_phase : (e.startMksin).phase = .sinb := rfl
@[simp] theorem Engine.startMksin_dir : (e.startMksin).dir = e.dir := rfl
@[simp] theorem Engine.startMksin_i : (e.startMksin).i = e.i := rfl
@[simp] theorem Engine.startMksin_j : (e.startMksin).j = e.j := rfl
@[simp] theorem Engine.startMksin_k : (e.startMksin).k = e.k := rfl
@[simp] theorem Engine.startMksin_k2 : (e.startMksin).k2 = e.k2 := rfl
@[simp] theorem Engine.startMksin_d : (e.startMksin).d = e.d := rfl
@[simp] theorem Engine.startMksin_h : (e.startMksin).h = e.h := rfl
@[simp] theorem Engine.startMksin_ik : (e.startMksin).ik = e.ik := rfl
@[simp] theorem Engine.startMksin_si : (e.startMksin).si = 0 := rfl
@[simp] theorem Engine.startMksin_bi : (e.startMksin).bi = e.bi := rfl
@[simp] theorem Engine.startMksin_bj : (e.startMksin).bj = e.bj := rfl
@[simp] theorem Engine.startMksin_bk : (e.startMksin).bk = e.bk := rfl
@[simp] theorem Engine.startMksin_rc : (e.startMksin).rc = e.rc := rfl
@[simp] theorem Engine.startMksin_rs : (e.startMksin).rs = e.rs := rfl
@[simp] theorem Engine.startMksin_rxk : (e.startMksin).rxk = e.rxk := rfl
@[simp] theorem Engine.startMksin_ryk : (e.startMksin).ryk = e.ryk := rfl
@[simp] theorem Engine.startMksin_rxi : (e.startMksin).rxi = e.rxi := rfl
@[simp] theorem Engine.startMksin_ryi : (e.startMksin).ryi = e.ryi := rfl
@[simp] theorem Engine.startMksin_rdx : (e.startMksin).rdx = e.rdx := rfl
@[simp] theorem Engine.startMksin_rdy : (e.startMksin).rdy = e.rdy := rfl
@[simp] theorem Engine.startMksin_draws : (e.startMksin).draws = e.draws := rfl
@[simp] theorem Engine.startMksin_len : (e.startMksin).len = e.len := rfl
@[simp] theorem Engine.startMksin_quarter : (e.startMksin).quarter = e.quarter := rfl
@[simp] theorem Engine.startMksin_sineLen : (e.startMksin).sineLen = e.sineLen := rfl

/-! ## `startMkbrev` -/

@[simp] theorem Engine.startMkbrev_m : (e.startMkbrev).m = e.m := rfl
@[simp] theorem Engine.startMkbrev_preload : (e.startMkbrev).preload = e.preload := rfl
@[simp] theorem Engine.startMkbrev_x : (e.startMkbrev).x = e.x := rfl
@[simp] theorem Engine.startMkbrev_y : (e.startMkbrev).y = e.y := rfl
@[simp] theorem Engine.startMkbrev_sintbl : (e.startMkbrev).sintbl = e.sintbl := rfl
@[simp] theorem Engine.startMkbrev_bitrev : (e.startMkbrev).bitrev = e.bitrev := rfl
@[simp] theorem Engine.startMkbrev_sinv : (e.startMkbrev).sinv = e.sinv := rfl
@[simp] theorem Engine.startMkbrev_brv : (e.startMkbrev).brv = e.brv := rfl
@[simp] theorem Engine.startMkbrev_err : (e.startMkbrev).err = e.err := rfl
@[simp] theorem Engine.startMkbrev_phase : (e.startMkbrev).phase = .brvb := rfl
@[simp] theorem Engine.startMkbrev_dir : (e.startMkbrev).dir = e.dir := rfl
@[simp] theorem Engine.startMkbrev_i : (e.startMkbrev).i = e.i := rfl
@[simp] theorem Engine.startMkbrev_j : (e.startMkbrev).j = e.j := rfl
@[simp] theorem Engine.startMkbrev_k : (e.startMkbrev).k = e.k := rfl
@[simp] theorem Engine.startMkbrev_k2 : (e.startMkbrev).k2 = e.k2 := rfl
@[simp] theorem Engine.startMkbrev_d : (e.startMkbrev).d = e.d := rfl
@[simp] theorem Engine.startMkbrev_h : (e.startMkbrev).h = e.h := rfl
@[simp] theorem Engine.startMkbrev_ik : (e.startMkbrev).ik = e.ik := rfl
@[simp] theorem Engine.startMkbrev_si : (e.startMkbrev).si = e.si := rfl
@[simp] theorem Engine.startMkbrev_bi : (e.startMkbrev).bi = 0 := rfl
@[simp] theorem Engine.startMkbrev_bj : (e.startMkbrev).bj = 0 := rfl
@[simp] theorem Engine.startMkbrev_bk : (e.startMkbrev).bk = e.bk := rfl
@[simp] theorem Engine.startMkbrev_rc : (e.startMkbrev).rc = e.rc := rfl
@[simp] theorem Engine.startMkbrev_rs : (e.startMkbrev).rs = e.rs := rfl
@[simp] theorem Engine.startMkbrev_rxk : (e.startMkbrev).rxk = e.rxk := rfl
@[simp] theorem Engine.startMkbrev_ryk : (e.startMkbrev).ryk = e.ryk := rfl
@[simp] theorem Engine.startMkbrev_rxi : (e.startMkbrev).rxi = e.rxi := rfl
@[simp] theorem Engine.startMkbrev_ryi : (e.startMkbrev).ryi = e.ryi := rfl
@[simp] theorem Engine.startMkbrev_rdx : (e.startMkbrev).rdx = e.rdx := rfl
@[simp] theorem Engine.startMkbrev_rdy : (e.startMkbrev).rdy = e.rdy := rfl
@[simp] theorem Engine.startMkbrev_draws : (e.startMkbrev).draws = e.draws := rfl
@[simp] theorem Engine.startMkbrev_len : (e.startMkbrev).len = e.len := rfl
@[simp] theorem Engine.startMkbrev_quarter : (e.startMkbrev).quarter = e.quarter := rfl
@[simp] theorem Engine.startMkbrev_sineLen : (e.startMkbrev).sineLen = e.sineLen := rfl

/-! ## `permWork` -/

@[simp] theorem Engine.permWork_m (n : Nat) : (e.permWork A n).m = e.m := rfl
@[simp] theorem Engine.permWork_preload (n : Nat) : (e.permWork A n).preload = e.preload := rfl
@[simp] theorem Engine.permWork_sintbl (n : Nat) : (e.permWork A n).sintbl = e.sintbl := rfl
@[simp] theorem Engine.permWork_bitrev (n : Nat) : (e.permWork A n).bitrev = e.bitrev := rfl
@[simp] theorem Engine.permWork_sinv (n : Nat) : (e.permWork A n).sinv = e.sinv := rfl
@[simp] theorem Engine.permWork_brv (n : Nat) : (e.permWork A n).brv = e.brv := rfl
@[simp] theorem Engine.permWork_err (n : Nat) : (e.permWork A n).err = e.err := rfl
@[simp] theorem Engine.permWork_phase (n : Nat) : (e.permWork A n).phase = e.phase := rfl
@[simp] theorem Engine.permWork_dir (n : Nat) : (e.permWork A n).dir = e.dir := rfl
@[simp] theorem Engine.permWork_i (n : Nat) : (e.permWork A n).i = e.i := rfl
@[simp] theorem Engine.permWork_j (n : Nat) : (e.permWork A n).j = e.j := rfl
@[simp] theorem Engine.permWork_k (n : Nat) : (e.permWork A n).k = e.k := rfl
@[simp] theorem Engine.permWork_k2 (n : Nat) : (e.permWork A n).k2 = e.k2 := rfl
@[simp] theorem Engine.permWork_d (n : Nat) : (e.permWork A n).d = e.d := rfl
@[simp] theorem Engine.permWork_h (n : Nat) : (e.permWork A n).h = e.h := rfl
@[simp] theorem Engine.permWork_ik (n : Nat) : (e.permWork A n).ik = e.ik := rfl
@[simp] theorem Engine.permWork_si (n : Nat) : (e.permWork A n).si = e.si := rfl
@[simp] theorem Engine.permWork_bi (n : Nat) : (e.permWork A n).bi = e.bi := rfl
@[simp] theorem Engine.permWork_bj (n : Nat) : (e.permWork A n).bj = e.bj := rfl
@[simp] theorem Engine.permWork_bk (n : Nat) : (e.permWork A n).bk = e.bk := rfl
@[simp] theorem Engine.permWork_rc (n : Nat) : (e.permWork A n).rc = e.rc := rfl
@[simp] theorem Engine.permWork_rs (n : Nat) : (e.permWork A n).rs = e.rs := rfl
@[simp] theorem Engine.permWork_rdx (n : Nat) : (e.permWork A n).rdx = e.rdx := rfl
@[simp] theorem Engine.permWork_rdy (n : Nat) : (e.permWork A n).rdy = e.rdy := rfl
@[simp] theorem Engine.permWork_draws (n : Nat) : (e.permWork A n).draws = e.draws + 1 := rfl
@[simp] theorem Engine.permWork_len (n : Nat) : (e.permWork A n).len = e.len := rfl
@[simp] theorem Engine.permWork_quarter (n : Nat) : (e.permWork A n).quarter = e.quarter := rfl
@[simp] theorem Engine.permWork_sineLen (n : Nat) : (e.permWork A n).sineLen = e.sineLen := rfl

/-! ## `twldWork` -/

@[simp] theorem Engine.twldWork_m (n : Nat) : (e.twldWork A n).m = e.m := rfl
@[simp] theorem Engine.twldWork_preload (n : Nat) : (e.twldWork A n).preload = e.preload := rfl
@[simp] theorem Engine.twldWork_x (n : Nat) : (e.twldWork A n).x = e.x := rfl
@[simp] theorem Engine.twldWork_y (n : Nat) : (e.twldWork A n).y = e.y := rfl
@[simp] theorem Engine.twldWork_sintbl (n : Nat) : (e.twldWork A n).sintbl = e.sintbl := rfl
@[simp] theorem Engine.twldWork_bitrev (n : Nat) : (e.twldWork A n).bitrev = e.bitrev := rfl
@[simp] theorem Engine.twldWork_sinv (n : Nat) : (e.twldWork A n).sinv = e.sinv := rfl
@[simp] theorem Engine.twldWork_brv (n : Nat) : (e.twldWork A n).brv = e.brv := rfl
@[simp] theorem Engine.twldWork_err (n : Nat) : (e.twldWork A n).err = e.err := rfl
@[simp] theorem Engine.twldWork_phase (n : Nat) : (e.twldWork A n).phase = e.phase := rfl
@[simp] theorem Engine.twldWork_dir (n : Nat) : (e.twldWork A n).dir = e.dir := rfl
@[simp] theorem Engine.twldWork_i (n : Nat) : (e.twldWork A n).i = e.i := rfl
@[simp] theorem Engine.twldWork_j (n : Nat) : (e.twldWork A n).j = e.j := rfl
@[simp] theorem Engine.twldWork_k (n : Nat) : (e.twldWork A n).k = e.k := rfl
@[simp] theorem Engine.twldWork_k2 (n : Nat) : (e.twldWork A n).k2 = e.k2 := rfl
@[simp] theorem Engine.twldWork_d (n : Nat) : (e.twldWork A n).d = e.d := rfl
@[simp] theorem Engine.twldWork_h (n : Nat) : (e.twldWork A n).h = e.h := rfl
@[simp] theorem Engine.twldWork_ik (n : Nat) : (e.twldWork A n).ik = e.ik := rfl
@[simp] theorem Engine.twldWork_si (n : Nat) : (e.twldWork A n).si = e.si := rfl
@[simp] theorem Engine.twldWork_bi (n : Nat) : (e.twldWork A n).bi = e.bi := rfl
@[simp] theorem Engine.twldWork_bj (n : Nat) : (e.twldWork A n).bj = e.bj := rfl
@[simp] theorem Engine.twldWork_bk (n : Nat) : (e.twldWork A n).bk = e.bk := rfl
@[simp] theorem Engine.twldWork_rc (n : Nat) : (e.twldWork A n).rc = e.sinAt A (n + e.quarter) := rfl
@[simp] theorem Engine.twldWork_rxk (n : Nat) : (e.twldWork A n).rxk = e.rxk := rfl
@[simp] theorem Engine.twldWork_ryk (n : Nat) : (e.twldWork A n).ryk = e.ryk := rfl
@[simp] theorem Engine.twldWork_rxi (n : Nat) : (e.twldWork A n).rxi = e.rxi := rfl
@[simp] theorem Engine.twldWork_ryi (n : Nat) : (e.twldWork A n).ryi = e.ryi := rfl
@[simp] theorem Engine.twldWork_rdx (n : Nat) : (e.twldWork A n).rdx = e.rdx := rfl
@[simp] theorem Engine.twldWork_rdy (n : Nat) : (e.twldWork A n).rdy = e.rdy := rfl
@[simp] theorem Engine.twldWork_draws (n : Nat) : (e.twldWork A n).draws = e.draws + 1 := rfl
@[simp] theorem Engine.twldWork_len (n : Nat) : (e.twldWork A n).len = e.len := rfl
@[simp] theorem Engine.twldWork_quarter (n : Nat) : (e.twldWork A n).quarter = e.quarter := rfl
@[simp] theorem Engine.twldWork_sineLen (n : Nat) : (e.twldWork A n).sineLen = e.sineLen := rfl

/-! ## `bflyWork` -/

@[simp] theorem Engine.bflyWork_m (n w : Nat) : (e.bflyWork A n w).m = e.m := rfl
@[simp] theorem Engine.bflyWork_preload (n w : Nat) : (e.bflyWork A n w).preload = e.preload := rfl
@[simp] theorem Engine.bflyWork_sintbl (n w : Nat) : (e.bflyWork A n w).sintbl = e.sintbl := rfl
@[simp] theorem Engine.bflyWork_bitrev (n w : Nat) : (e.bflyWork A n w).bitrev = e.bitrev := rfl
@[simp] theorem Engine.bflyWork_sinv (n w : Nat) : (e.bflyWork A n w).sinv = e.sinv := rfl
@[simp] theorem Engine.bflyWork_brv (n w : Nat) : (e.bflyWork A n w).brv = e.brv := rfl
@[simp] theorem Engine.bflyWork_err (n w : Nat) : (e.bflyWork A n w).err = e.err := rfl
@[simp] theorem Engine.bflyWork_phase (n w : Nat) : (e.bflyWork A n w).phase = e.phase := rfl
@[simp] theorem Engine.bflyWork_dir (n w : Nat) : (e.bflyWork A n w).dir = e.dir := rfl
@[simp] theorem Engine.bflyWork_i (n w : Nat) : (e.bflyWork A n w).i = e.i := rfl
@[simp] theorem Engine.bflyWork_j (n w : Nat) : (e.bflyWork A n w).j = e.j := rfl
@[simp] theorem Engine.bflyWork_k (n w : Nat) : (e.bflyWork A n w).k = e.k := rfl
@[simp] theorem Engine.bflyWork_k2 (n w : Nat) : (e.bflyWork A n w).k2 = e.k2 := rfl
@[simp] theorem Engine.bflyWork_d (n w : Nat) : (e.bflyWork A n w).d = e.d := rfl
@[simp] theorem Engine.bflyWork_h (n w : Nat) : (e.bflyWork A n w).h = e.h := rfl
@[simp] theorem Engine.bflyWork_ik (n w : Nat) : (e.bflyWork A n w).ik = n + w := rfl
@[simp] theorem Engine.bflyWork_si (n w : Nat) : (e.bflyWork A n w).si = e.si := rfl
@[simp] theorem Engine.bflyWork_bi (n w : Nat) : (e.bflyWork A n w).bi = e.bi := rfl
@[simp] theorem Engine.bflyWork_bj (n w : Nat) : (e.bflyWork A n w).bj = e.bj := rfl
@[simp] theorem Engine.bflyWork_bk (n w : Nat) : (e.bflyWork A n w).bk = e.bk := rfl
@[simp] theorem Engine.bflyWork_rc (n w : Nat) : (e.bflyWork A n w).rc = e.rc := rfl
@[simp] theorem Engine.bflyWork_rs (n w : Nat) : (e.bflyWork A n w).rs = e.rs := rfl
@[simp] theorem Engine.bflyWork_rxk (n w : Nat) : (e.bflyWork A n w).rxk = e.xAt A 0 (n + w) := rfl
@[simp] theorem Engine.bflyWork_ryk (n w : Nat) : (e.bflyWork A n w).ryk = e.yAt A 1 (n + w) := rfl
@[simp] theorem Engine.bflyWork_rxi (n w : Nat) : (e.bflyWork A n w).rxi = e.xAt A 2 n := rfl
@[simp] theorem Engine.bflyWork_ryi (n w : Nat) : (e.bflyWork A n w).ryi = e.yAt A 3 n := rfl
@[simp] theorem Engine.bflyWork_draws (n w : Nat) : (e.bflyWork A n w).draws = e.draws + 1 := rfl
@[simp] theorem Engine.bflyWork_len (n w : Nat) : (e.bflyWork A n w).len = e.len := rfl
@[simp] theorem Engine.bflyWork_quarter (n w : Nat) : (e.bflyWork A n w).quarter = e.quarter := rfl
@[simp] theorem Engine.bflyWork_sineLen (n w : Nat) : (e.bflyWork A n w).sineLen = e.sineLen := rfl

/-! ## `normWork` -/

@[simp] theorem Engine.normWork_m (n : Nat) : (e.normWork A n).m = e.m := rfl
@[simp] theorem Engine.normWork_preload (n : Nat) : (e.normWork A n).preload = e.preload := rfl
@[simp] theorem Engine.normWork_sintbl (n : Nat) : (e.normWork A n).sintbl = e.sintbl := rfl
@[simp] theorem Engine.normWork_bitrev (n : Nat) : (e.normWork A n).bitrev = e.bitrev := rfl
@[simp] theorem Engine.normWork_sinv (n : Nat) : (e.normWork A n).sinv = e.sinv := rfl
@[simp] theorem Engine.normWork_brv (n : Nat) : (e.normWork A n).brv = e.brv := rfl
@[simp] theorem Engine.normWork_err (n : Nat) : (e.normWork A n).err = e.err := rfl
@[simp] theorem Engine.normWork_phase (n : Nat) : (e.normWork A n).phase = e.phase := rfl
@[simp] theorem Engine.normWork_dir (n : Nat) : (e.normWork A n).dir = e.dir := rfl
@[simp] theorem Engine.normWork_i (n : Nat) : (e.normWork A n).i = e.i := rfl
@[simp] theorem Engine.normWork_j (n : Nat) : (e.normWork A n).j = e.j := rfl
@[simp] theorem Engine.normWork_k (n : Nat) : (e.normWork A n).k = e.k := rfl
@[simp] theorem Engine.normWork_k2 (n : Nat) : (e.normWork A n).k2 = e.k2 := rfl
@[simp] theorem Engine.normWork_d (n : Nat) : (e.normWork A n).d = e.d := rfl
@[simp] theorem Engine.normWork_h (n : Nat) : (e.normWork A n).h = e.h := rfl
@[simp] theorem Engine.normWork_ik (n : Nat) : (e.normWork A n).ik = e.ik := rfl
@[simp] theorem Engine.normWork_si (n : Nat) : (e.normWork A n).si = e.si := rfl
@[simp] theorem Engine.normWork_bi (n : Nat) : (e.normWork A n).bi = e.bi := rfl
@[simp] theorem Engine.normWork_bj (n : Nat) : (e.normWork A n).bj = e.bj := rfl
@[simp] theorem Engine.normWork_bk (n : Nat) : (e.normWork A n).bk = e.bk := rfl
@[simp] theorem Engine.normWork_rc (n : Nat) : (e.normWork A n).rc = e.rc := rfl
@[simp] theorem Engine.normWork_rs (n : Nat) : (e.normWork A n).rs = e.rs := rfl
@[simp] theorem Engine.normWork_rxk (n : Nat) : (e.normWork A n).rxk = e.rxk := rfl
@[simp] theorem Engine.normWork_ryk (n : Nat) : (e.normWork A n).ryk = e.ryk := rfl
@[simp] theorem Engine.normWork_rxi (n : Nat) : (e.normWork A n).rxi = e.rxi := rfl
@[simp] theorem Engine.normWork_ryi (n : Nat) : (e.normWork A n).ryi = e.ryi := rfl
@[simp] theorem Engine.normWork_rdx (n : Nat) : (e.normWork A n).rdx = e.rdx := rfl
@[simp] theorem Engine.normWork_rdy (n : Nat) : (e.normWork A n).rdy = e.rdy := rfl
@[simp] theorem Engine.normWork_draws (n : Nat) : (e.normWork A n).draws = e.draws + 1 := rfl
@[simp] theorem Engine.normWork_len (n : Nat) : (e.normWork A n).len = e.len := rfl
@[simp] theorem Engine.normWork_quarter (n : Nat) : (e.normWork A n).quarter = e.quarter := rfl
@[simp] theorem Engine.normWork_sineLen (n : Nat) : (e.normWork A n).sineLen = e.sineLen := rfl

/-! ## `enterStage` -/

@[simp] theorem Engine.enterStage_m (n : Nat) : (e.enterStage n).m = e.m := by
  unfold Engine.enterStage; split <;> [rfl; (split <;> rfl)]
@[simp] theorem Engine.enterStage_preload (n : Nat) : (e.enterStage n).preload = e.preload := by
  unfold Engine.enterStage; split <;> [rfl; (split <;> rfl)]
@[simp] theorem Engine.enterStage_x (n : Nat) : (e.enterStage n).x = e.x := by
  unfold Engine.enterStage; split <;> [rfl; (split <;> rfl)]
@[simp] theorem Engine.enterStage_y (n : Nat) : (e.enterStage n).y = e.y := by
  unfold Engine.enterStage; split <;> [rfl; (split <;> rfl)]
@[simp] theorem Engine.enterStage_sintbl (n : Nat) : (e.enterStage n).sintbl = e.sintbl := by
  unfold Engine.enterStage; split <;> [rfl; (split <;> rfl)]
@[simp] theorem Engine.enterStage_bitrev (n : Nat) : (e.enterStage n).bitrev = e.bitrev := by
  unfold Engine.enterStage; split <;> [rfl; (split <;> rfl)]
@[simp] theorem Engine.enterStage_sinv (n : Nat) : (e.enterStage n).sinv = e.sinv := by
  unfold Engine.enterStage; split <;> [rfl; (split <;> rfl)]
@[simp] theorem Engine.enterStage_brv (n : Nat) : (e.enterStage n).brv = e.brv := by
  unfold Engine.enterStage; split <;> [rfl; (split <;> rfl)]
@[simp] theorem Engine.enterStage_err (n : Nat) : (e.enterStage n).err = e.err := by
  unfold Engine.enterStage; split <;> [rfl; (split <;> rfl)]
@[simp] theorem Engine.enterStage_dir (n : Nat) : (e.enterStage n).dir = e.dir := by
  unfold Engine.enterStage; split <;> [rfl; (split <;> rfl)]
@[simp] theorem Engine.enterStage_k (n : Nat) : (e.enterStage n).k = n := by
  unfold Engine.enterStage; split <;> [rfl; (split <;> rfl)]
@[simp] theorem Engine.enterStage_ik (n : Nat) : (e.enterStage n).ik = e.ik := by
  unfold Engine.enterStage; split <;> [rfl; (split <;> rfl)]
@[simp] theorem Engine.enterStage_si (n : Nat) : (e.enterStage n).si = e.si := by
  unfold Engine.enterStage; split <;> [rfl; (split <;> rfl)]
@[simp] theorem Engine.enterStage_bi (n : Nat) : (e.enterStage n).bi = e.bi := by
  unfold Engine.enterStage; split <;> [rfl; (split <;> rfl)]
@[simp] theorem Engine.enterStage_bj (n : Nat) : (e.enterStage n).bj = e.bj := by
  unfold Engine.enterStage; split <;> [rfl; (split <;> rfl)]
@[simp] theorem Engine.enterStage_bk (n : Nat) : (e.enterStage n).bk = e.bk := by
  unfold Engine.enterStage; split <;> [rfl; (split <;> rfl)]
@[simp] theorem Engine.enterStage_rc (n : Nat) : (e.enterStage n).rc = e.rc := by
  unfold Engine.enterStage; split <;> [rfl; (split <;> rfl)]
@[simp] theorem Engine.enterStage_rs (n : Nat) : (e.enterStage n).rs = e.rs := by
  unfold Engine.enterStage; split <;> [rfl; (split <;> rfl)]
@[simp] theorem Engine.enterStage_rxk (n : Nat) : (e.enterStage n).rxk = e.rxk := by
  unfold Engine.enterStage; split <;> [rfl; (split <;> rfl)]
@[simp] theorem Engine.enterStage_ryk (n : Nat) : (e.enterStage n).ryk = e.ryk := by
  unfold Engine.enterStage; split <;> [rfl; (split <;> rfl)]
@[simp] theorem Engine.enterStage_rxi (n : Nat) : (e.enterStage n).rxi = e.rxi := by
  unfold Engine.enterStage; split <;> [rfl; (split <;> rfl)]
@[simp] theorem Engine.enterStage_ryi (n : Nat) : (e.enterStage n).ryi = e.ryi := by
  unfold Engine.enterStage; split <;> [rfl; (split <;> rfl)]
@[simp] theorem Engine.enterStage_rdx (n : Nat) : (e.enterStage n).rdx = e.rdx := by
  unfold Engine.enterStage; split <;> [rfl; (split <;> rfl)]
@[simp] theorem Engine.enterStage_rdy (n : Nat) : (e.enterStage n).rdy = e.rdy := by
  unfold Engine.enterStage; split <;> [rfl; (split <;> rfl)]
@[simp] theorem Engine.enterStage_draws (n : Nat) : (e.enterStage n).draws = e.draws := by
  unfold Engine.enterStage; split <;> [rfl; (split <;> rfl)]
@[simp] theorem Engine.enterStage_len (n : Nat) : (e.enterStage n).len = e.len := by
  unfold Engine.enterStage; split <;> [rfl; (split <;> rfl)]
@[simp] theorem Engine.enterStage_quarter (n : Nat) : (e.enterStage n).quarter = e.quarter := by
  unfold Engine.enterStage; split <;> [rfl; (split <;> rfl)]
@[simp] theorem Engine.enterStage_sineLen (n : Nat) : (e.enterStage n).sineLen = e.sineLen := by
  unfold Engine.enterStage; split <;> [rfl; (split <;> rfl)]

/-! ## `afterReset` -/

@[simp] theorem Engine.afterReset_m : (e.afterReset A).m = e.m := rfl
@[simp] theorem Engine.afterReset_preload : (e.afterReset A).preload = e.preload := rfl
@[simp] theorem Engine.afterReset_x : (e.afterReset A).x = [] := rfl
@[simp] theorem Engine.afterReset_y : (e.afterReset A).y = [] := rfl
@[simp] theorem Engine.afterReset_sinv : (e.afterReset A).sinv = e.preload := rfl
@[simp] theorem Engine.afterReset_brv : (e.afterReset A).brv = e.preload := rfl
@[simp] theorem Engine.afterReset_err : (e.afterReset A).err = .none := rfl
@[simp] theorem Engine.afterReset_phase : (e.afterReset A).phase = .idle := rfl
@[simp] theorem Engine.afterReset_draws : (e.afterReset A).draws = e.draws + 1 := rfl
@[simp] theorem Engine.afterReset_len : (e.afterReset A).len = e.len := rfl
@[simp] theorem Engine.afterReset_quarter : (e.afterReset A).quarter = e.quarter := rfl
@[simp] theorem Engine.afterReset_sineLen : (e.afterReset A).sineLen = e.sineLen := rfl

end Sys2Proof.Machine
end

