-- ==== Sys2Proof/Laws/Ops.lean ====
section
/-! SUPPORT. For each shared operation, what it can answer: a next state holds exactly when one of
the listed cases holds. -/

namespace Sys2Proof.Machine

variable {α : Type}

/-! ## Guards -/

theorem Engine.selected_next {p : Phase} {work : Engine α → Host.Outcome (Engine α) Fault Refusal}
    {e e' : Engine α} :
    e.selected p work = .next e' ↔
      Params.admitted e.m = true ∧ e.phase = p ∧ work e = .next e' := by
  unfold Engine.selected
  by_cases h : Params.admitted e.m = true <;> by_cases h2 : e.phase = p <;> simp [h, h2]

theorem Engine.selected_eq {p : Phase} {work : Engine α → Host.Outcome (Engine α) Fault Refusal}
    {e : Engine α} (ha : Params.admitted e.m = true) (hp : e.phase = p) :
    e.selected p work = work e := by
  simp [Engine.selected, ha, hp]

theorem State.withEngine_next {s t : State} {reply : Reply}
    {r : Host.Outcome (Engine F64) Fault Refusal} :
    s.withEngine reply r = .next t ↔
      ∃ e, r = .next e ∧ t = { s with toEngine := e, reply := reply } := by
  cases r <;> simp [State.withEngine, eq_comm]

@[simp] theorem State.withEngine_of_next (s : State) (reply : Reply) (e : Engine F64) :
    s.withEngine reply (.next e) = .next { s with toEngine := e, reply := reply } := rfl

theorem State.microOp_next {p : Phase}
    {work : Engine F64 → Host.Outcome (Engine F64) Fault Refusal} {s t : State} :
    s.microOp p work = .next t ↔
      Params.admitted s.m = true ∧ s.phase = p ∧
        ∃ e, work s.toEngine = .next e ∧ t = { s with toEngine := e } := by
  simp only [State.microOp, State.withEngine_next, Engine.selected_next]
  constructor
  · rintro ⟨e, ⟨ha, hp, hw⟩, rfl⟩
    exact ⟨ha, hp, e, hw, rfl⟩
  · rintro ⟨ha, hp, e, hw, rfl⟩
    exact ⟨e, ⟨ha, hp, hw⟩, rfl⟩

theorem State.microOp_of_next {p : Phase}
    {work : Engine F64 → Host.Outcome (Engine F64) Fault Refusal} {s : State} {e : Engine F64}
    (ha : Params.admitted s.m = true) (hp : s.phase = p) (hw : work s.toEngine = .next e) :
    s.microOp p work = .next { s with toEngine := e } :=
  State.microOp_next.2 ⟨ha, hp, e, hw, rfl⟩

theorem State.hostMove_idle {idle halt : State → Host.Outcome State Fault Refusal} {s : State}
    (ha : Params.admitted s.m = true) (hp : s.phase = .idle) : s.hostMove idle halt = idle s := by
  simp [State.hostMove, ha, hp]

theorem State.hostMove_halt {idle halt : State → Host.Outcome State Fault Refusal} {s : State}
    (ha : Params.admitted s.m = true) (hp : s.phase = .halt) : s.hostMove idle halt = halt s := by
  simp [State.hostMove, ha, hp]

theorem State.hostMove_busy {idle halt : State → Host.Outcome State Fault Refusal} {s : State}
    (ha : Params.admitted s.m = true) (hp : s.phase.busy = true) :
    s.hostMove idle halt = .refused .hostHasNoMove := by
  cases h : s.phase <;> simp [State.hostMove, ha, h, Phase.busy] at hp ⊢

theorem State.hostMove_next {idle halt : State → Host.Outcome State Fault Refusal} {s t : State} :
    s.hostMove idle halt = .next t ↔
      Params.admitted s.m = true ∧
        (s.phase = .idle ∧ idle s = .next t ∨ s.phase = .halt ∧ halt s = .next t) := by
  unfold State.hostMove
  by_cases h : Params.admitted s.m = true <;> cases hp : s.phase <;> simp [h]

theorem State.hostWrite_next {work : Engine F64 → Host.Outcome (Engine F64) Fault Refusal}
    {s t : State} :
    s.hostWrite work = .next t ↔
      Params.admitted s.m = true ∧
        (s.phase = .idle ∧
            (∃ e, work s.toEngine = .next e ∧ t = { s with toEngine := e, reply := .nothing }) ∨
          s.phase = .halt ∧ t = { s with reply := .nothing }) := by
  simp only [State.hostWrite, State.hostMove_next, State.withEngine_next, State.ignored,
    Host.Outcome.next.injEq, eq_comm (b := t)]

theorem State.hostWrite_idle {work : Engine F64 → Host.Outcome (Engine F64) Fault Refusal}
    {s : State} (ha : Params.admitted s.m = true) (hp : s.phase = .idle) :
    s.hostWrite work = s.withEngine .nothing (work s.toEngine) :=
  State.hostMove_idle ha hp

theorem State.hostWrite_halt {work : Engine F64 → Host.Outcome (Engine F64) Fault Refusal}
    {s : State} (ha : Params.admitted s.m = true) (hp : s.phase = .halt) :
    s.hostWrite work = .next { s with reply := .nothing } :=
  State.hostMove_halt ha hp

/-! ## Commands -/

theorem Engine.startXform_next {dir : Direction} {e e' : Engine α} :
    e.startXform dir = .next e' ↔
      (e.sinv = false ∨ e.brv = false) ∧ e' = e.raise .notReady ∨
        e.sinv = true ∧ e.brv = true ∧ e.populated = true ∧
          e' = { e with dir := dir, i := 0, phase := .perm } := by
  unfold Engine.startXform
  cases h1 : e.sinv <;> cases h2 : e.brv <;> cases h3 : e.populated <;> simp [eq_comm]

theorem Engine.command_next {w : Word} {e e' : Engine α} :
    e.command w = .next e' ↔
      decodeCommand w = some .mksin ∧ e' = e.startMksin ∨
        decodeCommand w = some .mkbrev ∧ e' = e.startMkbrev ∨
        decodeCommand w = some .xformFwd ∧ e.startXform .fwd = .next e' ∨
        decodeCommand w = some .xformInv ∧ e.startXform .inv = .next e' ∨
        decodeCommand w = none ∧ e' = e.raise .illegalCmd := by
  unfold Engine.command
  rcases decodeCommand w with _ | (_ | _ | _ | _) <;> simp [eq_comm (b := e')]

/-- Everything a store of the host can do (rule R222). -/
theorem Engine.hostStore_next {space : Space} {index : Nat} {data : Datum} {e e' : Engine F64} :
    e.hostStore space index data = .next e' ↔
      e.writable space index = false ∧ e' = e.raise .badAccess ∨
        e.writable space index = true ∧
          ((∃ v, space = .x ∧ data = .num v ∧ e' = { e with x := e.x.write index v }) ∨
            (∃ v, space = .y ∧ data = .num v ∧ e' = { e with y := e.y.write index v }) ∨
            ∃ w, space = .csr ∧ data = .word w ∧ e.command w = .next e') := by
  unfold Engine.hostStore
  cases h : e.writable space index <;> cases space <;> cases data <;> simp [eq_comm]

/-- Everything an answer to a host read can be (rule R221). -/
theorem State.answer_next {space : Space} {index : Nat} {s t : State} :
    s.answer space index = .next t ↔
      ∃ v, s.hostValue space index = some v ∧ t = { s with reply := .ok v } := by
  unfold State.answer
  cases h : s.hostValue space index <;> simp [eq_comm]

/-! ## Micro-operations -/

theorem Engine.sinw_next {A : Arith α} {e e' : Engine α} :
    e.sinw A = .next e' ↔
      e.si < e.sineLen ∧
        e' = { e with
          sintbl := e.sintbl.write e.si (A.sinval e.m e.si)
          si := e.si + 1
          sinv := if e.si + 1 = e.sineLen then true else e.sinv
          phase := if e.si + 1 = e.sineLen then .idle else e.phase } := by
  unfold Engine.sinw
  by_cases h : e.si < e.sineLen <;> by_cases h2 : e.si + 1 = e.sineLen <;> simp [h, h2, eq_comm]

theorem Engine.brvs_next {e e' : Engine α} :
    e.brvs = .next e' ↔
      e.bi < e.len ∧
        (e.bi + 1 = e.len ∧
            e' = { e with bitrev := e.bitrev.write e.bi e.bj, brv := true, phase := .idle } ∨
          e.bi + 1 ≠ e.len ∧ ∃ bj bk, brNext e.m e.bj = some (bj, bk) ∧
            e' = { e with
              bitrev := e.bitrev.write e.bi e.bj, bj := bj, bk := bk, bi := e.bi + 1 }) := by
  unfold Engine.brvs
  by_cases h : e.bi < e.len
  · by_cases h2 : e.bi + 1 = e.len
    · simp [h, h2, eq_comm]
    · rcases h3 : brNext e.m e.bj with _ | ⟨bj, bk⟩ <;> simp [h, h2, eq_comm]
  · simp [h]

theorem Engine.perm_next {A : Arith α} {e e' : Engine α} :
    e.perm A = .next e' ↔
      e.i < e.len ∧
        e' = if e.i + 1 = e.len then
            ({ e.permWork A e.i with i := e.i + 1 } : Engine α).enterStage 1
          else { e.permWork A e.i with i := e.i + 1 } := by
  unfold Engine.perm
  by_cases h : e.i < e.len <;> simp [h, eq_comm]

theorem Engine.twld_next {A : Arith α} {e e' : Engine α} :
    e.twld A = .next e' ↔
      e.h + e.quarter < e.sineLen ∧ e' = { e.twldWork A e.h with i := e.j, phase := .bfly } := by
  unfold Engine.twld
  by_cases h : e.h + e.quarter < e.sineLen <;> simp [h, eq_comm]

/-- The engine after the last butterfly of a group, before the next phase is chosen. -/
def Engine.afterGroup (A : Arith α) (e : Engine α) : Engine α :=
  { e.bflyWork A e.i e.k with i := e.i + e.k2, h := e.h + e.d, j := e.j + 1 }

theorem Engine.bfly_next {A : Arith α} {e e' : Engine α} :
    e.bfly A = .next e' ↔
      e.i + e.k < e.len ∧
        e' = if e.i + e.k2 < e.len then { e.bflyWork A e.i e.k with i := e.i + e.k2 }
          else if e.j + 1 < e.k then { e.afterGroup A with phase := .twld }
          else (e.afterGroup A).enterStage e.k2 := by
  unfold Engine.bfly Engine.afterGroup
  by_cases h : e.i + e.k < e.len <;> by_cases h2 : e.i + e.k2 < e.len <;>
    by_cases h3 : e.j + 1 < e.k <;> simp [h, h2, h3, eq_comm]

theorem Engine.norm_next {A : Arith α} {e e' : Engine α} :
    e.norm A = .next e' ↔
      e.i < e.len ∧
        e' = if e.i + 1 = e.len then { e.normWork A e.i with i := e.i + 1, phase := .idle }
          else { e.normWork A e.i with i := e.i + 1 } := by
  unfold Engine.norm
  by_cases h : e.i < e.len <;> by_cases h2 : e.i + 1 = e.len <;> simp [h, h2, eq_comm]

theorem Engine.enterStage_of_lt {e : Engine α} {kn : Nat} (h : kn < e.len) :
    e.enterStage kn =
      { e with k := kn, k2 := 2 * kn, d := e.len / (2 * kn), j := 0, h := 0, phase := .twld } :=
  if_pos h

theorem Engine.enterStage_fwd {e : Engine α} {kn : Nat} (h : ¬kn < e.len) (hd : e.dir = .fwd) :
    e.enterStage kn = { e with k := kn, i := 0, phase := .norm } :=
  (if_neg h).trans (if_pos hd)

theorem Engine.enterStage_inv {e : Engine α} {kn : Nat} (h : ¬kn < e.len) (hd : e.dir ≠ .fwd) :
    e.enterStage kn = { e with k := kn, phase := .idle } :=
  (if_neg h).trans (if_neg hd)

/-- The three ways a stage can be entered or left (rule R173). -/
theorem Engine.enterStage_cases (e : Engine α) (kn : Nat) :
    kn < e.len ∧ e.enterStage kn =
        { e with k := kn, k2 := 2 * kn, d := e.len / (2 * kn), j := 0, h := 0, phase := .twld } ∨
      ¬kn < e.len ∧ e.dir = .fwd ∧ e.enterStage kn = { e with k := kn, i := 0, phase := .norm } ∨
      ¬kn < e.len ∧ e.dir ≠ .fwd ∧ e.enterStage kn = { e with k := kn, phase := .idle } := by
  unfold Engine.enterStage
  by_cases h : kn < e.len <;> by_cases h2 : e.dir = .fwd <;> simp [h, h2]

/-! ## Step -/

/-- Everything a step can do: wait, run the micro-operation the phase selects, or take the oldest
host transaction. -/
theorem step_next {s t : State} :
    step s = .next t ↔
      Params.admitted s.m = true ∧
        (s.phase.busy = true ∧ (∃ i, decodePhase s.phase.code = .ok i ∧ exec i s = .next t) ∨
          s.phase.busy = false ∧ s.pending = [] ∧ t = s ∨
          s.phase.busy = false ∧ ∃ txn rest i, s.pending = txn :: rest ∧ decodeHost txn = .ok i ∧
            exec i { s with pending := rest } = .next t) := by
  unfold step State.fetch
  by_cases ha : Params.admitted s.m = true
  · cases hb : s.phase.busy
    · cases hp : s.pending with
      | nil => simp [ha, eq_comm]
      | cons txn rest => cases hd : decodeHost txn <;> simp [ha, hd]
    · cases hd : decodePhase s.phase.code <;> simp [ha, hd, decode]
  · simp [ha]

end Sys2Proof.Machine
end

