-- ==== Sys2Proof/Laws/PerInstr.lean ====
section
/-! SUPPORT. Per instruction: its encoding is of the format of its row of the opcode table, and the
bits under the row's mask are the row's match value. -/

namespace Sys2Proof.Laws.OpcodeTable

/-- The format letter of a code. -/
def format : Code → Char
  | .c _ => 'C'
  | .t _ => 'T'
  | .u _ => 'U'

/-- The bits of a code that its row's mask selects: the whole command word, the kind of a
transaction, the whole of `PHASE`. -/
def maskedBits : Code → Nat
  | .c w => w.toNat
  | .t t => t.kind.toNat
  | .u p => p.toNat

/-- The format of an instruction's row in spec/opcode_table.json. -/
def rowFormat : Instr → Char
  | .mksin => 'C'
  | .mkbrev => 'C'
  | .xformFwd => 'C'
  | .xformInv => 'C'
  | .sinw => 'U'
  | .brvs => 'U'
  | .perm => 'U'
  | .twld => 'U'
  | .bfly => 'U'
  | .norm => 'U'
  | .hrd _ _ => 'T'
  | .hwr _ _ _ => 'T'
  | .reset => 'T'

/-- The match value of an instruction's row in spec/opcode_table.json. -/
def rowMatch : Instr → Nat
  | .mksin => 0x00000002
  | .mkbrev => 0x00000004
  | .xformFwd => 0x00000006
  | .xformInv => 0x00000007
  | .sinw => 0x1
  | .brvs => 0x2
  | .perm => 0x3
  | .twld => 0x4
  | .bfly => 0x5
  | .norm => 0x6
  | .hrd _ _ => 0x0
  | .hwr _ _ _ => 0x1
  | .reset => 0x2

/-- The encoding of the instruction lies under its row of the opcode table. -/
def Statement (i : Instr) : Prop :=
  format (encode i) = rowFormat i ∧ maskedBits (encode i) = rowMatch i

theorem mksin : Statement .mksin := ⟨rfl, rfl⟩
theorem mkbrev : Statement .mkbrev := ⟨rfl, rfl⟩
theorem xformFwd : Statement .xformFwd := ⟨rfl, rfl⟩
theorem xformInv : Statement .xformInv := ⟨rfl, rfl⟩
theorem sinw : Statement .sinw := ⟨rfl, rfl⟩
theorem brvs : Statement .brvs := ⟨rfl, rfl⟩
theorem perm : Statement .perm := ⟨rfl, rfl⟩
theorem twld : Statement .twld := ⟨rfl, rfl⟩
theorem bfly : Statement .bfly := ⟨rfl, rfl⟩
theorem norm : Statement .norm := ⟨rfl, rfl⟩
theorem hrd (space : Space) (index : BitVec 32) : Statement (.hrd space index) := ⟨rfl, rfl⟩
theorem hwr (space : Space) (index : BitVec 32) (data : Datum) :
    Statement (.hwr space index data) := ⟨rfl, rfl⟩
theorem reset : Statement .reset := ⟨rfl, rfl⟩

end Sys2Proof.Laws.OpcodeTable
end

