-- ==== Sys2Proof/Laws/Ranges.lean ====
section
/-! SUPPORT. The ranges of the transform counters (rules R35, R209, R210) that hold in every state of
the invariant, and how far `i` goes when a group ends (rules R169, R173; log entry 29). -/

namespace Sys2Proof.Machine

variable {α : Type} {e : Engine α}

/-- The stage spans the line exactly: `d` butterflies, `k2` apart. -/
theorem Engine.InStage.d_mul_k2 (h : e.InStage) : e.d * e.k2 = e.len := by
  obtain ⟨s, hs, -, hk2, hd, -, -⟩ := h
  rw [hd, hk2, ← pow_add, Nat.sub_add_cancel hs]
  rfl

theorem Engine.InStage.k2_eq (h : e.InStage) : e.k2 = 2 * e.k := by
  obtain ⟨s, -, hk, hk2, -, -, -⟩ := h
  rw [hk, hk2, pow_succ, Nat.mul_comm]

theorem Engine.InStage.one_le_d (h : e.InStage) : 1 ≤ e.d := by
  obtain ⟨s, -, -, -, hd, -, -⟩ := h
  rw [hd]
  exact Nat.one_le_two_pow

theorem Engine.InStage.j_lt_k (h : e.InStage) : e.j < e.k := by
  obtain ⟨s, -, -, -, -, hj, -⟩ := h
  exact hj

theorem Engine.InStage.k2_le_len (h : e.InStage) : e.k2 ≤ e.len :=
  h.d_mul_k2 ▸ Nat.le_mul_of_pos_left _ h.one_le_d

/-- On entry to `BFLY` both lines exist (rule R209). -/
theorem Engine.PhaseOk.ik_lt_len {A : Arith α} (h : e.PhaseOk A) (hp : e.phase = .bfly) :
    e.i + e.k < e.len := by
  simp only [Engine.PhaseOk, hp] at h
  obtain ⟨-, hs, t, ht, hi⟩ := h
  have hlast : (t + 1) * e.k2 ≤ e.d * e.k2 := Nat.mul_le_mul_right _ ht
  have := hs.d_mul_k2
  have := hs.k2_eq
  have := hs.j_lt_k
  rw [Nat.succ_mul] at hlast
  omega

/-- The sum `i + k2` that `BFLY` writes to `i`: below `N` inside a group, exactly `j + N` after its last
butterfly, and always of `M + 1` bits (rules R35, R210). -/
theorem Engine.PhaseOk.i_add_k2 {A : Arith α} (h : e.PhaseOk A) (hp : e.phase = .bfly) :
    (e.i + e.k2 < e.len ∨ e.i + e.k2 = e.j + e.len) ∧ e.i + e.k2 < 2 ^ (e.m + 1) := by
  have hk := h.ik_lt_len hp
  simp only [Engine.PhaseOk, hp] at h
  obtain ⟨-, hs, t, ht, hi⟩ := h
  have hlen := hs.d_mul_k2
  have hk2 := hs.k2_eq
  have hj := hs.j_lt_k
  have hle := hs.k2_le_len
  have hN : 2 ^ (e.m + 1) = 2 * e.len := by rw [pow_succ, Nat.mul_comm]; rfl
  refine ⟨?_, by omega⟩
  rcases Nat.lt_or_ge (t + 1) e.d with hin | hout
  · have hmul : (t + 2) * e.k2 ≤ e.d * e.k2 := Nat.mul_le_mul_right _ hin
    rw [Nat.add_mul] at hmul
    omega
  · have hlast : t + 1 = e.d := by omega
    rw [← hlast, Nat.succ_mul] at hlen
    omega

/-- After a group ends and the next one begins, `h` stays a twiddle index of the stage (rule R209). -/
theorem Engine.InStage.h_add_d_le (h : e.InStage) : e.h + e.d ≤ e.len / 2 := by
  have hlen := h.d_mul_k2
  have hk2 := h.k2_eq
  have hj : (e.j + 1) * e.d ≤ e.k * e.d := Nat.mul_le_mul_right _ h.j_lt_k
  obtain ⟨s, -, -, -, -, -, hh⟩ := h
  have hhalf : e.d * (2 * e.k) = 2 * (e.k * e.d) := by ring
  rw [hk2, hhalf] at hlen
  rw [Nat.succ_mul, ← hh] at hj
  omega

end Sys2Proof.Machine
end

