-- ==== Sys2Proof/Laws/Reset.lean ====
section
/-! SUPPORT. The data spaces after reset are in canonical form and hold what rule R41 says. -/

namespace Sys2Proof.Machine

variable {α : Type} (A : Arith α) (m : Nat) (preload : Bool) (draws : Nat)

theorem Engine.resetOf_x_wf (n : Nat) : (Engine.resetOf A m preload draws).x.wf n :=
  Cells.nil_wf n

theorem Engine.resetOf_y_wf (n : Nat) : (Engine.resetOf A m preload draws).y.wf n :=
  Cells.nil_wf n

theorem Engine.resetOf_sintbl_wf :
    (Engine.resetOf A m preload draws).sintbl.wf (Params.sineLen m) := by
  cases preload
  · exact Cells.nil_wf _
  · exact Cells.ofFn_wf _ _

theorem Engine.resetOf_bitrev_wf :
    (Engine.resetOf A m preload draws).bitrev.wf (Params.len m) := by
  cases preload
  · exact Cells.nil_wf _
  · exact Cells.ofFn_wf _ _

theorem Engine.resetOf_preloaded_sintbl {i : Nat} (h : i < Params.sineLen m) :
    (Engine.resetOf A m true draws).sintbl.read i = some (A.sinval m i) :=
  Cells.read_ofFn _ h

theorem Engine.resetOf_preloaded_bitrev {i : Nat} (h : i < Params.len m) :
    (Engine.resetOf A m true draws).bitrev.read i = some (rev m i) :=
  Cells.read_ofFn _ h

end Sys2Proof.Machine
end

