-- ==== Sys2Proof/Laws/Run.lean ====
section
/-! SUPPORT. Runs of a host program (rule R302): a run that has ended stays as it is, so it ends in one
state, and no run goes both right and wrong. -/

namespace Sys2Proof.Machine

/-! ## Runs of any machine -/

section AnyMachine

variable {M : Host.Core} {n m k : Nat} {s t : M.State}

theorem run_succ_of_next (h : M.step s = .next t) : M.run (n + 1) s = M.run n t := by
  rw [Host.Core.run, h]

theorem run_succ_of_fault {f : M.Fault} (h : M.step s = .fault f) :
    M.run (n + 1) s = .fault f := by
  rw [Host.Core.run, h]

theorem run_succ_of_refused {r : M.Refusal} (h : M.step s = .refused r) :
    M.run (n + 1) s = .refused r := by
  rw [Host.Core.run, h]

/-- A run is a first part and then the rest of it. -/
theorem run_add (h : M.run n s = .next t) : M.run (n + k) s = M.run k t := by
  induction n generalizing s with
  | zero => cases h; rw [Nat.zero_add]
  | succ n ih =>
    cases hs : M.step s with
    | next u =>
      rw [run_succ_of_next hs] at h
      rw [Nat.add_right_comm, run_succ_of_next hs, ih h]
    | fault f => exact nomatch (run_succ_of_fault hs).symm.trans h
    | refused r => exact nomatch (run_succ_of_refused hs).symm.trans h

/-- A run that has gone on for some steps had gone on for fewer. -/
theorem run_next_of_le (h : M.run m s = .next t) (hn : n ≤ m) : ∃ u, M.run n s = .next u := by
  induction n generalizing s m with
  | zero => exact ⟨s, rfl⟩
  | succ n ih =>
    obtain ⟨m, rfl⟩ := Nat.exists_eq_add_of_le' (Nat.le_trans (Nat.succ_pos n) hn)
    cases hs : M.step s with
    | next u =>
      rw [run_succ_of_next hs] at h ⊢
      exact ih h (Nat.le_of_succ_le_succ hn)
    | fault f => exact nomatch (run_succ_of_fault hs).symm.trans h
    | refused r => exact nomatch (run_succ_of_refused hs).symm.trans h

end AnyMachine

/-! ## The end of a host program's run -/

/-- With the run ended the machine waits (log entry 19). -/
theorem State.Ended.step_eq {s : State} (h : s.Ended) : step s = .next s := by
  obtain ⟨ha, hp, h⟩ := h
  have hb : s.phase.busy = false := by rcases h with h | h <;> rw [h] <;> rfl
  simp [step, State.fetch, ha, hp, hb]

theorem State.Ended.run_eq {s : State} (h : s.Ended) : ∀ n, core.run n s = .next s
  | 0 => rfl
  | n + 1 => (run_succ_of_next (M := core) h.step_eq).trans (h.run_eq n)

/-- Once a run has ended it stays where it is, however long it is looked at. -/
theorem State.Ended.run_of_le {s t : State} {n m : Nat} (ht : t.Ended)
    (h : core.run n s = .next t) (hm : n ≤ m) : core.run m s = .next t := by
  obtain ⟨k, rfl⟩ := Nat.exists_eq_add_of_le hm
  exact (run_add h).trans (ht.run_eq k)

/-- A run ends in one state. -/
theorem State.Reaches.ended_unique {s t u : State} (ht : s.Reaches t) (hu : s.Reaches u)
    (he : t.Ended) (hf : u.Ended) : t = u := by
  obtain ⟨n, hn⟩ := ht
  obtain ⟨m, hm⟩ := hu
  exact Host.Outcome.next.inj ((he.run_of_le hn (Nat.le_max_left n m)).symm.trans
    (hf.run_of_le hm (Nat.le_max_right n m)))

/-- A run that goes right does not go wrong (rule R302). -/
theorem State.GoesRight.not_goesWrong {s : State} (h : s.GoesRight) : ¬s.GoesWrong := by
  obtain ⟨t, ⟨n, hn⟩, hf⟩ := h
  have goes_on : ∀ m, ∃ u, core.run m s = .next u := fun m =>
    run_next_of_le (hf.1.run_of_le hn (Nat.le_max_left n m)) (Nat.le_max_right n m)
  rintro (⟨u, hu, he, hnf⟩ | ⟨m, r, hm⟩ | ⟨m, f, hm⟩)
  · exact hnf (State.Reaches.ended_unique ⟨n, hn⟩ hu hf.1 he ▸ hf)
  · obtain ⟨u, hu⟩ := goes_on m
    exact nomatch hm.symm.trans hu
  · obtain ⟨u, hu⟩ := goes_on m
    exact nomatch hm.symm.trans hu

end Sys2Proof.Machine
end

