-- ==== Sys2Proof/Tests/Slice0.lean ====
section
/-! SUPPORT. Tests: words of the encoding and single steps with results from the spec's rules and
vectors (named in each docstring), and for every statement with hypotheses a witness that meets
them together, clause by clause. -/

namespace Sys2Proof.Tests

open Sys2Proof Sys2Proof.Machine

/-! ## Helpers -/

/-- The next state, if there is one. -/
def next {σ φ ρ : Type} : Host.Outcome σ φ ρ → Option σ
  | .next s => some s
  | .fault _ => none
  | .refused _ => none

theorem of_runs {σ φ ρ : Type} {r : Host.Outcome σ φ ρ} (h : (next r).isSome = true) :
    ∃ t, r = .next t := by
  cases r with
  | next t => exact ⟨t, rfl⟩
  | fault f => simp [next] at h
  | refused f => simp [next] at h

/-- A preloaded engine with zeros in both buffers, idle. -/
def engine {α : Type} (A : Arith α) (m : Nat) : Engine α :=
  { Engine.resetOf A m true 0 with
    x := Cells.ofFn (Params.len m) fun _ => A.zero
    y := Cells.ofFn (Params.len m) fun _ => A.zero }

/-- The same engine at a position of the sequencer. -/
def engineAt {α : Type} (A : Arith α) (m : Nat) (p : Phase) (i j k k2 d h : Nat) : Engine α :=
  { engine A m with phase := p, i := i, j := j, k := k, k2 := k2, d := d, h := h }

/-- The machine around an engine, with transactions to come. -/
def machine (e : Engine F64) (pending : List Txn) : State :=
  { toEngine := e, pending := pending, reply := .nothing }

/-- An idle, preloaded, populated machine. -/
def idle (m : Nat) : State := machine (engine Arith.binary64 m) []

/-- A populated machine at a position of the sequencer. -/
def at' (m : Nat) (p : Phase) (i j k k2 d h : Nat) : State :=
  machine (engineAt Arith.binary64 m p i j k k2 d h) []

/-- A machine that has faulted. -/
def halted (m : Nat) : State := machine ((engine Arith.binary64 m).raise .badAccess) []

/-- An instance without preloaded tables, right after reset. -/
def bare (m : Nat) : State := State.ofReset m false

theorem engine_ready {α : Type} (A : Arith α) (m : Nat) : (engine A m).Ready := by
  refine ⟨rfl, rfl, ?_⟩
  have hp : ∀ i < Params.len m, ∃ v,
      (Cells.ofFn (Params.len m) fun _ => A.zero).read i = some v :=
    fun i hi => ⟨A.zero, Cells.read_ofFn (fun _ => A.zero) hi⟩
  simp only [Engine.populated, Bool.and_eq_true]
  exact ⟨Cells.populated_iff.2 hp, Cells.populated_iff.2 hp⟩

theorem engineAt_inv {α : Type} (A : Arith α) {m : Nat} {p : Phase} {i j k k2 d h : Nat}
    (hm : Params.admitted m = true) (hp : p ≠ .halt)
    (ok : (engineAt A m p i j k k2 d h).PhaseOk A) : (engineAt A m p i j k k2 d h).Inv A where
  admitted := hm
  x_wf := Cells.ofFn_wf _ _
  y_wf := Cells.ofFn_wf _ _
  sintbl_wf := Cells.ofFn_wf _ _
  bitrev_wf := Cells.ofFn_wf _ _
  halt_iff := ⟨fun h => absurd h hp, fun h => absurd rfl h⟩
  sine_valid := fun _ _ hi => Cells.read_ofFn _ hi
  rev_valid := fun _ _ hi => Cells.read_ofFn _ hi
  preload_valid := fun _ => ⟨rfl, rfl⟩
  phase_ok := ok

theorem engine_inv {α : Type} (A : Arith α) {m : Nat} (hm : Params.admitted m = true) :
    (engine A m).Inv A := engineAt_inv (p := .idle) A hm (by decide) trivial

/-! ## Well-formedness: every check refuses an ill-formed term -/

theorem test_word_is_no_element_of_a_buffer :
    (Instr.hwr .x 0#32 (.word 1#32)).wellFormed = false ∧
    (Instr.hwr .y 0#32 (.word 1#32)).wellFormed = false ∧
    (Instr.hwr .sintbl 0#32 (.word 1#32)).wellFormed = false := by decide

theorem test_num_is_no_word :
    (Instr.hwr .csr 0#32 (.num 2#64)).wellFormed = false ∧
    (Instr.hwr .bitrev 0#32 (.num 2#64)).wellFormed = false ∧
    (Instr.hwr .reserved5 0#32 (.num 2#64)).wellFormed = false ∧
    (Instr.hwr .reserved6 0#32 (.num 2#64)).wellFormed = false ∧
    (Instr.hwr .reserved7 0#32 (.num 2#64)).wellFormed = false := by decide

theorem test_well_formed_writes :
    (Instr.hwr .x 0#32 (.num 2#64)).wellFormed = true ∧
    (Instr.hwr .csr 0#32 (.word 2#32)).wellFormed = true := by decide

/-! ## Decoding: bits written out from the spec -/

/-- Rules R93 to R96. -/
theorem test_decode_commands :
    decode (.c 0b00000000000000000000000000000010#32) = .ok .mksin ∧
    decode (.c 0b00000000000000000000000000000100#32) = .ok .mkbrev ∧
    decode (.c 0b00000000000000000000000000000110#32) = .ok .xformFwd ∧
    decode (.c 0b00000000000000000000000000000111#32) = .ok .xformInv := by decide

/-- Rule R104 and vector V-E1. -/
theorem test_decode_illegal_words :
    decode (.c 0x00000000#32) = .error (.illegalCommand 0#32) ∧
    decode (.c 0x00000001#32) = .error (.illegalCommand 1#32) ∧
    decode (.c 0x00000003#32) = .error (.illegalCommand 3#32) ∧
    decode (.c 0x00000005#32) = .error (.illegalCommand 5#32) ∧
    decode (.c 0x00000008#32) = .error (.illegalCommand 8#32) ∧
    decode (.c 0x80000006#32) = .error (.illegalCommand 0x80000006#32) := by decide

/-- Rule R100. -/
theorem test_decode_phases :
    decode (.u 0b001#3) = .ok .sinw ∧ decode (.u 0b010#3) = .ok .brvs ∧
    decode (.u 0b011#3) = .ok .perm ∧ decode (.u 0b100#3) = .ok .twld ∧
    decode (.u 0b101#3) = .ok .bfly ∧ decode (.u 0b110#3) = .ok .norm ∧
    decode (.u 0b000#3) = .error (.noMicroOperation 0#3) ∧
    decode (.u 0b111#3) = .error (.noMicroOperation 7#3) := by decide

/-- Rule R98 and vector V-E4. -/
theorem test_decode_transactions :
    decode (.t ⟨0b01#2, 1#3, 3#32, 0x3FF8000000000000#64⟩) =
      .ok (.hwr .x 3#32 (.num 0x3FF8000000000000#64)) ∧
    decode (.t ⟨0b00#2, 2#3, 0#32, 0#64⟩) = .ok (.hrd .y 0#32) ∧
    decode (.t ⟨0b00#2, 0#3, 1#32, 0#64⟩) = .ok (.hrd .csr 1#32) ∧
    decode (.t ⟨0b01#2, 0#3, 0#32, 0x00000007#64⟩) = .ok (.hwr .csr 0#32 (.word 7#32)) ∧
    decode (.t ⟨0b10#2, 0#3, 0#32, 0#64⟩) = .ok .reset ∧
    decode (.t ⟨0b11#2, 0#3, 0#32, 0#64⟩) = .error .reservedKind := by decide

/-- Vector V-B8. -/
theorem test_decode_read_of_bitrev :
    decode (.t ⟨0b00#2, 4#3, 6#32, 0#64⟩) = .ok (.hrd .bitrev 6#32) := by decide

/-- Vectors V-T10 and V-T11 and rule R177: an infinite sample times a twiddle factor of either sign,
`0 · ∞`, `∞ − ∞`, and the signs of `x − x` and `−0 − 0`. -/
theorem test_ieee_exceptional :
    Ieee.mul 0 0x3FF0000000000000#64 0x7FF0000000000000#64 = 0x7FF0000000000000#64 ∧
    Ieee.mul 0 0xBFF0000000000000#64 0x7FF0000000000000#64 = 0xFFF0000000000000#64 ∧
    Ieee.mul 0x7FF8000000000000#64 0#64 0x7FF0000000000000#64 = 0x7FF8000000000000#64 ∧
    Ieee.sub 0x7FF8000000000000#64 0x7FF0000000000000#64 0x7FF0000000000000#64 =
      0x7FF8000000000000#64 ∧
    Ieee.sub 0 0x3FF0000000000000#64 0x7FF0000000000000#64 = 0xFFF0000000000000#64 ∧
    Ieee.sub 0 0xBFF0000000000000#64 0xBFF0000000000000#64 = 0#64 ∧
    Ieee.sub 0 0x8000000000000000#64 0#64 = 0x8000000000000000#64 := by decide +kernel

/-- Vector V-T10, `X = [1, 2, +inf, 4]`, its first butterfly: `C = 1`, `S = +0` and an infinite odd
sample give infinite `X` outputs and NaN `Y` outputs (log entry 30). -/
theorem test_infinite_odd_sample :
    let b := butterfly Arith.binary64 (fun _ => 0x7FF8000000000000#64) 0x3FF0000000000000#64 0#64
      0x3FF0000000000000#64 0x7FF0000000000000#64 0#64 0#64
    b.xi = 0x7FF0000000000000#64 ∧ b.xk = 0xFFF0000000000000#64 ∧
    Ieee.isNaN b.yi = true ∧ Ieee.isNaN b.yk = true := by decide +kernel

/-- Rule R61: the eight space codes. -/
theorem test_decode_spaces :
    decodeSpace 0#3 = .csr ∧ decodeSpace 1#3 = .x ∧ decodeSpace 2#3 = .y ∧
    decodeSpace 3#3 = .sintbl ∧ decodeSpace 4#3 = .bitrev ∧ decodeSpace 5#3 = .reserved5 ∧
    decodeSpace 6#3 = .reserved6 ∧ decodeSpace 7#3 = .reserved7 := by decide

/-- The words of the opcode table; in one byte `SINW` and `HWR`, `BRVS` and `RESET` have the same
word, and the transaction is read (log entry 11). -/
theorem test_table_words :
    decodeTableWord 32 2 = some .mksin ∧ decodeTableWord 32 4 = some .mkbrev ∧
    decodeTableWord 32 6 = some .xformFwd ∧ decodeTableWord 32 7 = some .xformInv ∧
    decodeTableWord 3 1 = some .sinw ∧ decodeTableWord 3 2 = some .brvs ∧
    decodeTableWord 8 3 = some .perm ∧ decodeTableWord 8 4 = some .twld ∧
    decodeTableWord 8 5 = some .bfly ∧ decodeTableWord 8 6 = some .norm ∧
    decodeTableWord 8 0 = some (.hrd .csr 0#32) ∧
    decodeTableWord 8 1 = some (.hwr .csr 0#32 (.word 0#32)) ∧
    decodeTableWord 8 2 = some .reset ∧ decodeTableWord 8 7 = none := by decide

/-- A command word, a value of `PHASE` and a transaction placed for the next fetch. -/
theorem test_placed_words_are_fetched :
    (next (step (State.reset.withFetchWord 32 2))).map (fun t => t.phase) = some .sinb ∧
    (next (step (State.reset.withFetchWord 3 2))).map (fun t => (t.bitrev.read 0, t.bi)) =
      some (some 0, 1) ∧
    (next (step (State.reset.withFetchWord 8 2))).map (fun t => t.phase) = some .idle := by
  decide +kernel

/-! ## Single steps -/

/-- Rule R123. -/
theorem test_mksin_starts :
    (next (exec .mksin (bare 2))).map (fun t => (t.phase, t.si)) = some (.sinb, 0) := by decide

/-- Rule R141; `SINV` is not needed. -/
theorem test_mkbrev_starts :
    (next (exec .mkbrev (bare 2))).map (fun t => (t.phase, t.bi, t.bj)) = some (.brvb, 0, 0) := by
  decide

/-- Rule R124: `M = 3`, `si = 1`. -/
theorem test_sinw_example :
    (next (exec .sinw { bare 3 with phase := .sinb, si := 1 })).map
      (fun t => (t.sintbl.read 1, t.si, t.phase, t.sinv)) =
      some (some 0x3FE6A09E667F3BCD#64, 2, .sinb, false) := by decide +kernel

/-- Vector V-S1, last entry: the table becomes valid in the same step (rule R125). -/
theorem test_sinw_last :
    (next (exec .sinw { bare 2 with phase := .sinb, si := 4 })).map
      (fun t => (t.sintbl.read 4, t.statusWord, t.phase)) =
      some (some 0#64, 0x00000001#32, .idle) := by decide +kernel

/-- Rule R142: `M = 3`, `bi = 3`, `bj = 6`. -/
theorem test_brvs_example :
    (next (exec .brvs { bare 3 with phase := .brvb, bi := 3, bj := 6 })).map
      (fun t => (t.bitrev.read 3, t.bj, t.bk, t.bi, t.phase)) =
      some (some 6, 1, 1, 4, .brvb) := by decide +kernel

/-- Rules R145 and R149: no advance after the last entry. -/
theorem test_brvs_last :
    (next (exec .brvs { bare 3 with phase := .brvb, bi := 7, bj := 7 })).map
      (fun t => (t.bitrev.read 7, t.bj, t.brv, t.phase)) =
      some (some 7, 7, true, .idle) := by decide +kernel

/-- Rule R243: `NOT_READY` with no table valid and with the sine table only (V-E2). -/
theorem test_xform_before_tables :
    (next (exec .xformFwd (bare 2))).map (fun t => (t.statusWord, t.phase)) =
      some (0x00000008#32, .halt) ∧
    (next (exec .xformInv { bare 2 with sinv := true })).map (fun t => (t.statusWord, t.phase)) =
      some (0x00000009#32, .halt) := by decide +kernel

/-- Rule R162. -/
theorem test_xform_starts :
    (next (exec .xformFwd (idle 2))).map (fun t => (t.phase, t.dir, t.i)) =
      some (.perm, .fwd, 0) ∧
    (next (exec .xformInv (idle 2))).map (fun t => (t.phase, t.dir, t.i)) =
      some (.perm, .inv, 0) := by decide +kernel

/-- A buffer of eight elements. -/
def eight (a b c d e f g h : F64) : Cells F64 :=
  [(0, a), (1, b), (2, c), (3, d), (4, e), (5, f), (6, g), (7, h)]

/-- Rule R165: `M = 3`, elements 1 and 4 are exchanged at `i = 1`. -/
theorem test_perm_swaps :
    (next (exec .perm { at' 3 .perm 1 0 0 0 0 0 with x := eight 10 11 12 13 14 15 16 17 })).map
      (fun t => (t.x, t.i)) = some (eight 10 14 12 13 11 15 16 17, 2) := by decide +kernel

/-- Rule R165: nothing moves at `i = 4`. -/
theorem test_perm_does_not_swap_back :
    (next (exec .perm { at' 3 .perm 4 0 0 0 0 0 with x := eight 10 14 12 13 11 15 16 17 })).map
      (fun t => (t.x, t.i)) = some (eight 10 14 12 13 11 15 16 17, 5) := by decide +kernel

/-- Rule R167: `M = 3`, stage `k = 4`, group `j = 1`, forward. -/
theorem test_twld_forward :
    (next (exec .twld (at' 3 .twld 0 1 4 8 1 1))).map (fun t => (t.rc, t.rs, t.i, t.phase)) =
      some (0x3FE6A09E667F3BCD#64, 0x3FE6A09E667F3BCD#64, 1, .bfly) := by decide +kernel

/-- Rules R167 and R177: `h = 0`, inverse: `C = 1`, `S = -0`. -/
theorem test_twld_inverse :
    (next (exec .twld { at' 3 .twld 0 0 1 2 4 0 with dir := .inv })).map
      (fun t => (t.rc, t.rs)) = some (0x3FF0000000000000#64, 0x8000000000000000#64) := by
  decide +kernel

/-- Vector V-T14, the state before the step. -/
def beforeButterfly (s : F64) : State :=
  { at' 3 .bfly 1 1 4 8 1 1 with
    rc := 0x3FE6A09E667F3BCD#64
    rs := s
    x := eight 0 0x3FF0000000000000#64 0 0 0 0x4008000000000000#64 0 0
    y := eight 0 0x4000000000000000#64 0 0 0 0x4010000000000000#64 0 0 }

/-- Vector V-T14, forward. -/
theorem test_bfly_forward :
    (next (exec .bfly (beforeButterfly 0x3FE6A09E667F3BCD#64))).map
      (fun t => [t.rdx, t.rdy] ++ (t.x ++ t.y).map Prod.snd) =
    some [0x4013CC8A99AF5454#64, 0x3FE6A09E667F3BCC#64,
      0, 0x4017CC8A99AF5454#64, 0, 0, 0, 0xC00F9915335EA8A8#64, 0, 0,
      0, 0x4005A827999FCEF3#64, 0, 0, 0, 0x3FF4AFB0CCC0621A#64, 0, 0] := by decide +kernel

/-- Vector V-T14, inverse; then the next group of the stage (rule R173). -/
theorem test_bfly_inverse :
    (next (exec .bfly (beforeButterfly 0xBFE6A09E667F3BCD#64))).map
      (fun t => ([t.rdx, t.rdy] ++ (t.x ++ t.y).map Prod.snd, t.phase, t.j, t.h)) =
    some ([0xBFE6A09E667F3BCC#64, 0x4013CC8A99AF5454#64,
      0, 0x3FD2BEC333018868#64, 0, 0, 0, 0x3FFB504F333F9DE6#64, 0, 0,
      0, 0x401BCC8A99AF5454#64, 0, 0, 0, 0xC0079915335EA8A8#64, 0, 0], .twld, 2, 2) := by
  decide +kernel

/-- Vector V-T12, two rows in one step. -/
theorem test_norm_subnormal :
    (next (exec .norm { at' 2 .norm 1 0 0 0 0 0 with
      x := [(0, 0), (1, 6#64), (2, 0), (3, 0)]
      y := [(0, 0), (1, 2#64), (2, 0), (3, 0)] })).map
      (fun t => (t.x.read 1, t.y.read 1, t.i, t.phase)) =
      some (some 2#64, some 0#64, 2, .norm) := by decide +kernel

/-- Vector V-T12, last row, at the last index: the command ends. -/
theorem test_norm_last :
    (next (exec .norm { at' 2 .norm 3 0 0 0 0 0 with
      x := [(0, 0), (1, 0), (2, 0), (3, 0x4018000000000000#64)] })).map
      (fun t => (t.x.read 3, t.phase)) = some (some 0x3FF8000000000000#64, .idle) := by
  decide +kernel

/-- Rule R221: `M = 3`, `RD BITREV[3]`; vector V-E3: `CFG` of `M = 3`, `PRELOAD = 1`. -/
theorem test_hrd_example :
    (next (exec (.hrd .bitrev 3#32) (idle 3))).map (fun t => t.reply) =
      some (.ok (.word 0x00000006#32)) ∧
    (next (exec (.hrd .csr 2#32) (idle 3))).map (fun t => t.reply) =
      some (.ok (.word 0x00000103#32)) := by decide +kernel

/-- Program P6, line 10: one past the end of the sine table; V-E2: `BAD_ACCESS`, both valid. -/
theorem test_hrd_bad_access :
    (next (exec (.hrd .sintbl 5#32) (idle 2))).map (fun t => (t.reply, t.statusWord, t.phase)) =
      some (.err, 0x0000000F#32, .halt) := by decide +kernel

/-- Rule R222: `WR X[0], 1.5`, then `RD X[0]`. -/
theorem test_hwr_example :
    ((next (exec (.hwr .x 0#32 (.num 0x3FF8000000000000#64)) (bare 2))).bind
      fun t => next (exec (.hrd .x 0#32) t)).map (fun t => t.reply) =
      some (.ok (.num 0x3FF8000000000000#64)) := by decide +kernel

/-- Program P6, line 4: `CMD 0x00000003` with both tables valid. -/
theorem test_hwr_illegal_command :
    (next (exec (.hwr .csr 0#32 (.word 3#32)) (idle 2))).map (fun t => (t.statusWord, t.phase)) =
      some (0x00000007#32, .halt) := by decide +kernel

/-- Rule R281: after a `NOT_READY` fault with `PRELOAD = 0`. -/
theorem test_reset_after_fault :
    ((next (exec .xformFwd (bare 2))).bind fun t => next (exec .reset t)).map
      (fun t => (t.statusWord, t.phase)) = some (0x00000000#32, .idle) := by decide +kernel

/-- Rule R222 gives no meaning to data of the wrong type; a term the decoder never gives. -/
theorem test_ill_typed_write_is_refused :
    exec (.hwr .x 0#32 (.word 1#32)) (bare 2) = .refused .illTypedData := rfl

/-! ## Witnesses: for every statement with hypotheses, states and operands that meet them -/

/-- The four busy phases of a transform and the two of the builds, with the invariant. -/
theorem test_witness_busy_invariant :
    (at' 2 .sinb 0 0 0 0 0 0).Inv ∧ (at' 2 .brvb 0 0 0 0 0 0).Inv ∧
    (at' 2 .perm 3 0 0 0 0 0).Inv ∧ (at' 2 .twld 0 1 2 4 1 1).Inv ∧
    (at' 2 .bfly 1 1 2 4 1 1).Inv ∧ (at' 2 .norm 3 0 0 0 0 0).Inv := by
  have stage : (engineAt Arith.binary64 2 .twld 0 1 2 4 1 1).InStage :=
    ⟨1, by decide, by decide, by decide, by decide, by decide, by decide⟩
  refine ⟨engineAt_inv _ (by decide) (by decide) ?_, engineAt_inv _ (by decide) (by decide) ?_,
    engineAt_inv _ (by decide) (by decide) ?_, engineAt_inv _ (by decide) (by decide) ?_,
    engineAt_inv _ (by decide) (by decide) ?_, engineAt_inv _ (by decide) (by decide) ?_⟩
  · exact ⟨by decide, fun i hi => absurd hi (Nat.not_lt_zero i)⟩
  · exact ⟨by decide, by decide, fun i hi => absurd hi (Nat.not_lt_zero i)⟩
  · exact ⟨engine_ready _ 2, by decide⟩
  · exact ⟨engine_ready _ 2, stage⟩
  · exact ⟨engine_ready _ 2, stage, 0, by decide, by decide⟩
  · exact ⟨engine_ready _ 2, by decide, rfl⟩

/-- DecodeInvertsEncode. -/
theorem test_witness_wellFormed :
    (Instr.hwr .y 0xFFFFFFFF#32 (.num 0xFFFFFFFFFFFFFFFF#64)).wellFormed = true ∧
    (Instr.hwr .reserved7 0#32 (.word 0xFFFFFFFF#32)).wellFormed = true := by decide

/-- DecodedInstructionsAreWellFormed, each clause. -/
theorem test_witness_decoded :
    decode (.t ⟨0b01#2, 7#3, 0#32, 0xFFFFFFFF00000001#64⟩) =
      .ok (.hwr .reserved7 0#32 (.word 1#32)) ∧
    decode (.c 7#32) = .ok .xformInv ∧ decode (.u 6#3) = .ok .norm := by decide

/-- HostTransactionsDecode, second clause and the three ways of the third. -/
theorem test_witness_host_transactions :
    decodeCommand 5#32 = none ∧
    (⟨0b00#2, 0#3, 0#32, 0#64⟩ : Txn).kind ≠ 0b01#2 ∧
    (⟨0b01#2, 1#3, 0#32, 0#64⟩ : Txn).space ≠ 0#3 ∧
    (⟨0b01#2, 0#3, 1#32, 0#64⟩ : Txn).index ≠ 0#32 := by decide

/-- The idle machine with transactions to come. -/
def withPending (pending : List Txn) : State := machine (engine Arith.binary64 2) pending

/-- StepRunsTheDecodedInstruction, each clause. -/
theorem test_witness_step :
    Params.admitted (at' 2 .norm 0 0 0 0 0 0).m = true ∧
    (at' 2 .norm 0 0 0 0 0 0).phase.busy = true ∧
    decode (.u (at' 2 .norm 0 0 0 0 0 0).phase.code) = .ok .norm ∧
    Params.admitted (withPending [⟨2#2, 0#3, 0#32, 0#64⟩]).m = true ∧
    (withPending [⟨2#2, 0#3, 0#32, 0#64⟩]).phase.busy = false ∧
    decodeHost ⟨2#2, 0#3, 0#32, 0#64⟩ = .ok .reset ∧
    (withPending [⟨3#2, 0#3, 0#32, 0#64⟩]).phase.busy = false ∧
    (⟨3#2, 0#3, 0#32, 0#64⟩ : Txn).kind = 0b11#2 ∧
    Params.admitted (halted 2).m = true ∧ (halted 2).phase.busy = false ∧
    (halted 2).pending = [] := by decide

/-- UnadmittedLengthsAreRefused: `M = 1` and the ends of the admitted range (rule R9). -/
theorem test_witness_lengths :
    Params.admitted (bare 1).m = false ∧ Params.admitted 256 = false ∧
    Params.admitted 0 = true ∧ Params.admitted 2 = true ∧ Params.admitted 255 = true ∧
    Params.ofLength 1 = some 0 ∧ Params.ofLength 4 = some 2 ∧
    Params.ofLength 0 = none ∧ Params.ofLength 2 = none ∧ Params.ofLength 3 = none := by
  decide +kernel

/-- A raw length that is no admitted power of two, and one that is. -/
theorem test_witness_raw_length :
    (¬∃ m : Nat, 2 = 2 ^ m ∧ (m = 0 ∨ 2 ≤ m ∧ m ≤ 255)) ∧ 1 = 2 ^ 0 ∧ 4 = 2 ^ 2 := by
  refine ⟨?_, by decide, by decide⟩
  rintro ⟨m, h, rfl | ⟨h1, -⟩⟩
  · exact absurd h (by decide)
  · have : 2 ^ 2 ≤ 2 ^ m := Nat.pow_le_pow_right (by decide) h1
    omega

/-- ResetStateIsAsSpecified and ResetMeetsTheInvariant: both values of `PRELOAD`. -/
theorem test_witness_reset :
    Params.admitted (State.ofReset 0 true).m = true ∧ (State.ofReset 0 true).preload = true ∧
    0 < Params.sineLen 0 ∧ Params.admitted State.reset.m = true := by decide

/-- StepKeepsTheInvariant: a waiting machine, and a host write that starts a command. -/
theorem test_witness_step_keeps :
    (idle 2).Inv ∧ step (idle 2) = .next (idle 2) ∧
    (withPending [Txn.writeCmd 6#32]).Inv ∧
    ∃ t, step (withPending [Txn.writeCmd 6#32]) = .next t ∧ t.phase = .perm :=
  ⟨engine_inv _ (by decide), rfl, engine_inv _ (by decide), _, rfl, rfl⟩

/-- RunningCommandsNeverStop and, of the engine, EveryMicroOperationCountsDown: `Inv` in a busy phase
(`test_witness_busy_invariant` has the others). -/
theorem test_witness_busy :
    (at' 2 .bfly 1 1 2 4 1 1).Inv ∧ (at' 2 .bfly 1 1 2 4 1 1).phase.busy = true ∧
    (engineAt Arith.binary64 2 .bfly 1 1 2 4 1 1).Inv Arith.binary64 :=
  ⟨test_witness_busy_invariant.2.2.2.2.1, rfl, test_witness_busy_invariant.2.2.2.2.1⟩

/-- CommandsTakeTheirCountOfSteps (each start), MksinBuildsTheSineTable,
MkbrevBuildsTheBitReversalTable and TransformSmallStepIsBigStep, over any number type, for the
smallest and another length. -/
theorem test_witness_commands {α : Type} (A : Arith α) :
    (engine A 0).Inv A ∧ (engine A 2).Inv A ∧ (engine A 2).phase = .idle ∧
    (engine A 2).sinv = true ∧ (engine A 2).brv = true ∧ (engine A 2).Ready ∧
    (∃ e1, (engine A 2).startXform .inv = .next e1 ∧ e1.phase = .perm) ∧
    ∃ e1, (engine A 2).startXform .fwd = .next e1 ∧ e1.phase = .perm :=
  ⟨engine_inv A (by decide), engine_inv A (by decide), rfl, rfl, rfl, engine_ready A 2,
    ⟨_, rfl, rfl⟩, ⟨_, rfl, rfl⟩⟩

/-- The builds from an instance whose tables are not valid. -/
theorem test_witness_builds_from_bare :
    (bare 2).phase = .idle ∧ (bare 2).sinv = false ∧ (bare 2).brv = false ∧
    Params.admitted (bare 2).m = true := by decide

/-- TableBuildsStart, XformStartsWhenReady, and the elements that hold a value. -/
theorem test_witness_idle :
    Params.admitted (idle 2).m = true ∧ (idle 2).phase = .idle ∧ (idle 2).sinv = true ∧
    (idle 2).brv = true ∧ (idle 2).x.read 3 = some 0#64 ∧
    (∀ i < (idle 2).len, (∃ v, (idle 2).x.read i = some v) ∧ ∃ v, (idle 2).y.read i = some v) := by
  refine ⟨rfl, rfl, rfl, rfl, rfl, fun i hi => ?_⟩
  exact ⟨⟨_, Cells.read_ofFn (fun _ => Arith.binary64.zero) hi⟩,
    ⟨_, Cells.read_ofFn (fun _ => Arith.binary64.zero) hi⟩⟩

/-- XformBeforeTablesRaisesNotReady, both clauses. -/
theorem test_witness_not_ready :
    Params.admitted (bare 0).m = true ∧ (bare 0).phase = .idle ∧ (bare 0).sinv = false ∧
    (idle 2).Inv ∧ (idle 2).preload = true :=
  ⟨rfl, rfl, rfl, engine_inv _ (by decide), rfl⟩

/-- XformOnUnpopulatedBufferIsRefused: a preloaded instance with only `Y[3]` not written. -/
theorem test_witness_unpopulated :
    let s : State := { idle 2 with y := [(0, 0), (1, 0), (2, 0)] }
    Params.admitted s.m = true ∧ s.phase = .idle ∧ s.sinv = true ∧ s.brv = true ∧
    3 < s.len ∧ s.y.read 3 = none := by decide

/-- SinwWritesOneEntry: the first and the last entry. -/
theorem test_witness_sinw :
    Params.admitted (at' 2 .sinb 0 0 0 0 0 0).m = true ∧ (at' 2 .sinb 0 0 0 0 0 0).phase = .sinb ∧
    (at' 2 .sinb 0 0 0 0 0 0).si < (at' 2 .sinb 0 0 0 0 0 0).sineLen ∧
    4 + 1 = (at' 2 .sinb 0 0 0 0 0 0).sineLen := by decide

/-- BrvsRecordsAndAdvances, both clauses. -/
theorem test_witness_brvs :
    let s : State := { bare 2 with phase := .brvb, bi := 3, bj := 3 }
    let t : State := { bare 2 with phase := .brvb, bi := 2, bj := 1 }
    Params.admitted s.m = true ∧ s.phase = .brvb ∧ s.bi < s.len ∧ s.bi + 1 = s.len ∧
    Params.admitted t.m = true ∧ t.phase = .brvb ∧ t.bi < t.len ∧ t.bi + 1 < t.len ∧
    t.bj + 1 < t.len := by decide

/-- BrNextIsTheReversedIncrement: the last index with a successor (vector V-B6, `N = 8`). -/
theorem test_witness_brNext : 6 + 1 < 2 ^ 3 ∧ brNext 3 3 = some (7, 4) := by decide

/-- BitReversalIsSelfInverse: `M = 0` and `M = 1` and the last index. -/
theorem test_witness_rev : 0 < 2 ^ 0 ∧ 1 < 2 ^ 1 ∧ 1 ≤ 1 ∧ 0 < 1 ∧ 7 < 2 ^ 3 := by decide

/-- PermSwapsWhenSmaller: with and without a swap, and at the last index. -/
theorem test_witness_perm :
    Params.admitted (at' 2 .perm 1 0 0 0 0 0).m = true ∧ (at' 2 .perm 1 0 0 0 0 0).phase = .perm ∧
    1 < (at' 2 .perm 1 0 0 0 0 0).revAt 1 ∧ ¬2 < (at' 2 .perm 2 0 0 0 0 0).revAt 2 ∧
    3 + 1 = (at' 2 .perm 3 0 0 0 0 0).len := by decide

/-- TwldLoadsTheTwiddleFactor and the first clause of TwiddleFactorIsTheRomPair. -/
theorem test_witness_twld :
    Params.admitted (at' 2 .twld 0 1 2 4 1 1).m = true ∧ (at' 2 .twld 0 1 2 4 1 1).phase = .twld ∧
    1 + (at' 2 .twld 0 1 2 4 1 1).quarter < (at' 2 .twld 0 1 2 4 1 1).sineLen ∧
    (at' 2 .twld 0 1 2 4 1 1).Inv :=
  ⟨rfl, rfl, by decide, test_witness_busy_invariant.2.2.2.1⟩

/-- TwiddleFactorIsTheRomPair, second clause: over exact reals, with a twiddle index that is
not 0. -/
theorem test_witness_twld_real (draw : Nat → Nat → ℝ) :
    (engineAt (Arith.real draw) 3 .twld 0 1 4 8 1 1).Inv (Arith.real draw) ∧
    (engineAt (Arith.real draw) 3 .twld 0 1 4 8 1 1).phase = .twld :=
  ⟨engineAt_inv _ (by decide) (by decide) ⟨engine_ready _ 3, 2, Nat.lt_of_sub_eq_succ rfl, rfl,
    rfl, rfl, Nat.lt_of_sub_eq_succ rfl, rfl⟩, rfl⟩

/-- BflyComputesOneButterfly: the next butterfly, the next group and the next stage. -/
theorem test_witness_bfly :
    let a := at' 2 .bfly 0 0 1 2 2 0
    let b := at' 2 .bfly 0 0 2 4 1 0
    let c := at' 2 .bfly 2 0 1 2 2 0
    Params.admitted a.m = true ∧ a.phase = .bfly ∧ a.i + a.k < a.len ∧ a.i + a.k2 < a.len ∧
    b.i + b.k < b.len ∧ ¬b.i + b.k2 < b.len ∧ b.j + 1 < b.k ∧
    c.i + c.k < c.len ∧ ¬c.i + c.k2 < c.len ∧ ¬c.j + 1 < c.k := by decide

/-- NormDividesOneIndex: the first and the last index. -/
theorem test_witness_norm :
    Params.admitted (at' 2 .norm 0 0 0 0 0 0).m = true ∧ (at' 2 .norm 0 0 0 0 0 0).phase = .norm ∧
    (at' 2 .norm 0 0 0 0 0 0).i < (at' 2 .norm 0 0 0 0 0 0).len ∧
    (at' 2 .norm 3 0 0 0 0 0).i < (at' 2 .norm 3 0 0 0 0 0).len := by decide

/-- SequencerFollowsTheTransitionTable: every row of rule R173 is taken by some state. -/
theorem test_witness_sequencer :
    ((idle 2).phase = .idle ∧ (idle 2).Ready ∧ (∃ t, exec .xformFwd (idle 2) = .next t) ∧
      ∃ t, exec .xformInv (idle 2) = .next t) ∧
    (∃ t, 2 + 1 < (at' 2 .perm 2 0 0 0 0 0).len ∧ exec .perm (at' 2 .perm 2 0 0 0 0 0) = .next t) ∧
    (∃ t, 3 + 1 = (at' 2 .perm 3 0 0 0 0 0).len ∧ exec .perm (at' 2 .perm 3 0 0 0 0 0) = .next t) ∧
    (∃ t, (at' 0 .perm 0 0 0 0 0 0).len = 1 ∧ (at' 0 .perm 0 0 0 0 0 0).dir = .fwd ∧
      exec .perm (at' 0 .perm 0 0 0 0 0 0) = .next t) ∧
    (∃ t, exec .perm { at' 0 .perm 0 0 0 0 0 0 with dir := .inv } = .next t) ∧
    (∃ t, exec .twld (at' 2 .twld 0 1 2 4 1 1) = .next t) ∧
    (∃ t, 0 + 2 < (at' 2 .bfly 0 0 1 2 2 0).len ∧
      exec .bfly (at' 2 .bfly 0 0 1 2 2 0) = .next t) ∧
    (∃ t, (at' 2 .bfly 0 0 2 4 1 0).len ≤ 0 + 4 ∧ 0 + 1 < 2 ∧
      exec .bfly (at' 2 .bfly 0 0 2 4 1 0) = .next t) ∧
    (∃ t, (at' 2 .bfly 2 0 1 2 2 0).len ≤ 2 + 2 ∧ 0 + 1 = 1 ∧ 2 < (at' 2 .bfly 2 0 1 2 2 0).len ∧
      exec .bfly (at' 2 .bfly 2 0 1 2 2 0) = .next t) ∧
    (∃ t, 4 = (at' 2 .bfly 1 1 2 4 1 1).len ∧ (at' 2 .bfly 1 1 2 4 1 1).dir = .fwd ∧
      exec .bfly (at' 2 .bfly 1 1 2 4 1 1) = .next t) ∧
    (∃ t, exec .bfly { at' 2 .bfly 1 1 2 4 1 1 with dir := .inv } = .next t) ∧
    (∃ t, exec .norm (at' 2 .norm 2 0 0 0 0 0) = .next t) ∧
    (∃ t, exec .norm (at' 2 .norm 3 0 0 0 0 0) = .next t) ∧
    (at' 2 .norm 3 0 0 0 0 0).Inv ∧ (at' 2 .norm 3 0 0 0 0 0).phase.busy = true ∧
    ∃ t, step (at' 2 .norm 3 0 0 0 0 0) = .next t :=
  ⟨⟨rfl, engine_ready _ 2, ⟨_, rfl⟩, ⟨_, rfl⟩⟩, ⟨_, by decide, rfl⟩, ⟨_, by decide, rfl⟩,
    ⟨_, rfl, rfl, rfl⟩, ⟨_, rfl⟩, ⟨_, rfl⟩, ⟨_, by decide, rfl⟩, ⟨_, by decide, by decide, rfl⟩,
    ⟨_, by decide, by decide, by decide, rfl⟩, ⟨_, rfl, rfl, rfl⟩, ⟨_, rfl⟩, ⟨_, rfl⟩, ⟨_, rfl⟩,
    test_witness_busy_invariant.2.2.2.2.2, rfl, ⟨_, rfl⟩⟩

/-- HrdReturnsReadableLocations, each clause at the last index, in `IDLE` and in `HALT`. -/
theorem test_witness_hrd :
    Params.admitted (idle 2).m = true ∧ (idle 2).phase = .idle ∧
    (3#32).toNat < (idle 2).len ∧ (idle 2).x.read (3#32).toNat = some 0#64 ∧
    (idle 2).y.read (3#32).toNat = some 0#64 ∧
    (4#32).toNat < (idle 2).sineLen ∧ (idle 2).sinv = true ∧
    (idle 2).sintbl.read (4#32).toNat = some 0#64 ∧ (idle 2).brv = true ∧
    (idle 2).bitrev.read (3#32).toNat = some 3 ∧ 3 < (idle 2).len ∧
    (halted 2).phase = .halt ∧ Params.admitted (halted 2).m = true := by decide +kernel

/-- HrdOfUnreadableLocationIsABadAccess, each alternative at its first index. -/
theorem test_witness_hrd_bad :
    Params.admitted (bare 2).m = true ∧ (bare 2).phase = .idle ∧
    (0#32 ≠ 1#32 ∧ 0#32 ≠ 2#32 ∧ 3#32 ≠ 1#32 ∧ 3#32 ≠ 2#32) ∧
    (bare 2).len ≤ (4#32).toNat ∧ (bare 2).sinv = false ∧ (bare 2).brv = false ∧
    (halted 2).sineLen ≤ (5#32).toNat ∧ (halted 2).phase = .halt := by decide +kernel

/-- HrdOfUnwrittenElementIsRefused: the last element, in `IDLE` and in `HALT`. -/
theorem test_witness_hrd_unwritten :
    Params.admitted (bare 2).m = true ∧ (bare 2).phase = .idle ∧ (3#32).toNat < (bare 2).len ∧
    (bare 2).x.read (3#32).toNat = none ∧ (bare 2).y.read (3#32).toNat = none ∧
    ({ bare 2 with phase := .halt, err := .notReady } : State).x.read (3#32).toNat = none := by
  decide

/-- HostReadsHaveNoSideEffect. -/
theorem test_witness_hrd_twice :
    (idle 2).readable .csr (1#32).toNat = true ∧ ∃ t, exec (.hrd .csr 1#32) (idle 2) = .next t :=
  ⟨by decide, _, rfl⟩

/-- HwrStoresOneElement: the last element of an empty buffer. -/
theorem test_witness_hwr :
    Params.admitted (bare 2).m = true ∧ (bare 2).phase = .idle ∧ (3#32).toNat < (bare 2).len := by
  decide

/-- IllegalCommandWordFaults: a word beside each legal one. -/
theorem test_witness_illegal :
    Params.admitted (bare 2).m = true ∧ (bare 2).phase = .idle ∧
    (5#32 ≠ 2#32 ∧ 5#32 ≠ 4#32 ∧ 5#32 ≠ 6#32 ∧ 5#32 ≠ 7#32) ∧
    (8#32 ≠ 2#32 ∧ 8#32 ≠ 4#32 ∧ 8#32 ≠ 6#32 ∧ 8#32 ≠ 7#32) := by decide

/-- HwrToUnwritableLocationIsABadAccess: the first index that cannot be written. -/
theorem test_witness_hwr_bad :
    Params.admitted (idle 2).m = true ∧ (idle 2).phase = .idle ∧ 1#32 ≠ 0#32 ∧
    (idle 2).len ≤ (4#32).toNat := by decide +kernel

/-- HaltIgnoresWritesAndCommands and ResetRestoresTheResetState in `HALT`. -/
theorem test_witness_halt :
    Params.admitted (halted 2).m = true ∧ (halted 2).phase = .halt ∧
    (halted 2).preload = true ∧ (bare 2).preload = false ∧ (bare 2).phase = .idle := by decide

/-- OnlyResetLeavesHalt: a step that changes nothing and a step that is a reset. -/
theorem test_witness_leave_halt :
    let s : State := { halted 2 with pending := [⟨2#2, 0#3, 0#32, 0#64⟩] }
    (halted 2).phase = .halt ∧ (∃ t, step (halted 2) = .next t) ∧
    s.phase = .halt ∧ ∃ t, step s = .next t :=
  ⟨rfl, ⟨_, rfl⟩, rfl, ⟨_, rfl⟩⟩

/-- HostHasNoMoveWhileBusy, both clauses. -/
theorem test_witness_no_move :
    Params.admitted (at' 2 .sinb 0 0 0 0 0 0).m = true ∧
    (at' 2 .sinb 0 0 0 0 0 0).phase.busy = true ∧
    ∃ t, step (at' 2 .sinb 0 0 0 0 0 0) = .next t :=
  ⟨rfl, rfl, ⟨_, rfl⟩⟩

/-- FaultsAreRaisedFromIdleAndPrecise, both clauses. -/
theorem test_witness_fault :
    (∃ t, step (withPending [Txn.writeCmd 3#32]) = .next t ∧
      (withPending [Txn.writeCmd 3#32]).err = .none ∧ t.err ≠ .none) ∧
    ∃ t, step (halted 2) = .next t ∧ (halted 2).phase ≠ .idle :=
  ⟨⟨_, rfl, rfl, by decide⟩, ⟨_, rfl, by decide⟩⟩

/-- ParametersNeverChange, SpacesAreWrittenByTheirOwnersOnly and ValidTablesStayUntilReset: an
instruction that is none of the excluded ones. -/
theorem test_witness_any_instruction :
    (idle 2).Inv ∧ (∃ t, exec .mksin (idle 2) = .next t) ∧ Instr.mksin ≠ .reset ∧
    (idle 2).sinv = true ∧ (idle 2).brv = true ∧ Instr.mksin ≠ .sinw ∧ Instr.mksin ≠ .brvs ∧
    Instr.mksin ≠ .perm ∧ Instr.mksin ≠ .bfly ∧ Instr.mksin ≠ .norm ∧
    (∀ n d, Instr.mksin ≠ .hwr .x n d) ∧ ∀ n d, Instr.mksin ≠ .hwr .y n d :=
  ⟨engine_inv _ (by decide), ⟨_, rfl⟩, by decide, rfl, rfl, by decide, by decide, by decide,
    by decide, by decide, (fun _ _ => Instr.noConfusion), (fun _ _ => Instr.noConfusion)⟩

/-- SineExactEntriesAndSymmetries and SmallSineTablesAreCorrectlyRounded: the ends of the ranges for
`M = 3`, with vector V-S2. -/
theorem test_witness_sine :
    2 ≤ 3 ∧ 4 ≤ 2 ^ 3 / 2 ∧ 0 < 1 ∧ 1 < 2 ^ 3 / 2 ∧ 1 + 2 ^ 3 / 2 < Params.sineLen 3 ∧
    1 < Params.quarter 3 ∧ 9 < Params.sineLen 3 ∧ 0 < Params.sineLen 0 ∧
    Sine.sinval 3 5 = 0xBFE6A09E667F3BCD#64 ∧ Sine.sinval 3 9 = 0x3FE6A09E667F3BCD#64 := by
  decide +kernel

/-- AdditionRoundsOnce, MultiplicationRoundsOnce and DivisionRoundsOnceAndNegationIsExact: the
greatest finite value and the smallest subnormal. -/
theorem test_witness_finite :
    Ieee.isFinite 0x7FEFFFFFFFFFFFFF#64 = true ∧ Ieee.isFinite 0x8000000000000001#64 = true := by
  decide

/-- Rule R302: a program just loaded has not ended; a machine that waits idle without a fault is
final; one that has faulted has ended and is not final. -/
theorem test_run_ends :
    ¬(withPending [Txn.writeCmd 6#32]).Ended ∧ (idle 2).Final ∧
    (halted 2).Ended ∧ ¬(halted 2).Final :=
  ⟨(fun h => nomatch h.2.1), ⟨⟨rfl, rfl, .inl rfl⟩, rfl, rfl⟩, ⟨rfl, rfl, .inr rfl⟩,
    (fun h => nomatch h.2.1)⟩

/-- Rule R302: `MKBREV` of `M = 0` goes right (two steps); an `XFORM` before the tables, which faults,
and one on empty buffers, which is refused, go wrong. -/
theorem test_runs_right_and_wrong :
    ({ bare 0 with pending := [Txn.writeCmd 4#32] } : State).GoesRight ∧
    ({ bare 2 with pending := [Txn.writeCmd 6#32] } : State).GoesWrong ∧
    ({ State.ofReset 2 true with pending := [Txn.writeCmd 6#32] } : State).GoesWrong :=
  ⟨⟨_, ⟨2, rfl⟩, ⟨rfl, rfl, .inl rfl⟩, rfl, rfl⟩,
    .inl ⟨_, ⟨1, rfl⟩, ⟨rfl, rfl, .inr rfl⟩, (fun h => nomatch h.2.1)⟩, .inr (.inl ⟨1, _, rfl⟩)⟩

/-- ExceptionalValuesFollowIeee, each clause; the last two are a zero sum and a zero difference. -/
theorem test_witness_exceptional :
    Ieee.isNaN 0x7FF0000000000001#64 = true ∧ Ieee.isInf 0x7FF0000000000000#64 = true ∧
    Ieee.isInf 0xFFF0000000000000#64 = true ∧ Ieee.isFinite 0x8000000000000000#64 = true ∧
    Ieee.value 0x8000000000000000#64 = 0 ∧ Ieee.isNaN 0x3FF0000000000000#64 = false ∧
    Ieee.value 0x8000000000000001#64 ≠ 0 ∧
    Ieee.value 0x0000000000000001#64 + Ieee.value 0x8000000000000001#64 = 0 ∧
    Ieee.value 0x8000000000000001#64 - Ieee.value 0x8000000000000001#64 = 0 := by
  have h0 : Ieee.signedUnits 0x8000000000000000#64 = 0 := by decide
  have h1 : Ieee.signedUnits 0x8000000000000001#64 = -1 := by decide
  have h2 : Ieee.signedUnits 0x0000000000000001#64 = 1 := by decide
  refine ⟨by decide, by decide, by decide, by decide, ?_, by decide, ?_, ?_, sub_self _⟩
  · simp [Ieee.value, h0]
  · simp [Ieee.value, h1]
  · rw [Ieee.value, Ieee.value, h1, h2]
    rw [← add_div]
    simp

/-- NanSpreadsThroughAButterfly: a draw that is always a NaN, and a NaN sample. -/
theorem test_witness_nan :
    (∀ n : Nat, Ieee.isNaN ((fun _ => 0x7FF8000000000000#64 : Nat → F64) n) = true) ∧
    Ieee.isNaN 0xFFF0000000000001#64 = true := by
  have h : Ieee.isNaN 0x7FF8000000000000#64 = true := by decide
  exact ⟨fun _ => h, by decide⟩

/-- PermuteReordersByBitReversal, over any number type. -/
theorem test_witness_permute {α : Type} (A : Arith α) :
    (engine A 2).RevBuilt (engine A 2).len ∧ (engine A 2).populated = true ∧
    3 < (engine A 2).len :=
  ⟨(engine_inv A (by decide)).rev_valid rfl, (engine_ready A 2).2.2, Nat.lt_of_sub_eq_succ rfl⟩

/-- LengthOneTransformIsTheIdentity. -/
theorem test_witness_length_one :
    (engine Arith.binary64 0).Inv Arith.binary64 ∧ (engine Arith.binary64 0).m = 0 ∧
    (engine Arith.binary64 0).phase = .idle ∧ (engine Arith.binary64 0).sinv = true ∧
    (engine Arith.binary64 0).brv = true ∧ (engine Arith.binary64 0).x.read 0 = some 0#64 ∧
    (engine Arith.binary64 0).y.read 0 = some 0#64 ∧ Ieee.isNaN 0#64 = false :=
  ⟨engine_inv _ (by decide), rfl, rfl, rfl, rfl, rfl, rfl, by decide⟩

/-- ForwardTransformIsTheDft, InverseTransformIsTheInverseDft and RoundTripRestoresTheBuffers: an
engine over exact reals, of length 8. -/
theorem test_witness_real_transform (draw : Nat → Nat → ℝ) :
    (engine (Arith.real draw) 3).Inv (Arith.real draw) ∧
    (engine (Arith.real draw) 3).phase = .idle ∧ (engine (Arith.real draw) 3).Ready ∧
    7 < (engine (Arith.real draw) 3).len ∧ Direction.fwd ≠ .inv ∧ Direction.inv ≠ .fwd :=
  ⟨engine_inv _ (by decide), rfl, engine_ready _ 3, Nat.lt_of_sub_eq_succ rfl, by decide,
    by decide⟩

/-- TransformsAreLinear: engines of zeros, of which each is any multiple plus another. -/
theorem test_witness_linear (draw : Nat → Nat → ℝ) (a : ℝ) :
    (engine (Arith.real draw) 2).Inv (Arith.real draw) ∧
    (engine (Arith.real draw) 2).phase = .idle ∧ (engine (Arith.real draw) 2).Ready ∧
    ∀ n < (engine (Arith.real draw) 2).len, (engine (Arith.real draw) 2).signal n =
      a * (engine (Arith.real draw) 2).signal n + (engine (Arith.real draw) 2).signal n := by
  refine ⟨engine_inv _ (by decide), rfl, engine_ready _ 2, fun n hn => ?_⟩
  have h0 : (engine (Arith.real draw) 2).signal n = 0 := by
    have hr := Cells.read_ofFn (fun _ => (Arith.real draw).zero) hn
    apply Complex.ext <;> exact congrArg (Option.getD · 0) hr
  simp [h0]

end Sys2Proof.Tests
end

/-! PROOFS. Encoding of host transactions, admission, reset and the parameters. -/
namespace Sys2Proof.Machine

/-! ## Host transactions -/

@[simp] theorem decodeCommand_encodeCommand (c : Command) :
    decodeCommand (encodeCommand c) = some c := by
  cases c <;> decide

/-- The tuple of a `CMD` write carries its word through the 64-bit data field (rule R102). -/
theorem decodeTxn_writeCmd (w : Word) :
    decodeTxn (Txn.writeCmd w) = .ok (.hwr .csr 0#32 (.word w)) := by
  have hdata : (w.setWidth 64).setWidth 32 = w := by
    rw [BitVec.setWidth_setWidth_of_le _ (by decide), BitVec.setWidth_eq]
  simp [decodeTxn, Txn.writeCmd, decodeSpace, decodeDatum, Space.holdsNum, hdata]

theorem decodeHost_writeCmd_of_some {w : Word} {c : Command} (h : decodeCommand w = some c) :
    decodeHost (Txn.writeCmd w) = .ok c.instr := by
  simp [decodeHost, decodeTxn_writeCmd, h]

theorem decodeHost_writeCmd_of_none {w : Word} (h : decodeCommand w = none) :
    decodeHost (Txn.writeCmd w) = .ok (.hwr .csr 0#32 (.word w)) := by
  simp [decodeHost, decodeTxn_writeCmd, h]

theorem decodeSpace_eq_csr_iff (b : BitVec 3) : decodeSpace b = .csr ↔ b = 0#3 := by
  revert b; decide

/-- Only a write to index 0 of `CSR` decodes to a write that can be a command. -/
theorem decodeTxn_eq_writeCsr {t : Txn} {w : Datum}
    (h : decodeTxn t = .ok (.hwr .csr 0#32 w)) :
    t.kind = 0b01#2 ∧ t.space = 0#3 ∧ t.index = 0#32 := by
  unfold decodeTxn at h
  split at h
  · cases h
  · split at h
    · next hk =>
      injection h with h
      injection h with hs hi _
      exact ⟨hk, (decodeSpace_eq_csr_iff _).1 hs, hi⟩
    · split at h <;> cases h

theorem decodeHost_eq_decodeTxn {t : Txn} (h : ∀ w, decodeTxn t ≠ .ok (.hwr .csr 0#32 w)) :
    decodeHost t = decodeTxn t := by
  unfold decodeHost
  split
  · next index w hd =>
    have hi : index ≠ 0#32 := fun hi => h (.word w) (hi ▸ hd)
    rw [if_neg hi, hd]
  · rfl

/-- Settles O5: a `CMD` write is read through `decodeCommand`, and only such a tuple decodes to a
write of `CSR` index 0. -/
theorem hostTransactionsDecode : Obligations.HostTransactionsDecode := by
  refine ⟨fun c => decodeHost_writeCmd_of_some (decodeCommand_encodeCommand c),
    fun w => decodeHost_writeCmd_of_none, fun t ht => decodeHost_eq_decodeTxn fun w hw => ?_⟩
  obtain ⟨hk, hs, hi⟩ := decodeTxn_eq_writeCsr hw
  rcases ht with h | h | h
  · exact h hk
  · exact h hs
  · exact h hi

/-! ## Admission -/

theorem Params.admitted_iff (m : Nat) : Params.admitted m = true ↔ m = 0 ∨ 2 ≤ m ∧ m ≤ 255 := by
  simp [Params.admitted]

theorem Params.ofLength_two_pow {m : Nat} (h : Params.admitted m = true) :
    Params.ofLength (2 ^ m) = some m := by
  simp [Params.ofLength, Nat.log2_two_pow, h]

theorem Params.ofLength_eq_none {n : Nat} (h : ¬∃ m, n = 2 ^ m ∧ Params.admitted m = true) :
    Params.ofLength n = none :=
  if_neg fun ⟨hn, ha⟩ => h ⟨n.log2, hn.symm, ha⟩

theorem State.hostMove_unadmitted {idle halt : State → Host.Outcome State Fault Refusal} {s : State}
    (h : Params.admitted s.m = false) : s.hostMove idle halt = .refused .badConfiguration := by
  simp [State.hostMove, h]

theorem State.hostWrite_unadmitted {work : Engine F64 → Host.Outcome (Engine F64) Fault Refusal}
    {s : State} (h : Params.admitted s.m = false) :
    s.hostWrite work = .refused .badConfiguration :=
  State.hostMove_unadmitted h

theorem State.microOp_unadmitted {p : Phase}
    {work : Engine F64 → Host.Outcome (Engine F64) Fault Refusal} {s : State}
    (h : Params.admitted s.m = false) : s.microOp p work = .refused .badConfiguration := by
  simp [State.microOp, Engine.selected, h, State.withEngine]

theorem execReset_unadmitted {s : State} (h : Params.admitted s.m = false) :
    execReset s = .refused .badConfiguration := by
  rw [execReset, State.hostMove_unadmitted h]

theorem step_unadmitted {s : State} (h : Params.admitted s.m = false) :
    step s = .refused .badConfiguration := by
  simp [step, h]

/-- Every instruction is a host move or a micro-operation, and both are guarded by admission. -/
theorem exec_unadmitted {s : State} (h : Params.admitted s.m = false) (i : Instr) :
    exec i s = .refused .badConfiguration := by
  cases i with
  | mksin => exact State.hostWrite_unadmitted (work := fun e => .next e.startMksin) h
  | mkbrev => exact State.hostWrite_unadmitted (work := fun e => .next e.startMkbrev) h
  | xformFwd | xformInv | hwr => exact State.hostWrite_unadmitted h
  | hrd => exact State.hostMove_unadmitted h
  | reset => exact execReset_unadmitted h
  | sinw | brvs | perm | twld | bfly | norm => exact State.microOp_unadmitted h

/-- Settles O7: both guards of `exec` and the guard of `step` ask for an admitted `M`, and
`Params.ofLength` finds the `M` of a power of two. -/
theorem unadmittedLengthsAreRefused : Obligations.UnadmittedLengthsAreRefused := by
  refine ⟨Params.admitted_iff, fun s h => ⟨step_unadmitted h, exec_unadmitted h⟩,
    fun n preload => ?_⟩
  simp only [← Params.admitted_iff]
  constructor
  · rintro m rfl h
    rw [buildEngine, Params.ofLength_two_pow h]
  · intro h
    rw [buildEngine, Params.ofLength_eq_none h]

/-! ## Parameters -/

/-- The two engines have the same parameters (rule R8). -/
def Engine.SameParams {α : Type} (e f : Engine α) : Prop := e.m = f.m ∧ e.preload = f.preload

section
variable {α : Type} {A : Arith α} {e f : Engine α}

theorem Engine.SameParams.refl (e : Engine α) : e.SameParams e := ⟨rfl, rfl⟩

theorem Engine.SameParams.cfgWord_eq (h : e.SameParams f) : e.cfgWord = f.cfgWord := by
  obtain ⟨hm, hp⟩ := h
  rw [Engine.cfgWord, Engine.cfgWord, hm, hp]

theorem Engine.enterStage_sameParams (e : Engine α) (kn : Nat) :
    (e.enterStage kn).SameParams e :=
  ⟨e.enterStage_m kn, e.enterStage_preload kn⟩

theorem Engine.startXform_sameParams {dir : Direction} (h : e.startXform dir = .next f) :
    f.SameParams e := by
  rcases Engine.startXform_next.1 h with ⟨-, rfl⟩ | ⟨-, -, -, rfl⟩ <;> exact ⟨rfl, rfl⟩

theorem Engine.command_sameParams {w : Word} (h : e.command w = .next f) : f.SameParams e := by
  rcases Engine.command_next.1 h with ⟨-, rfl⟩ | ⟨-, rfl⟩ | ⟨-, h⟩ | ⟨-, h⟩ | ⟨-, rfl⟩
  · exact ⟨rfl, rfl⟩
  · exact ⟨rfl, rfl⟩
  · exact Engine.startXform_sameParams h
  · exact Engine.startXform_sameParams h
  · exact ⟨rfl, rfl⟩

theorem Engine.hostStore_sameParams {space : Space} {index : Nat} {data : Datum} {e f : Engine F64}
    (h : e.hostStore space index data = .next f) : f.SameParams e := by
  rcases Engine.hostStore_next.1 h with
    ⟨-, rfl⟩ | ⟨-, ⟨v, -, -, rfl⟩ | ⟨v, -, -, rfl⟩ | ⟨w, -, -, h⟩⟩
  · exact ⟨rfl, rfl⟩
  · exact ⟨rfl, rfl⟩
  · exact ⟨rfl, rfl⟩
  · exact Engine.command_sameParams h

theorem Engine.sinw_sameParams (h : e.sinw A = .next f) : f.SameParams e := by
  obtain ⟨-, rfl⟩ := Engine.sinw_next.1 h
  exact ⟨rfl, rfl⟩

theorem Engine.brvs_sameParams (h : e.brvs = .next f) : f.SameParams e := by
  obtain ⟨-, ⟨-, rfl⟩ | ⟨-, bj, bk, -, rfl⟩⟩ := Engine.brvs_next.1 h <;> exact ⟨rfl, rfl⟩

theorem Engine.perm_sameParams (h : e.perm A = .next f) : f.SameParams e := by
  obtain ⟨-, rfl⟩ := Engine.perm_next.1 h
  split
  · exact Engine.enterStage_sameParams _ 1
  · exact ⟨rfl, rfl⟩

theorem Engine.twld_sameParams (h : e.twld A = .next f) : f.SameParams e := by
  obtain ⟨-, rfl⟩ := Engine.twld_next.1 h
  exact ⟨rfl, rfl⟩

theorem Engine.bfly_sameParams (h : e.bfly A = .next f) : f.SameParams e := by
  obtain ⟨-, rfl⟩ := Engine.bfly_next.1 h
  split
  · exact ⟨rfl, rfl⟩
  · split
    · exact ⟨rfl, rfl⟩
    · exact Engine.enterStage_sameParams (e.afterGroup A) e.k2

theorem Engine.norm_sameParams (h : e.norm A = .next f) : f.SameParams e := by
  obtain ⟨-, rfl⟩ := Engine.norm_next.1 h
  split <;> exact ⟨rfl, rfl⟩

end

section
variable {s t : State}

theorem State.microOp_sameParams {p : Phase}
    {work : Engine F64 → Host.Outcome (Engine F64) Fault Refusal}
    (hwork : ∀ {e f : Engine F64}, work e = .next f → f.SameParams e)
    (h : s.microOp p work = .next t) : t.SameParams s.toEngine := by
  obtain ⟨-, -, e, he, rfl⟩ := State.microOp_next.1 h
  exact hwork he

theorem State.hostWrite_sameParams {work : Engine F64 → Host.Outcome (Engine F64) Fault Refusal}
    (hwork : ∀ {e f : Engine F64}, work e = .next f → f.SameParams e)
    (h : s.hostWrite work = .next t) : t.SameParams s.toEngine := by
  obtain ⟨-, ⟨-, e, he, rfl⟩ | ⟨-, rfl⟩⟩ := State.hostWrite_next.1 h
  · exact hwork he
  · exact .refl _

/-- Everything `RESET` can do (rules R280, R281). -/
theorem execReset_next :
    execReset s = .next t ↔
      Params.admitted s.m = true ∧ (s.phase = .idle ∨ s.phase = .halt) ∧
        t = { s with toEngine := s.toEngine.afterReset Arith.binary64, reply := .nothing } := by
  simp only [execReset, State.hostMove_next, ← or_and_right, Host.Outcome.next.injEq,
    eq_comm (b := t)]

theorem State.answer_sameParams {space : Space} {index : Nat} (h : s.answer space index = .next t) :
    t.SameParams s.toEngine := by
  obtain ⟨v, -, rfl⟩ := State.answer_next.1 h
  exact .refl _

theorem State.readIdle_sameParams {space : Space} {index : Nat}
    (h : s.readIdle space index = .next t) : t.SameParams s.toEngine := by
  unfold State.readIdle at h
  split at h
  · exact State.answer_sameParams h
  · cases h; exact ⟨rfl, rfl⟩

theorem State.readHalt_sameParams {space : Space} {index : Nat}
    (h : s.readHalt space index = .next t) : t.SameParams s.toEngine := by
  unfold State.readHalt at h
  split at h
  · exact State.answer_sameParams h
  · cases h; exact .refl _

/-- No instruction changes the parameters (rules R8, R32). -/
theorem exec_sameParams {i : Instr} (h : exec i s = .next t) : t.SameParams s.toEngine := by
  cases i with
  | mksin =>
    exact State.hostWrite_sameParams (work := fun e => .next e.startMksin)
      (fun he => by cases he; exact ⟨rfl, rfl⟩) h
  | mkbrev =>
    exact State.hostWrite_sameParams (work := fun e => .next e.startMkbrev)
      (fun he => by cases he; exact ⟨rfl, rfl⟩) h
  | xformFwd | xformInv => exact State.hostWrite_sameParams Engine.startXform_sameParams h
  | sinw => exact State.microOp_sameParams Engine.sinw_sameParams h
  | brvs => exact State.microOp_sameParams Engine.brvs_sameParams h
  | perm => exact State.microOp_sameParams Engine.perm_sameParams h
  | twld => exact State.microOp_sameParams Engine.twld_sameParams h
  | bfly => exact State.microOp_sameParams Engine.bfly_sameParams h
  | norm => exact State.microOp_sameParams Engine.norm_sameParams h
  | hrd space index =>
    obtain ⟨-, ⟨-, h⟩ | ⟨-, h⟩⟩ := State.hostMove_next.1 h
    · exact State.readIdle_sameParams h
    · exact State.readHalt_sameParams h
  | hwr space index data => exact State.hostWrite_sameParams Engine.hostStore_sameParams h
  | reset =>
    obtain ⟨-, -, rfl⟩ := execReset_next.1 h
    exact ⟨rfl, rfl⟩

end

/-- Settles O42: every instruction keeps the parameters, and `CFG` is a function of the
parameters. -/
theorem parametersNeverChange : Obligations.ParametersNeverChange := by
  intro i s t h
  have hp := exec_sameParams h
  exact ⟨hp.1, hp.2, hp.cfgWord_eq⟩

/-! ## Reset -/

theorem Engine.resetOf_inv {α : Type} (A : Arith α) {m : Nat} (preload : Bool) (draws : Nat)
    (h : Params.admitted m = true) : (Engine.resetOf A m preload draws).Inv A where
  admitted := h
  x_wf := Engine.resetOf_x_wf A m preload draws _
  y_wf := Engine.resetOf_y_wf A m preload draws _
  sintbl_wf := Engine.resetOf_sintbl_wf A m preload draws
  bitrev_wf := Engine.resetOf_bitrev_wf A m preload draws
  halt_iff := by simp [Engine.resetOf]
  sine_valid := by
    rintro (rfl : preload = true) i hi
    exact Engine.resetOf_preloaded_sintbl A m draws hi
  rev_valid := by
    rintro (rfl : preload = true) i hi
    exact Engine.resetOf_preloaded_bitrev A m draws hi
  preload_valid := fun hp => ⟨hp, hp⟩
  phase_ok := trivial

/-- Settles O9: `Engine.resetOf_inv` over binary64. -/
theorem resetMeetsTheInvariant : Obligations.ResetMeetsTheInvariant :=
  fun _ preload h => Engine.resetOf_inv Arith.binary64 preload 0 h

/-! ## Bit reversal -/

theorem rev_lt (m i : Nat) : rev m i < 2 ^ m := by
  induction m generalizing i with
  | zero => simp [rev]
  | succ m ih =>
    have hlow := ih (i / 2)
    have htop : i % 2 * 2 ^ m ≤ 1 * 2 ^ m := Nat.mul_le_mul_right _ (by omega)
    rw [rev, pow_succ]
    omega

/-- Bit `t` of the reversal is bit `m - 1 - t` of the index (rule R13). -/
theorem testBit_rev {m t : Nat} (i : Nat) (ht : t < m) :
    (rev m i).testBit t = i.testBit (m - 1 - t) := by
  induction m generalizing i with
  | zero => omega
  | succ m ih =>
    rw [rev, Nat.mul_comm, Nat.testBit_two_pow_mul_add _ (rev_lt m (i / 2))]
    split
    · next h =>
      rw [ih _ h, Nat.testBit_div_two]
      congr 1
      omega
    · next h =>
      obtain rfl : t = m := by omega
      simp

theorem rev_rev {m i : Nat} (h : i < 2 ^ m) : rev m (rev m i) = i := by
  refine Nat.eq_of_testBit_eq fun t => ?_
  by_cases ht : t < m
  · rw [testBit_rev _ ht, testBit_rev _ (by omega)]
    congr 1
    omega
  · have hpow : 2 ^ m ≤ 2 ^ t := Nat.pow_le_pow_right (by decide) (by omega)
    rw [Nat.testBit_lt_two_pow ((rev_lt m _).trans_le hpow),
      Nat.testBit_lt_two_pow (h.trans_le hpow)]

@[simp] theorem rev_zero_right (m : Nat) : rev m 0 = 0 := by
  induction m with
  | zero => rfl
  | succ m ih => simp [rev, ih]

/-- All bits one reversed is all bits one. -/
theorem rev_last (m : Nat) : rev m (2 ^ m - 1) = 2 ^ m - 1 := by
  induction m with
  | zero => rfl
  | succ m ih =>
    have hpos : 0 < 2 ^ m := Nat.two_pow_pos m
    have hmod : (2 ^ (m + 1) - 1) % 2 = 1 := by omega
    have hdiv : (2 ^ (m + 1) - 1) / 2 = 2 ^ m - 1 := by omega
    rw [rev, hmod, hdiv, ih]
    omega

theorem rev_one {m : Nat} (h : 1 ≤ m) : rev m 1 = 2 ^ m / 2 := by
  obtain ⟨m, rfl⟩ := Nat.exists_eq_add_of_le' h
  simp [rev, pow_succ]

/-- Settles O21: `testBit_rev` says which bit goes where, and `rev_rev` follows bit by bit. -/
theorem bitReversalIsSelfInverse : Obligations.BitReversalIsSelfInverse := fun m i hi =>
  ⟨rev_lt m i, rev_rev hi, rev_zero_right m, rev_last m, rev_one, fun _ ht => testBit_rev i ht⟩

end Sys2Proof.Machine

/-! PROOFS. The fields of a binary64 pattern: what each of them is of the pattern as a number, of a
packed pattern and of a negated one, and the three kinds of pattern. -/
namespace Sys2Proof.Machine

/-! ## Fields -/

theorem Ieee.negative_eq (v : F64) : Ieee.negative v = decide (2 ^ 63 ≤ v.toNat) :=
  BitVec.msb_eq_decide v

theorem Ieee.expField_eq (v : F64) : Ieee.expField v = v.toNat / 2 ^ 52 % 2 ^ 11 := by
  rw [Ieee.expField, BitVec.extractLsb_toNat, Nat.shiftRight_eq_div_pow]

theorem Ieee.fracField_eq (v : F64) : Ieee.fracField v = v.toNat % 2 ^ 52 := by
  rw [Ieee.fracField, BitVec.extractLsb_toNat, Nat.shiftRight_eq_div_pow, pow_zero, Nat.div_one]

theorem Ieee.fracField_lt (v : F64) : Ieee.fracField v < 2 ^ 52 := by
  rw [Ieee.fracField_eq]
  omega

/-! ## Packed patterns -/

section
variable {mag : Nat} (neg : Bool)

theorem Ieee.toNat_pack (h : mag < 2 ^ 63) :
    (Ieee.pack neg mag).toNat = (if neg then 2 ^ 63 else 0) + mag := by
  rw [Ieee.pack, BitVec.toNat_ofNat, Nat.mod_eq_of_lt]
  split <;> omega

theorem Ieee.negative_pack (h : mag < 2 ^ 63) : Ieee.negative (Ieee.pack neg mag) = neg := by
  rw [Ieee.negative_eq, Ieee.toNat_pack neg h]
  cases neg
  · exact decide_eq_false (by simpa using h)
  · exact decide_eq_true (by simp)

theorem Ieee.expField_pack (h : mag < 2 ^ 63) :
    Ieee.expField (Ieee.pack neg mag) = mag / 2 ^ 52 := by
  rw [Ieee.expField_eq, Ieee.toNat_pack neg h]
  split <;> omega

theorem Ieee.fracField_pack (h : mag < 2 ^ 63) :
    Ieee.fracField (Ieee.pack neg mag) = mag % 2 ^ 52 := by
  rw [Ieee.fracField_eq, Ieee.toNat_pack neg h]
  split <;> omega

theorem Ieee.infBits_lt : Ieee.infBits < 2 ^ 63 := by decide

theorem Ieee.isInf_pack_infBits : Ieee.isInf (Ieee.pack neg Ieee.infBits) = true := by
  cases neg <;> decide

theorem Ieee.isFinite_pack (h : mag < Ieee.infBits) :
    Ieee.isFinite (Ieee.pack neg mag) = true := by
  rw [Ieee.isFinite, Ieee.expField_pack neg (h.trans Ieee.infBits_lt)]
  unfold Ieee.infBits at h
  exact decide_eq_true (by omega)

end

/-- Every pattern is packed from its own fields. -/
theorem Ieee.pack_fields (v : F64) :
    Ieee.pack (Ieee.negative v) (Ieee.expField v * 2 ^ 52 + Ieee.fracField v) = v := by
  have he := Ieee.expField_eq v
  have hf := Ieee.fracField_eq v
  have hs := Ieee.negative_eq v
  have hv := v.isLt
  have hmag : Ieee.expField v * 2 ^ 52 + Ieee.fracField v < 2 ^ 63 := by omega
  apply BitVec.eq_of_toNat_eq
  rw [Ieee.toNat_pack _ hmag, hs]
  split <;> simp only [decide_eq_true_eq] at * <;> omega

/-! ## The kinds of pattern -/

theorem Ieee.isFinite_eq (v : F64) : Ieee.isFinite v = (!Ieee.isNaN v && !Ieee.isInf v) := by
  unfold Ieee.isFinite Ieee.isNaN Ieee.isInf
  by_cases he : Ieee.expField v = 2047 <;> by_cases hf : Ieee.fracField v = 0 <;> simp [he, hf]

theorem Ieee.isNaN_of_isFinite {v : F64} (h : Ieee.isFinite v = true) : Ieee.isNaN v = false := by
  rw [Ieee.isFinite_eq, Bool.and_eq_true, Bool.not_eq_true', Bool.not_eq_true'] at h
  exact h.1

theorem Ieee.isInf_of_isFinite {v : F64} (h : Ieee.isFinite v = true) : Ieee.isInf v = false := by
  rw [Ieee.isFinite_eq, Bool.and_eq_true, Bool.not_eq_true', Bool.not_eq_true'] at h
  exact h.2

theorem Ieee.isNaN_of_isInf {v : F64} (h : Ieee.isInf v = true) : Ieee.isNaN v = false := by
  obtain ⟨-, hfrac⟩ : Ieee.expField v = 2047 ∧ Ieee.fracField v = 0 := by
    simpa [Ieee.isInf] using h
  simp [Ieee.isNaN, hfrac]

theorem Ieee.isFinite_of_isInf {v : F64} (h : Ieee.isInf v = true) : Ieee.isFinite v = false := by
  rw [Ieee.isFinite_eq, h, Bool.not_true, Bool.and_false]

/-! ## Negation -/

theorem Ieee.msb_neg (a : F64) : (Ieee.neg a).msb = !a.msb := by
  have hsign : (1#64 <<< 63).msb = true := by decide
  rw [Ieee.neg, BitVec.msb_xor, hsign, Bool.xor_true]

theorem Ieee.setWidth_neg (a : F64) : (Ieee.neg a).setWidth 63 = a.setWidth 63 := by
  rw [Ieee.neg, BitVec.setWidth_xor]
  simp

@[simp] theorem Ieee.neg_neg_self (a : F64) : Ieee.neg (Ieee.neg a) = a := by
  rw [Ieee.neg, Ieee.neg, BitVec.xor_assoc, BitVec.xor_self, BitVec.xor_zero]

@[simp] theorem Ieee.negative_neg (a : F64) : Ieee.negative (Ieee.neg a) = !Ieee.negative a :=
  Ieee.msb_neg a

/-- Bits 62:0 are the same number in a pattern and its negation. -/
theorem Ieee.toNat_neg_mod (a : F64) : (Ieee.neg a).toNat % 2 ^ 63 = a.toNat % 2 ^ 63 := by
  have h := congrArg BitVec.toNat (Ieee.setWidth_neg a)
  rwa [BitVec.toNat_setWidth, BitVec.toNat_setWidth] at h

@[simp] theorem Ieee.expField_neg (a : F64) : Ieee.expField (Ieee.neg a) = Ieee.expField a := by
  have h := Ieee.toNat_neg_mod a
  rw [Ieee.expField_eq, Ieee.expField_eq]
  omega

@[simp] theorem Ieee.fracField_neg (a : F64) : Ieee.fracField (Ieee.neg a) = Ieee.fracField a := by
  have h := Ieee.toNat_neg_mod a
  rw [Ieee.fracField_eq, Ieee.fracField_eq]
  omega

@[simp] theorem Ieee.isNaN_neg (a : F64) : Ieee.isNaN (Ieee.neg a) = Ieee.isNaN a := by
  simp [Ieee.isNaN]

@[simp] theorem Ieee.isInf_neg (a : F64) : Ieee.isInf (Ieee.neg a) = Ieee.isInf a := by
  simp [Ieee.isInf]

@[simp] theorem Ieee.isFinite_neg (a : F64) : Ieee.isFinite (Ieee.neg a) = Ieee.isFinite a := by
  simp [Ieee.isFinite]

@[simp] theorem Ieee.units_neg (a : F64) : Ieee.units (Ieee.neg a) = Ieee.units a := by
  simp [Ieee.units]

@[simp] theorem Ieee.signedUnits_neg (a : F64) :
    Ieee.signedUnits (Ieee.neg a) = -Ieee.signedUnits a := by
  cases h : Ieee.negative a <;> simp [Ieee.signedUnits, h]

@[simp] theorem Ieee.value_neg (a : F64) : Ieee.value (Ieee.neg a) = -Ieee.value a := by
  simp [Ieee.value, neg_div]

/-- A pattern with the sign set is the negation of the one without. -/
theorem Ieee.pack_true {mag : Nat} (h : mag < 2 ^ 63) :
    Ieee.pack true mag = Ieee.neg (Ieee.pack false mag) := by
  rw [← Ieee.pack_fields (Ieee.neg _), Ieee.negative_neg, Ieee.expField_neg, Ieee.fracField_neg,
    Ieee.negative_pack _ h, Ieee.expField_pack _ h, Ieee.fracField_pack _ h, Nat.div_add_mod']
  rfl

/-! ## Values -/

theorem Ieee.value_eq_zero_iff (v : F64) : Ieee.value v = 0 ↔ Ieee.units v = 0 := by
  have h : (2 : ℚ) ^ 1074 ≠ 0 := by positivity
  rw [Ieee.value, div_eq_zero_iff, or_iff_left h, Int.cast_eq_zero, Ieee.signedUnits]
  split <;> simp

end Sys2Proof.Machine

/-! PROOFS. Exceptional values of binary64: NaNs, infinities and signs (rules R10, R11, R177). -/
namespace Sys2Proof.Machine

/-! ## The exact number an operation rounds -/

theorem Ieee.value_add_value (a b : F64) :
    Ieee.value a + Ieee.value b =
      ((Ieee.signedUnits a + Ieee.signedUnits b : Int) : ℚ) / 2 ^ 1074 := by
  rw [Ieee.value, Ieee.value, Int.cast_add, add_div]

theorem Ieee.signedUnits_add_eq_zero {a b : F64} (h : Ieee.value a + Ieee.value b = 0) :
    Ieee.signedUnits a + Ieee.signedUnits b = 0 := by
  have hpow : (2 : ℚ) ^ 1074 ≠ 0 := by positivity
  rwa [Ieee.value_add_value, div_eq_zero_iff, or_iff_left hpow, Int.cast_eq_zero] at h

/-! ## Rounding keeps the sign -/

theorem Ieee.negative_round (neg : Bool) (a sh : Nat) :
    Ieee.negative (Ieee.round neg a sh) = neg :=
  Ieee.negative_pack neg ((Nat.min_le_right _ _).trans_lt Ieee.infBits_lt)

/-! ## NaN operands -/

section
variable {a b : F64} (q : F64)

theorem Ieee.add_of_isNaN (h : Ieee.isNaN a = true ∨ Ieee.isNaN b = true) :
    Ieee.add q a b = q :=
  if_pos (Bool.or_eq_true_iff.2 h)

theorem Ieee.sub_of_isNaN (h : Ieee.isNaN a = true ∨ Ieee.isNaN b = true) :
    Ieee.sub q a b = q :=
  Ieee.add_of_isNaN q (by rwa [Ieee.isNaN_neg])

theorem Ieee.mul_of_isNaN (h : Ieee.isNaN a = true ∨ Ieee.isNaN b = true) :
    Ieee.mul q a b = q :=
  if_pos (Bool.or_eq_true_iff.2 h)

theorem Ieee.divN_of_isNaN (m : Nat) (h : Ieee.isNaN a = true) : Ieee.divN m q a = q :=
  if_pos h

/-! ## Infinite operands -/

theorem Ieee.add_of_isInf_isInf (ha : Ieee.isInf a = true) (hb : Ieee.isInf b = true) :
    Ieee.add q a b = if Ieee.negative a = Ieee.negative b then a else q := by
  by_cases h : Ieee.negative a = Ieee.negative b <;>
    simp [Ieee.add, Ieee.isNaN_of_isInf ha, Ieee.isNaN_of_isInf hb, ha, hb, h]

theorem Ieee.add_of_isInf_isFinite (ha : Ieee.isInf a = true) (hb : Ieee.isFinite b = true) :
    Ieee.add q a b = a := by
  simp [Ieee.add, Ieee.isNaN_of_isInf ha, Ieee.isNaN_of_isFinite hb, ha, Ieee.isInf_of_isFinite hb]

theorem Ieee.add_of_isFinite_isInf (ha : Ieee.isFinite a = true) (hb : Ieee.isInf b = true) :
    Ieee.add q a b = b := by
  simp [Ieee.add, Ieee.isNaN_of_isFinite ha, Ieee.isNaN_of_isInf hb, hb, Ieee.isInf_of_isFinite ha]

theorem Ieee.sub_of_isInf_isInf (ha : Ieee.isInf a = true) (hb : Ieee.isInf b = true) :
    Ieee.sub q a b = if Ieee.negative a = Ieee.negative b then q else a := by
  rw [Ieee.sub, Ieee.add_of_isInf_isInf q ha (by rwa [Ieee.isInf_neg]), Ieee.negative_neg]
  cases Ieee.negative a <;> cases Ieee.negative b <;> rfl

theorem Ieee.sub_of_isInf_isFinite (ha : Ieee.isInf a = true) (hb : Ieee.isFinite b = true) :
    Ieee.sub q a b = a :=
  Ieee.add_of_isInf_isFinite q ha (by rwa [Ieee.isFinite_neg])

theorem Ieee.sub_of_isFinite_isInf (ha : Ieee.isFinite a = true) (hb : Ieee.isInf b = true) :
    Ieee.sub q a b = Ieee.neg b :=
  Ieee.add_of_isFinite_isInf q ha (by rwa [Ieee.isInf_neg])

theorem Ieee.divN_of_isInf (m : Nat) (ha : Ieee.isInf a = true) : Ieee.divN m q a = a := by
  simp [Ieee.divN, Ieee.isNaN_of_isInf ha, ha]

theorem Ieee.mul_swap (a b : F64) : Ieee.mul q a b = Ieee.mul q b a := by
  simp only [Ieee.mul, Bool.or_comm (Ieee.isNaN a), Bool.or_comm (Ieee.isInf a),
    Nat.mul_comm (Ieee.units a),
    bne_comm (a := Ieee.negative a), Bool.or_comm (Ieee.isFinite a && _)]

theorem Ieee.mul_of_isInf_zero (ha : Ieee.isInf a = true) (hb : Ieee.isFinite b = true)
    (h0 : Ieee.value b = 0) : Ieee.mul q a b = q := by
  have hu := (Ieee.value_eq_zero_iff b).1 h0
  simp [Ieee.mul, Ieee.isNaN_of_isInf ha, Ieee.isNaN_of_isFinite hb, ha, hb, hu]

theorem Ieee.mul_of_isInf (ha : Ieee.isInf a = true) (hb : Ieee.isNaN b = false)
    (h0 : Ieee.isFinite b = true → Ieee.value b ≠ 0) :
    Ieee.mul q a b = Ieee.pack (Ieee.negative a != Ieee.negative b) Ieee.infBits := by
  have hu : Ieee.isFinite b = true → Ieee.units b ≠ 0 := fun h =>
    mt (Ieee.value_eq_zero_iff b).2 (h0 h)
  rw [Ieee.mul, if_neg (by simp [Ieee.isNaN_of_isInf ha, hb]), if_pos (by simp [ha]),
    if_neg (by simpa [Ieee.isFinite_of_isInf ha] using hu)]

/-! ## Finite operands -/

/-- An exact zero sum takes its sign from the operands, every other one is rounded. -/
theorem Ieee.add_of_isFinite (ha : Ieee.isFinite a = true) (hb : Ieee.isFinite b = true) :
    Ieee.add q a b =
      if Ieee.signedUnits a + Ieee.signedUnits b = 0 then
        Ieee.pack (Ieee.negative a && Ieee.negative b) 0
      else Ieee.round (Ieee.signedUnits a + Ieee.signedUnits b < 0)
        (Ieee.signedUnits a + Ieee.signedUnits b).natAbs 0 := by
  simp [Ieee.add, Ieee.isNaN_of_isFinite, Ieee.isInf_of_isFinite, ha, hb]

theorem Ieee.mul_of_isFinite (ha : Ieee.isFinite a = true) (hb : Ieee.isFinite b = true) :
    Ieee.mul q a b =
      Ieee.round (Ieee.negative a != Ieee.negative b) (Ieee.units a * Ieee.units b) 1074 := by
  simp [Ieee.mul, Ieee.isNaN_of_isFinite, Ieee.isInf_of_isFinite, ha, hb]

theorem Ieee.divN_of_isFinite (m : Nat) (ha : Ieee.isFinite a = true) :
    Ieee.divN m q a = Ieee.round (Ieee.negative a) (Ieee.units a) m := by
  simp [Ieee.divN, Ieee.isNaN_of_isFinite ha, Ieee.isInf_of_isFinite ha]

theorem Ieee.negative_add_of_zero (ha : Ieee.isFinite a = true) (hb : Ieee.isFinite b = true)
    (h : Ieee.value a + Ieee.value b = 0) :
    Ieee.negative (Ieee.add q a b) = (Ieee.negative a && Ieee.negative b) := by
  rw [Ieee.add_of_isFinite q ha hb, if_pos (Ieee.signedUnits_add_eq_zero h),
    Ieee.negative_pack _ (by decide)]

theorem Ieee.negative_sub_of_zero (ha : Ieee.isFinite a = true) (hb : Ieee.isFinite b = true)
    (h : Ieee.value a - Ieee.value b = 0) :
    Ieee.negative (Ieee.sub q a b) = (Ieee.negative a && !Ieee.negative b) := by
  rw [Ieee.sub, Ieee.negative_add_of_zero q ha (by rwa [Ieee.isFinite_neg])
    (by rwa [Ieee.value_neg, ← sub_eq_add_neg]), Ieee.negative_neg]

theorem Ieee.negative_mul (ha : Ieee.isFinite a = true) (hb : Ieee.isFinite b = true) :
    Ieee.negative (Ieee.mul q a b) = (Ieee.negative a != Ieee.negative b) := by
  rw [Ieee.mul_of_isFinite q ha hb, Ieee.negative_round]

theorem Ieee.negative_divN (m : Nat) (ha : Ieee.isFinite a = true) :
    Ieee.negative (Ieee.divN m q a) = Ieee.negative a := by
  rw [Ieee.divN_of_isFinite q m ha, Ieee.negative_round]

end

/-! ## Drawn NaNs -/

theorem Ieee.isNaN_nanOf (bits : BitVec 64) : Ieee.isNaN (Ieee.nanOf bits) = true := by
  have hlt := Ieee.fracField_lt bits
  have hfrac : ∃ f, Ieee.nanOf bits = Ieee.pack (Ieee.negative bits) (Ieee.infBits + f) ∧
      0 < f ∧ f < 2 ^ 52 := by
    refine ⟨_, rfl, ?_⟩
    split <;> omega
  obtain ⟨f, hf, hpos, hlt⟩ := hfrac
  have hmag : Ieee.infBits + f < 2 ^ 63 := by unfold Ieee.infBits; omega
  have he : Ieee.expField (Ieee.nanOf bits) = 2047 := by
    rw [hf, Ieee.expField_pack _ hmag, Ieee.infBits]
    omega
  have hne : Ieee.fracField (Ieee.nanOf bits) ≠ 0 := by
    rw [hf, Ieee.fracField_pack _ hmag, Ieee.infBits]
    omega
  simp [Ieee.isNaN, he, hne]

theorem Ieee.nanOf_of_isNaN {v : F64} (h : Ieee.isNaN v = true) : Ieee.nanOf v = v := by
  obtain ⟨he, hf⟩ : Ieee.expField v = 2047 ∧ Ieee.fracField v ≠ 0 := by
    simpa [Ieee.isNaN] using h
  rw [Ieee.nanOf, if_neg hf, Ieee.infBits, ← he, Ieee.pack_fields]

/-- Settles O50: each clause is the lemma about its operation on its kinds of operand; the clauses
on a product with the infinity second follow by `Ieee.mul_swap`. -/
theorem exceptionalValuesFollowIeee : Obligations.ExceptionalValuesFollowIeee := by
  refine ⟨fun q a b => ⟨fun h => ?_, fun ha hb => ?_, fun ha hb => ?_, fun ha hb h0 => ?_,
    fun ha hb h0 => ?_, fun ha hb => ?_⟩, Ieee.isNaN_nanOf, fun _ => Ieee.nanOf_of_isNaN⟩
  · exact ⟨Ieee.add_of_isNaN q h, Ieee.sub_of_isNaN q h, Ieee.mul_of_isNaN q h,
      fun ha m => Ieee.divN_of_isNaN q m ha⟩
  · exact ⟨Ieee.add_of_isInf_isInf q ha hb, Ieee.sub_of_isInf_isInf q ha hb⟩
  · exact ⟨Ieee.add_of_isInf_isFinite q ha hb, Ieee.add_of_isFinite_isInf q hb ha,
      Ieee.sub_of_isInf_isFinite q ha hb, Ieee.sub_of_isFinite_isInf q hb ha,
      fun m => Ieee.divN_of_isInf q m ha⟩
  · have h := Ieee.mul_of_isInf_zero q ha hb h0
    exact ⟨h, Ieee.mul_swap q b a ▸ h⟩
  · rw [Ieee.mul_swap q b a, Ieee.mul_of_isInf q ha hb h0]
    have hinf := Ieee.isInf_pack_infBits (Ieee.negative a != Ieee.negative b)
    have hneg := Ieee.negative_pack (Ieee.negative a != Ieee.negative b) Ieee.infBits_lt
    exact ⟨hinf, hinf, hneg, hneg⟩
  · exact ⟨Ieee.negative_mul q ha hb, Ieee.negative_add_of_zero q ha hb,
      Ieee.negative_sub_of_zero q ha hb, fun m => Ieee.negative_divN q m ha⟩

/-! ## NaNs through a butterfly -/

section
variable {q a b : F64}

theorem Ieee.isNaN_add (hq : Ieee.isNaN q = true) (h : Ieee.isNaN a = true ∨ Ieee.isNaN b = true) :
    Ieee.isNaN (Ieee.add q a b) = true := by
  rwa [Ieee.add_of_isNaN q h]

theorem Ieee.isNaN_sub (hq : Ieee.isNaN q = true) (h : Ieee.isNaN a = true ∨ Ieee.isNaN b = true) :
    Ieee.isNaN (Ieee.sub q a b) = true := by
  rwa [Ieee.sub_of_isNaN q h]

theorem Ieee.isNaN_mul_right (hq : Ieee.isNaN q = true) (h : Ieee.isNaN b = true) :
    Ieee.isNaN (Ieee.mul q a b) = true := by
  rwa [Ieee.mul_of_isNaN q (.inr h)]

end

section
variable {α : Type} (A : Arith α) (nan : Nat → α) (c s xi xk yi yk : α)

/-- The `Y` outputs do not mention `XI` (rule R170). -/
theorem butterfly_y_of_xi (xi' : α) :
    (butterfly A nan c s xi' xk yi yk).yi = (butterfly A nan c s xi xk yi yk).yi ∧
      (butterfly A nan c s xi' xk yi yk).yk = (butterfly A nan c s xi xk yi yk).yk :=
  ⟨rfl, rfl⟩

/-- The `X` outputs do not mention `YI` (rule R170). -/
theorem butterfly_x_of_yi (yi' : α) :
    (butterfly A nan c s xi xk yi' yk).xi = (butterfly A nan c s xi xk yi yk).xi ∧
      (butterfly A nan c s xi xk yi' yk).xk = (butterfly A nan c s xi xk yi yk).xk :=
  ⟨rfl, rfl⟩

end

section
variable {nan : Nat → F64} (c s xi xk yi yk : F64)

/-- `DX` and `DY` each hold a product of `XK` and one of `YK` (rule R169). -/
theorem butterfly_isNaN_dx_dy (hnan : ∀ n, Ieee.isNaN (nan n) = true)
    (h : Ieee.isNaN xk = true ∨ Ieee.isNaN yk = true) :
    Ieee.isNaN (butterfly Arith.binary64 nan c s xi xk yi yk).dx = true ∧
      Ieee.isNaN (butterfly Arith.binary64 nan c s xi xk yi yk).dy = true :=
  ⟨Ieee.isNaN_add (hnan 2) (h.symm.imp (Ieee.isNaN_mul_right (hnan 0))
      (Ieee.isNaN_mul_right (hnan 1))),
    Ieee.isNaN_sub (hnan 5) (h.symm.imp (Ieee.isNaN_mul_right (hnan 3))
      (Ieee.isNaN_mul_right (hnan 4)))⟩

/-- Both `X` outputs are `XI` with `DX` added or subtracted (rule R170). -/
theorem butterfly_isNaN_x (hnan : ∀ n, Ieee.isNaN (nan n) = true)
    (h : Ieee.isNaN xi = true ∨
      Ieee.isNaN (butterfly Arith.binary64 nan c s xi xk yi yk).dx = true) :
    Ieee.isNaN (butterfly Arith.binary64 nan c s xi xk yi yk).xi = true ∧
      Ieee.isNaN (butterfly Arith.binary64 nan c s xi xk yi yk).xk = true :=
  ⟨Ieee.isNaN_add (hnan 7) h, Ieee.isNaN_sub (hnan 6) h⟩

/-- Both `Y` outputs are `YI` with `DY` added or subtracted (rule R170). -/
theorem butterfly_isNaN_y (hnan : ∀ n, Ieee.isNaN (nan n) = true)
    (h : Ieee.isNaN yi = true ∨
      Ieee.isNaN (butterfly Arith.binary64 nan c s xi xk yi yk).dy = true) :
    Ieee.isNaN (butterfly Arith.binary64 nan c s xi xk yi yk).yi = true ∧
      Ieee.isNaN (butterfly Arith.binary64 nan c s xi xk yi yk).yk = true :=
  ⟨Ieee.isNaN_add (hnan 9) h, Ieee.isNaN_sub (hnan 8) h⟩

end

/-- Settles O51: an odd NaN reaches `DX` and `DY` and through them all four outputs; the `Y` outputs
do not mention `XI`, nor the `X` outputs `YI`. -/
theorem nanSpreadsThroughAButterfly : Obligations.NanSpreadsThroughAButterfly := by
  intro nan c s xi xk yi yk hnan b
  refine ⟨fun h => ?_, fun h => ?_, fun h => ?_⟩
  · obtain ⟨hdx, hdy⟩ := butterfly_isNaN_dx_dy c s xi xk yi yk hnan h
    obtain ⟨hxi, hxk⟩ := butterfly_isNaN_x c s xi xk yi yk hnan (.inr hdx)
    exact ⟨hxi, hxk, butterfly_isNaN_y c s xi xk yi yk hnan (.inr hdy)⟩
  · obtain ⟨hxi, hxk⟩ := butterfly_isNaN_x c s xi xk yi yk hnan (.inl h)
    exact ⟨hxi, hxk, butterfly_y_of_xi Arith.binary64 nan c s xi xk yi yk⟩
  · obtain ⟨hyi, hyk⟩ := butterfly_isNaN_y c s xi xk yi yk hnan (.inl h)
    exact ⟨hyi, hyk, butterfly_x_of_yi Arith.binary64 nan c s xi xk yi yk⟩

end Sys2Proof.Machine

/-! PROOFS. Rounding of binary64: a real number in units of 2^-1074 is `y * 2^e` with `y` below
2^53, and at least 2^52 unless `e` is 0; rounding `y` to an integer, ties to even, rounds the number
(rules R10, R172). -/
namespace Sys2Proof.Machine

/-! ## Rounding to an integer -/

/-- `n` is the integer nearest to `y`, the even one of two. -/
def RoundsHalfEven (y : ℝ) (n : ℕ) : Prop :=
  |n - y| ≤ 1 / 2 ∧ (|n - y| = 1 / 2 → n % 2 = 0)

section
variable {y z : ℝ} {n N : ℕ}

/-- No integer is nearer to `y` than `n`, and a second one is as near only in a tie. -/
theorem RoundsHalfEven.le_int (h : RoundsHalfEven y n) (k : ℤ) :
    |n - y| ≤ |k - y| ∧ (|n - y| = |k - y| → (k : ℝ) ≠ n → n % 2 = 0) := by
  obtain ⟨hhalf, heven⟩ := h
  by_cases hk : k = n
  · simp [hk]
  · have hgap : (1 : ℝ) ≤ |(k : ℝ) - n| := by exact_mod_cast Int.one_le_abs (sub_ne_zero.2 hk)
    have htri : |(k : ℝ) - n| ≤ |k - y| + |n - y| := by
      rw [abs_sub_comm (n : ℝ) y]
      exact abs_sub_le _ _ _
    exact ⟨by linarith, fun heq _ => heven (by linarith)⟩

/-- A number below some integer that is itself at most `y` is farther from `y` than `n`. -/
theorem RoundsHalfEven.lt_of_lt_int (h : RoundsHalfEven y n) {c : ℤ} (hz : z < c) (hc : c ≤ y) :
    |n - y| < |z - y| := by
  have hn := (h.le_int c).1
  rw [abs_of_nonpos (sub_nonpos.2 hc)] at hn
  rw [abs_of_neg (show z - y < 0 by linarith)]
  linarith

theorem RoundsHalfEven.le_of_lt (h : RoundsHalfEven y n) (hy : y < N) : n ≤ N := by
  have hle := (abs_le.1 h.1).2
  have hlt : (n : ℝ) < N + 1 := by linarith
  exact Nat.lt_succ_iff.1 (by exact_mod_cast hlt)

theorem RoundsHalfEven.ge_of_ge (h : RoundsHalfEven y n) (hy : N ≤ y) : N ≤ n := by
  have hge := (abs_le.1 h.1).1
  have hlt : (N : ℝ) < n + 1 := by linarith
  exact Nat.lt_succ_iff.1 (by exact_mod_cast hlt)

/-- Half a unit below an even integer is already rounded up to it. -/
theorem RoundsHalfEven.lt_iff (h : RoundsHalfEven y n) (hN : N % 2 = 0) :
    n < N ↔ y < N - 1 / 2 := by
  obtain ⟨hlow, hhigh⟩ := abs_le.1 h.1
  constructor
  · intro hn
    have hle : (n : ℝ) + 1 ≤ N := by exact_mod_cast hn
    refine lt_of_le_of_ne (by linarith) fun hy => ?_
    have heq : (n : ℝ) + 1 = N := by linarith
    have herr : (n : ℝ) - y = -(1 / 2) := by linarith
    have heven : n % 2 = 0 := h.2 (by rw [herr, abs_neg, abs_of_pos one_half_pos])
    have hsucc : n + 1 = N := by exact_mod_cast heq
    omega
  · intro hy
    have hlt : (n : ℝ) < N := by linarith
    exact_mod_cast hlt

end

/-- The remainder decides: above half up, below half down, at half to the even quotient. -/
theorem Ieee.nearestEven_error (a cut : ℕ) :
    ∃ r : ℤ, (a : ℤ) = Ieee.nearestEven a cut * 2 ^ cut + r ∧ 2 * r.natAbs ≤ 2 ^ cut ∧
      (2 * r.natAbs = 2 ^ cut → Ieee.nearestEven a cut % 2 = 0) := by
  have hdiv : (a : ℤ) = (a / 2 ^ cut : ℕ) * 2 ^ cut + (a % 2 ^ cut : ℕ) := by
    exact_mod_cast (Nat.div_add_mod' a (2 ^ cut)).symm
  have hlt : a % 2 ^ cut < 2 ^ cut := Nat.mod_lt _ (Nat.two_pow_pos cut)
  have hup : (a : ℤ) =
      (a / 2 ^ cut + 1 : ℕ) * 2 ^ cut + ((a % 2 ^ cut : ℕ) - (2 ^ cut : ℕ)) := by
    rw [Nat.cast_add_one, Nat.cast_pow, Nat.cast_ofNat]
    linarith
  simp only [Ieee.nearestEven]
  split
  · exact ⟨_, hup, by omega, by omega⟩
  · split
    · exact ⟨_, hup, by omega, by omega⟩
    · exact ⟨_, hdiv, by omega, by omega⟩

theorem Ieee.nearestEven_roundsHalfEven (a cut : ℕ) :
    RoundsHalfEven (a / 2 ^ cut) (Ieee.nearestEven a cut) := by
  obtain ⟨r, ha, hle, heven⟩ := Ieee.nearestEven_error a cut
  have hpos : (0 : ℝ) < 2 ^ cut := by positivity
  have habs : |(r : ℝ)| = r.natAbs := by rw [Nat.cast_natAbs, Int.cast_abs]
  have hle' : 2 * (r.natAbs : ℝ) ≤ 2 ^ cut := by exact_mod_cast hle
  have ha' : (a : ℝ) = Ieee.nearestEven a cut * 2 ^ cut + r := by exact_mod_cast ha
  have herr : |(Ieee.nearestEven a cut : ℝ) - a / 2 ^ cut| = r.natAbs / 2 ^ cut := by
    rw [ha', add_div, mul_div_cancel_right₀ _ hpos.ne', sub_add_cancel_left, abs_neg, abs_div,
      abs_of_pos hpos, habs]
  rw [RoundsHalfEven, herr, div_le_iff₀ hpos, div_eq_iff hpos.ne']
  refine ⟨by linarith, fun htie => heven ?_⟩
  have htie' : 2 * (r.natAbs : ℝ) = 2 ^ cut := by linarith
  exact_mod_cast htie'

/-! ## The grid of binary64 values -/

/-- The pattern `Ieee.round` builds stands for its rounded significand times `2^e`; a carry out of
the significand is a step of the exponent. -/
theorem Ieee.units_pack (neg : Bool) {e n : ℕ} (hmag : e * 2 ^ 52 + n < 2 ^ 63)
    (hlow : e = 0 ∨ 2 ^ 52 ≤ n) (hhigh : n ≤ 2 ^ 53) :
    Ieee.units (Ieee.pack neg (e * 2 ^ 52 + n)) = n * 2 ^ e := by
  rw [Ieee.units, Ieee.expField_pack neg hmag, Ieee.fracField_pack neg hmag]
  rcases Nat.lt_or_ge n (2 ^ 52) with hsub | hnorm
  · obtain rfl : e = 0 := by omega
    rw [if_pos (by omega), Nat.mod_eq_of_lt (by omega)]
    simp
  · rcases Nat.lt_or_ge n (2 ^ 53) with hlt | hcarry
    · have hdiv : (e * 2 ^ 52 + n) / 2 ^ 52 = e + 1 := by omega
      have hmod : 2 ^ 52 + (e * 2 ^ 52 + n) % 2 ^ 52 = n := by omega
      rw [hdiv, hmod, if_neg (by omega), Nat.add_sub_cancel]
    · obtain rfl : n = 2 ^ 53 := by omega
      have hdiv : (e * 2 ^ 52 + 2 ^ 53) / 2 ^ 52 = e + 2 := by omega
      have hmod : (e * 2 ^ 52 + 2 ^ 53) % 2 ^ 52 = 0 := by omega
      rw [hdiv, hmod, if_neg (by omega), Nat.add_sub_assoc (by decide), pow_add]
      ring

/-- From `2^(52+e)` units on, a value is a multiple of `2^e` units. -/
theorem Ieee.two_pow_dvd_units (w : F64) (e : ℕ) :
    2 ^ e ∣ Ieee.units w ∨ Ieee.units w < 2 ^ 52 * 2 ^ e := by
  have hfrac := Ieee.fracField_lt w
  unfold Ieee.units
  split
  · exact .inr (hfrac.trans_le (Nat.le_mul_of_pos_right _ (Nat.two_pow_pos e)))
  · next hexp =>
    rcases Nat.lt_or_ge (Ieee.expField w - 1) e with hlt | hge
    · right
      calc (2 ^ 52 + Ieee.fracField w) * 2 ^ (Ieee.expField w - 1)
          < 2 ^ 53 * 2 ^ (Ieee.expField w - 1) :=
            Nat.mul_lt_mul_of_pos_right (by omega) (Nat.two_pow_pos _)
        _ = 2 ^ 52 * 2 ^ (Ieee.expField w - 1 + 1) := by ring
        _ ≤ 2 ^ 52 * 2 ^ e := Nat.mul_le_mul_left _ (Nat.pow_le_pow_right (by decide) hlt)
    · exact .inl (Dvd.dvd.mul_left (Nat.pow_dvd_pow 2 hge) _)

/-- On the scale of `2^e` units a value is an integer or below `2^52`. -/
theorem Ieee.signedUnits_scaled (w : F64) (e : ℕ) :
    (∃ k : ℤ, (Ieee.signedUnits w : ℝ) / 2 ^ e = k) ∨
      (Ieee.signedUnits w : ℝ) / 2 ^ e < 2 ^ 52 := by
  have hpos : (0 : ℝ) < 2 ^ e := by positivity
  have hle : Ieee.signedUnits w ≤ Ieee.units w := by unfold Ieee.signedUnits; split <;> omega
  rcases Ieee.two_pow_dvd_units w e with hdvd | hlt
  · have hdvd' : (2 ^ e : ℤ) ∣ Ieee.signedUnits w := by
      have hcast : (2 ^ e : ℤ) ∣ Ieee.units w := by exact_mod_cast hdvd
      unfold Ieee.signedUnits
      split
      · exact (dvd_neg.2 hcast)
      · exact hcast
    obtain ⟨k, hk⟩ := hdvd'
    refine .inl ⟨k, ?_⟩
    rw [hk, Int.cast_mul, Int.cast_pow, Int.cast_ofNat, mul_div_cancel_left₀ _ hpos.ne']
  · right
    rw [div_lt_iff₀ hpos]
    exact_mod_cast hle.trans_lt (by exact_mod_cast hlt)

theorem Ieee.cast_value (w : F64) : (Ieee.value w : ℝ) = Ieee.signedUnits w / 2 ^ 1074 := by
  rw [Ieee.value, Rat.cast_div, Rat.cast_intCast, Rat.cast_pow, Rat.cast_ofNat]

/-- The distance of a value to a number on the scale of `2^e` units. -/
theorem Ieee.abs_value_sub (w : F64) (y : ℝ) (e : ℕ) :
    |(Ieee.value w : ℝ) - y * 2 ^ e / 2 ^ 1074| =
      |(Ieee.signedUnits w : ℝ) / 2 ^ e - y| * (2 ^ e / 2 ^ 1074) := by
  have hpos : (0 : ℝ) < 2 ^ e := by positivity
  have hscale : (0 : ℝ) < 2 ^ e / 2 ^ 1074 := by positivity
  have hdiff : (Ieee.value w : ℝ) - y * 2 ^ e / 2 ^ 1074 =
      ((Ieee.signedUnits w : ℝ) / 2 ^ e - y) * (2 ^ e / 2 ^ 1074) := by
    rw [Ieee.cast_value, sub_mul, ← mul_div_assoc, div_mul_cancel₀ _ hpos.ne', ← mul_div_assoc]
  rw [hdiff, abs_mul, abs_of_pos hscale]

theorem Ieee.nearestEven_of_scaled {y : ℝ} {e n : ℕ} {r : F64} (hn : RoundsHalfEven y n)
    (hy : e = 0 ∨ 2 ^ 52 ≤ y) (hfin : Ieee.isFinite r = true)
    (hr : Ieee.signedUnits r = n * 2 ^ e) (heven : n % 2 = 0 → Ieee.fracField r % 2 = 0) :
    Ieee.NearestEven (y * 2 ^ e / 2 ^ 1074) r := by
  have hpos : (0 : ℝ) < 2 ^ e := by positivity
  have hscale : (0 : ℝ) < 2 ^ e / 2 ^ 1074 := by positivity
  have hr' : (Ieee.signedUnits r : ℝ) / 2 ^ e = n := by
    rw [hr, Int.cast_mul, Int.cast_pow, Int.cast_ofNat, Int.cast_natCast,
      mul_div_cancel_right₀ _ hpos.ne']
  refine ⟨hfin, fun w _ => ?_⟩
  rw [Ieee.abs_value_sub, Ieee.abs_value_sub, hr', mul_le_mul_iff_left₀ hscale,
    mul_left_inj' hscale.ne']
  have hint : (∃ k : ℤ, (Ieee.signedUnits w : ℝ) / 2 ^ e = k) ∨
      (Ieee.signedUnits w : ℝ) / 2 ^ e < 2 ^ 52 ∧ 2 ^ 52 ≤ y := by
    rcases hy with rfl | hy
    · exact .inl ⟨Ieee.signedUnits w, by rw [pow_zero, div_one]⟩
    · exact (Ieee.signedUnits_scaled w e).imp_right fun h => ⟨h, hy⟩
  rcases hint with ⟨k, hk⟩ | ⟨hlt, hle⟩
  · rw [hk]
    obtain ⟨hmin, htie⟩ := hn.le_int k
    refine ⟨hmin, fun heq hne => heven (htie heq fun hkn => hne ?_)⟩
    have hunits : (Ieee.signedUnits w : ℝ) = Ieee.signedUnits r := by
      rw [← div_left_inj' hpos.ne', hk, hr', hkn]
    rw [Ieee.value, Ieee.value, Int.cast_injective hunits]
  · have hc : ((2 ^ 52 : ℤ) : ℝ) = 2 ^ 52 := by rw [Int.cast_pow, Int.cast_ofNat]
    have hfar := hn.lt_of_lt_int (c := 2 ^ 52) (by rwa [hc]) (by rwa [hc])
    exact ⟨hfar.le, fun heq => absurd heq hfar.ne⟩

/-! ## The magnitude that is packed -/

/-- The exponent step of `a / 2^sh` units: how many integer bits `Ieee.dropped` drops. -/
def Ieee.expStep (a sh : ℕ) : ℕ := a.log2 + 1 - sh - 53

theorem Ieee.dropped_eq (a sh : ℕ) : Ieee.dropped a sh = sh + Ieee.expStep a sh := rfl

/-- The significand of `a / 2^sh` units, rounded to an integer. -/
def Ieee.significand (a sh : ℕ) : ℕ := Ieee.nearestEven a (sh + Ieee.expStep a sh)

theorem Ieee.round_eq (neg : Bool) (a sh : ℕ) :
    Ieee.round neg a sh =
      Ieee.pack neg (min (Ieee.expStep a sh * 2 ^ 52 + Ieee.significand a sh) Ieee.infBits) := by
  rw [Ieee.round, Ieee.dropped_eq, Nat.add_sub_cancel_left]
  rfl

section
variable (a sh : ℕ)

theorem Ieee.significand_roundsHalfEven :
    RoundsHalfEven (a / 2 ^ (sh + Ieee.expStep a sh)) (Ieee.significand a sh) :=
  Ieee.nearestEven_roundsHalfEven _ _

theorem Ieee.scaled_lt : (a : ℝ) / 2 ^ (sh + Ieee.expStep a sh) < (2 ^ 53 : ℕ) := by
  have hlt : a < 2 ^ 53 * 2 ^ (sh + Ieee.expStep a sh) := by
    rw [← pow_add]
    exact Nat.lt_log2_self.trans_le
      (Nat.pow_le_pow_right (by decide) (by unfold Ieee.expStep; omega))
  rw [div_lt_iff₀ (by positivity)]
  exact_mod_cast hlt

theorem Ieee.le_scaled :
    Ieee.expStep a sh = 0 ∨ ((2 ^ 52 : ℕ) : ℝ) ≤ a / 2 ^ (sh + Ieee.expStep a sh) := by
  refine or_iff_not_imp_left.2 fun hstep => ?_
  have hzero : Ieee.expStep 0 sh = 0 := by
    rw [Ieee.expStep, Nat.log2_zero]
    omega
  have ha : a ≠ 0 := by
    rintro rfl
    exact hstep hzero
  have hle : 2 ^ 52 * 2 ^ (sh + Ieee.expStep a sh) ≤ a := by
    rw [← pow_add]
    refine le_trans (Nat.pow_le_pow_right (by decide) ?_) (Nat.log2_self_le ha)
    unfold Ieee.expStep at hstep ⊢
    omega
  rw [le_div_iff₀ (by positivity)]
  exact_mod_cast hle

theorem Ieee.scaled_mul :
    (a : ℝ) / 2 ^ (sh + Ieee.expStep a sh) * 2 ^ Ieee.expStep a sh = a / 2 ^ sh := by
  rw [pow_add, ← div_div, div_mul_cancel₀ _ (by positivity)]

theorem Ieee.significand_le : Ieee.significand a sh ≤ 2 ^ 53 :=
  (Ieee.significand_roundsHalfEven a sh).le_of_lt (Ieee.scaled_lt a sh)

theorem Ieee.le_significand : Ieee.expStep a sh = 0 ∨ 2 ^ 52 ≤ Ieee.significand a sh :=
  (Ieee.le_scaled a sh).imp_right (Ieee.significand_roundsHalfEven a sh).ge_of_ge

end

/-! ## Overflow -/

/-- The bound of `Ieee.RoundedTo`, in the largest exponent step: half below `2^53`. -/
theorem Ieee.overflow_bound :
    (2 ^ 1024 - 2 ^ 970 : ℝ) = ((2 ^ 53 : ℕ) - 1 / 2) * 2 ^ 2045 / 2 ^ 1074 := by
  have h2045 : (2 : ℝ) ^ 2045 = 2 ^ 970 * 2 * 2 ^ 1074 := by
    rw [← pow_succ, ← pow_add]
  have h1024 : (2 : ℝ) ^ 1024 = 2 ^ 970 * 2 ^ 54 := by rw [← pow_add]
  have hpos : (2 : ℝ) ^ 1074 ≠ 0 := by positivity
  rw [h2045, h1024, ← mul_assoc, mul_div_cancel_right₀ _ hpos]
  generalize (2 : ℝ) ^ 970 = p
  push_cast
  ring

theorem Ieee.overflow_bound_pos : (0 : ℝ) < 2 ^ 1024 - 2 ^ 970 :=
  sub_pos.2 (pow_lt_pow_right₀ (by norm_num) (by norm_num))

/-- A number on the scale of `2^e` units is below the bound exactly when its pattern, with the
rounded significand, is below that of the infinities. -/
theorem Ieee.lt_infBits_iff {y : ℝ} {e n : ℕ} (hn : RoundsHalfEven y n)
    (hlow : e = 0 ∨ ((2 ^ 52 : ℕ) : ℝ) ≤ y) (hhigh : y < (2 ^ 53 : ℕ)) :
    e * 2 ^ 52 + n < Ieee.infBits ↔ y * 2 ^ e < ((2 ^ 53 : ℕ) - 1 / 2) * 2 ^ 2045 := by
  have hn53 : n ≤ 2 ^ 53 := hn.le_of_lt hhigh
  have hpos : (0 : ℝ) < 2 ^ e := by positivity
  unfold Ieee.infBits
  rcases Nat.lt_trichotomy e 2045 with hlt | rfl | hgt
  · refine iff_of_true (by omega) ?_
    have hstep : (2 : ℝ) ^ e * 2 ≤ 2 ^ 2045 := by
      rw [← pow_succ]
      exact pow_le_pow_right₀ one_le_two hlt
    calc y * 2 ^ e < (2 ^ 53 : ℕ) * 2 ^ e := mul_lt_mul_of_pos_right hhigh hpos
      _ ≤ ((2 ^ 53 : ℕ) - 1 / 2) * (2 ^ e * 2) := by
        push_cast
        linarith
      _ ≤ ((2 ^ 53 : ℕ) - 1 / 2) * 2 ^ 2045 :=
        mul_le_mul_of_nonneg_left hstep (by push_cast; norm_num)
  · rw [mul_lt_mul_iff_left₀ hpos, ← hn.lt_iff (by decide)]
    omega
  · have hy := hlow.resolve_left (by omega)
    have hn52 : 2 ^ 52 ≤ n := hn.ge_of_ge hy
    refine iff_of_false (by omega) (not_lt.2 ?_)
    have hstep : (2 : ℝ) ^ 2045 * 2 ≤ 2 ^ e := by
      rw [← pow_succ]
      exact pow_le_pow_right₀ one_le_two hgt
    have hhalf : ∀ p : ℝ, 0 < p → ((2 ^ 53 : ℕ) - 1 / 2) * p ≤ (2 ^ 52 : ℕ) * (p * 2) := by
      intro p hp
      push_cast
      linarith
    calc ((2 ^ 53 : ℕ) - 1 / 2) * (2 : ℝ) ^ 2045
        ≤ ((2 ^ 52 : ℕ) : ℝ) * (2 ^ 2045 * 2) := hhalf _ (by positivity)
      _ ≤ ((2 ^ 52 : ℕ) : ℝ) * 2 ^ e := mul_le_mul_of_nonneg_left hstep (Nat.cast_nonneg _)
      _ ≤ y * 2 ^ e := mul_le_mul_of_nonneg_right hy hpos.le

/-! ## Rounding once -/

theorem Ieee.roundedTo_round_false (a sh : ℕ) :
    Ieee.RoundedTo ((a : ℝ) / 2 ^ sh / 2 ^ 1074) (Ieee.round false a sh) := by
  have hn := Ieee.significand_roundsHalfEven a sh
  have hlow := Ieee.le_scaled a sh
  have hiff := Ieee.lt_infBits_iff hn hlow (Ieee.scaled_lt a sh)
  have hpos : (0 : ℝ) < 2 ^ 1074 := by positivity
  have hnonneg : (0 : ℝ) ≤ a / 2 ^ sh / 2 ^ 1074 := by positivity
  rw [Ieee.scaled_mul, ← div_lt_div_iff_of_pos_right hpos, ← Ieee.overflow_bound] at hiff
  simp only [Ieee.RoundedTo, abs_of_nonneg hnonneg, ← hiff, Ieee.round_eq]
  split
  · next hfin =>
    have hmag := hfin.trans Ieee.infBits_lt
    rw [min_eq_left hfin.le, ← Ieee.scaled_mul]
    refine Ieee.nearestEven_of_scaled hn (by exact_mod_cast hlow) (Ieee.isFinite_pack _ hfin) ?_ ?_
    · rw [Ieee.signedUnits, Ieee.negative_pack _ hmag, if_neg Bool.false_ne_true,
        Ieee.units_pack _ hmag (Ieee.le_significand a sh) (Ieee.significand_le a sh)]
      push_cast
      rfl
    · intro heven
      rw [Ieee.fracField_pack _ hmag]
      omega
  · next hinf =>
    rw [min_eq_right (not_lt.1 hinf), Ieee.negative_pack _ Ieee.infBits_lt]
    exact ⟨Ieee.isInf_pack_infBits false, by simpa using hnonneg⟩

theorem Ieee.NearestEven.neg {x : ℝ} {r : F64} (h : Ieee.NearestEven x r) :
    Ieee.NearestEven (-x) (Ieee.neg r) := by
  obtain ⟨hfin, hmin⟩ := h
  refine ⟨by rwa [Ieee.isFinite_neg], fun w hw => ?_⟩
  have hflip : ∀ v : F64, |(Ieee.value (Ieee.neg v) : ℝ) - -x| = |(Ieee.value v : ℝ) - x| := by
    intro v
    rw [Ieee.value_neg, Rat.cast_neg, neg_sub_neg, abs_sub_comm]
  obtain ⟨hle, htie⟩ := hmin (Ieee.neg w) (by rwa [Ieee.isFinite_neg])
  rw [← hflip (Ieee.neg w), Ieee.neg_neg_self, ← hflip r] at hle htie
  refine ⟨hle, fun heq hne => ?_⟩
  rw [Ieee.fracField_neg]
  refine htie heq fun hval => hne ?_
  rw [Ieee.value_neg, ← hval]
  simp

/-- Rounding to nearest, ties to even, is symmetric about 0. -/
theorem Ieee.RoundedTo.neg {x : ℝ} {r : F64} (h : Ieee.RoundedTo x r) :
    Ieee.RoundedTo (-x) (Ieee.neg r) := by
  unfold Ieee.RoundedTo at h ⊢
  rw [abs_neg]
  split at h
  · next hlt =>
    rw [if_pos hlt]
    exact h.neg
  · next hge =>
    obtain ⟨hinf, hsign⟩ := h
    have hx : x ≠ 0 := abs_pos.1 (Ieee.overflow_bound_pos.trans_le (not_lt.1 hge))
    rw [if_neg hge, Ieee.isInf_neg, Ieee.negative_neg, Bool.not_eq_true', ← Bool.not_eq_true, hsign,
      neg_lt_zero, not_lt]
    exact ⟨hinf, hx.symm.le_iff_lt⟩

theorem Ieee.round_true (a sh : ℕ) : Ieee.round true a sh = Ieee.neg (Ieee.round false a sh) :=
  Ieee.pack_true ((Nat.min_le_right _ _).trans_lt Ieee.infBits_lt)

/-- What `Ieee.round` rounds: `± a / 2^sh` units of `2^-1074`. -/
theorem Ieee.roundedTo_round (neg : Bool) (a sh : ℕ) :
    Ieee.RoundedTo ((if neg then -1 else 1) * ((a : ℝ) / 2 ^ sh / 2 ^ 1074))
      (Ieee.round neg a sh) := by
  have h := Ieee.roundedTo_round_false a sh
  cases neg
  · rwa [if_neg Bool.false_ne_true, one_mul]
  · rw [if_pos rfl, neg_one_mul, Ieee.round_true]
    exact h.neg

/-! ## The operations -/

theorem Ieee.round_zero_units (neg : Bool) : Ieee.round neg 0 0 = Ieee.pack neg 0 := rfl

theorem Ieee.cast_value_eq (v : F64) :
    (Ieee.value v : ℝ) = (if Ieee.negative v then -1 else 1) * (Ieee.units v / 2 ^ 1074) := by
  rw [Ieee.cast_value, Ieee.signedUnits]
  split
  · rw [Int.cast_neg, Int.cast_natCast, neg_one_mul, neg_div]
  · rw [Int.cast_natCast, one_mul]

/-- The sign of a product is the product of the signs. -/
theorem Ieee.sign_bne (s t : Bool) :
    ((if (s != t) then -1 else 1) : ℝ) = (if s then -1 else 1) * (if t then -1 else 1) := by
  cases s <;> cases t <;> simp

section
variable {a b : F64} (q : F64)

theorem Ieee.roundedTo_add (ha : Ieee.isFinite a = true) (hb : Ieee.isFinite b = true) :
    Ieee.RoundedTo ((Ieee.value a : ℝ) + (Ieee.value b : ℝ)) (Ieee.add q a b) := by
  rw [← Rat.cast_add, Ieee.value_add_value, Rat.cast_div, Rat.cast_intCast, Rat.cast_pow,
    Rat.cast_ofNat, Ieee.add_of_isFinite q ha hb]
  generalize Ieee.signedUnits a + Ieee.signedUnits b = sum
  split
  · next hzero =>
    have h := Ieee.roundedTo_round (Ieee.negative a && Ieee.negative b) 0 0
    rw [Ieee.round_zero_units, Nat.cast_zero, zero_div, zero_div, mul_zero] at h
    rwa [hzero, Int.cast_zero, zero_div]
  · have h := Ieee.roundedTo_round (sum < 0) sum.natAbs 0
    have hexact : ((if decide (sum < 0) = true then -1 else 1) : ℝ) *
        ((sum.natAbs : ℝ) / 2 ^ 0 / 2 ^ 1074) = sum / 2 ^ 1074 := by
      rw [pow_zero, div_one, Nat.cast_natAbs, ← mul_div_assoc]
      by_cases hneg : sum < 0
      · simp [hneg, abs_of_neg hneg]
      · simp [hneg, abs_of_nonneg (not_lt.1 hneg)]
    rwa [hexact] at h

theorem Ieee.roundedTo_sub (ha : Ieee.isFinite a = true) (hb : Ieee.isFinite b = true) :
    Ieee.RoundedTo ((Ieee.value a : ℝ) - (Ieee.value b : ℝ)) (Ieee.sub q a b) := by
  have h := Ieee.roundedTo_add q ha (b := Ieee.neg b) (by rwa [Ieee.isFinite_neg])
  rwa [Ieee.value_neg, Rat.cast_neg, ← sub_eq_add_neg] at h

theorem Ieee.roundedTo_mul (ha : Ieee.isFinite a = true) (hb : Ieee.isFinite b = true) :
    Ieee.RoundedTo ((Ieee.value a : ℝ) * (Ieee.value b : ℝ)) (Ieee.mul q a b) := by
  have hexact : (Ieee.value a : ℝ) * (Ieee.value b : ℝ) =
      (if (Ieee.negative a != Ieee.negative b) then -1 else 1) *
        (((Ieee.units a * Ieee.units b : ℕ) : ℝ) / 2 ^ 1074 / 2 ^ 1074) := by
    rw [Ieee.cast_value_eq, Ieee.cast_value_eq, Nat.cast_mul, Ieee.sign_bne]
    generalize (2 : ℝ) ^ 1074 = unit
    ring
  rw [hexact, Ieee.mul_of_isFinite q ha hb]
  exact Ieee.roundedTo_round _ _ _

theorem Ieee.roundedTo_divN (m : ℕ) (ha : Ieee.isFinite a = true) :
    Ieee.RoundedTo ((Ieee.value a : ℝ) / 2 ^ m) (Ieee.divN m q a) := by
  rw [Ieee.cast_value_eq, mul_div_assoc, div_right_comm, Ieee.divN_of_isFinite q m ha]
  exact Ieee.roundedTo_round _ _ _

end

/-- Settles O47: the exact sum is a number of units, which `Ieee.round` rounds once; a difference is
the sum with the negated operand. -/
theorem additionRoundsOnce : Obligations.AdditionRoundsOnce := fun q _ _ ha hb =>
  ⟨Ieee.roundedTo_add q ha hb, Ieee.roundedTo_sub q ha hb⟩

/-- Settles O48: the exact product is `units a * units b / 2^1074` units. -/
theorem multiplicationRoundsOnce : Obligations.MultiplicationRoundsOnce := fun q _ _ ha hb =>
  Ieee.roundedTo_mul q ha hb

/-- Settles O49: the exact quotient is `units a / 2^m` units; the negation is an exclusive or with
the sign bit. -/
theorem divisionRoundsOnceAndNegationIsExact :
    Obligations.DivisionRoundsOnceAndNegationIsExact :=
  ⟨fun m q _ ha => Ieee.roundedTo_divN q m ha,
    fun a => ⟨Ieee.msb_neg a, Ieee.setWidth_neg a, Ieee.neg_neg_self a⟩⟩

end Sys2Proof.Machine

/-! PROOFS. What the instructions keep: the frame of each operation, the invariant of the machine
(rules R126, R146, R174, R209, R245) and the writers of the data spaces (rule R62); what a step
fetches, the layout of `STATUS` and `CFG`, and the state after reset. -/
namespace Sys2Proof.Machine

/-! ## Spaces a step writes inside -/

/-- What a step does to a signal buffer of `n` elements: the canonical form stays, and so does every
element holding a value (rules R22, R174). -/
def Cells.KeptIn {α : Type} (n : Nat) (c c' : Cells α) : Prop :=
  (c.wf n → c'.wf n) ∧ (c.populated n = true → c'.populated n = true)

section
variable {α : Type} {n : Nat} {c c' : Cells α}

theorem Cells.KeptIn.refl (n : Nat) (c : Cells α) : c.KeptIn n c := ⟨id, id⟩

theorem Cells.KeptIn.write (h : c.KeptIn n c') {a : Nat} (ha : a < n) (v : α) :
    c.KeptIn n (c'.write a v) :=
  ⟨fun hc => Cells.write_wf v (h.1 hc) ha, fun hc => Cells.populated_write a v (h.2 hc)⟩

theorem Cells.KeptIn.ite (h : c.KeptIn n c') (p : Prop) [Decidable p] :
    c.KeptIn n (if p then c' else c) := by
  split
  · exact h
  · exact .refl n c

/-- A contract value written anywhere leaves the contract values that are there (rules R127,
R147). -/
theorem Cells.read_write_of_agrees {f : Nat → α} {upto : Nat} (a : Nat)
    (h : ∀ i < upto, c.read i = some (f i)) :
    ∀ i < upto, (c.write a (f a)).read i = some (f i) := by
  intro i hi
  rw [Cells.read_write]
  split
  · next heq => rw [heq]
  · exact h i hi

/-- The next contract value written extends the part that is built (rules R124, R142). -/
theorem Cells.read_write_succ_of_agrees {f : Nat → α} {upto : Nat}
    (h : ∀ i < upto, c.read i = some (f i)) :
    ∀ i < upto + 1, (c.write upto (f upto)).read i = some (f i) := by
  intro i hi
  rw [Cells.read_write]
  split
  · next heq => rw [heq]
  · exact h i (by omega)

end

/-! ## The reversed increment -/

/-- The probe loop carries through the ones of the accumulator, which are the low ones of the index,
and `m` tests suffice below the last index (rule R143). -/
theorem brAdvance_rev {m i : Nat} (h : i + 1 < 2 ^ m) :
    ∃ k, 1 ≤ k ∧ ∀ fuel, m ≤ fuel →
      brAdvance fuel (rev m i) (2 ^ m / 2) = some (rev m (i + 1), k) := by
  induction m generalizing i with
  | zero => omega
  | succ m ih =>
    have hpos : 0 < 2 ^ m := Nat.two_pow_pos m
    have hprobe : 2 ^ (m + 1) / 2 = 2 ^ m := by omega
    have hlow := rev_lt m (i / 2)
    rcases Nat.mod_two_eq_zero_or_one i with heven | hodd
    · have hj : rev (m + 1) i = rev m (i / 2) := by simp [rev, heven]
      have hnext : rev (m + 1) (i + 1) = rev m (i / 2) + 2 ^ m := by
        have hmod : (i + 1) % 2 = 1 := by omega
        have hdiv : (i + 1) / 2 = i / 2 := by omega
        rw [rev, hmod, hdiv, one_mul, Nat.add_comm]
      refine ⟨2 ^ m, hpos, fun fuel hfuel => ?_⟩
      obtain ⟨fuel, rfl⟩ := Nat.exists_eq_add_of_le' (Nat.le_trans (Nat.succ_pos m) hfuel)
      rw [hj, hnext, hprobe, brAdvance, if_neg hpos.ne', if_neg (Nat.not_le.2 hlow)]
    · have hj : rev (m + 1) i = rev m (i / 2) + 2 ^ m := by simp [rev, hodd, Nat.add_comm]
      have hnext : rev (m + 1) (i + 1) = rev m (i / 2 + 1) := by
        have hmod : (i + 1) % 2 = 0 := by omega
        have hdiv : (i + 1) / 2 = i / 2 + 1 := by omega
        rw [rev, hmod, hdiv, zero_mul, zero_add]
      obtain ⟨k, hk, hrest⟩ := ih (i := i / 2) (by omega)
      refine ⟨k, hk, fun fuel hfuel => ?_⟩
      obtain ⟨fuel, rfl⟩ := Nat.exists_eq_add_of_le' (Nat.le_trans (Nat.succ_pos m) hfuel)
      rw [hj, hnext, hprobe, brAdvance, if_neg hpos.ne', if_pos (Nat.le_add_left _ _),
        Nat.add_sub_cancel, hrest fuel (by omega)]

theorem brNext_rev {m i : Nat} (h : i + 1 < 2 ^ m) :
    ∃ k, 1 ≤ k ∧ brNext m (rev m i) = some (rev m (i + 1), k) := by
  obtain ⟨k, hk, hloop⟩ := brAdvance_rev h
  exact ⟨k, hk, hloop (m + 1) (Nat.le_succ m)⟩

/-! ## Frames -/

/-- What every operation but a table write and `RESET` keeps: the parameters, both tables with their
valid bits, and the buffers in the sense of `Cells.KeptIn`. -/
structure Engine.Keeps {α : Type} (e f : Engine α) : Prop where
  params : f.SameParams e
  sintbl : f.sintbl = e.sintbl
  bitrev : f.bitrev = e.bitrev
  sinv : f.sinv = e.sinv
  brv : f.brv = e.brv
  x : e.x.KeptIn e.len f.x
  y : e.y.KeptIn e.len f.y

section
variable {α : Type} {A : Arith α} {e f : Engine α}

theorem Engine.Keeps.refl (e : Engine α) : e.Keeps e :=
  ⟨.refl e, rfl, rfl, rfl, rfl, .refl _ _, .refl _ _⟩

theorem Engine.Keeps.len_eq (h : e.Keeps f) : f.len = e.len := congrArg Params.len h.params.1

theorem Engine.Keeps.sineLen_eq (h : e.Keeps f) : f.sineLen = e.sineLen :=
  congrArg Params.sineLen h.params.1

/-- Entering a stage after an operation keeps what the operation keeps. -/
theorem Engine.Keeps.enterStage (h : e.Keeps f) (kn : Nat) : e.Keeps (f.enterStage kn) where
  params := ⟨(f.enterStage_m kn).trans h.params.1, (f.enterStage_preload kn).trans h.params.2⟩
  sintbl := (f.enterStage_sintbl kn).trans h.sintbl
  bitrev := (f.enterStage_bitrev kn).trans h.bitrev
  sinv := (f.enterStage_sinv kn).trans h.sinv
  brv := (f.enterStage_brv kn).trans h.brv
  x := (f.enterStage_x kn).symm ▸ h.x
  y := (f.enterStage_y kn).symm ▸ h.y

theorem Engine.raise_keeps (e : Engine α) (c : ErrCode) : e.Keeps (e.raise c) :=
  { Engine.Keeps.refl e with }

theorem Engine.startMksin_keeps (e : Engine α) : e.Keeps e.startMksin :=
  { Engine.Keeps.refl e with }

theorem Engine.startMkbrev_keeps (e : Engine α) : e.Keeps e.startMkbrev :=
  { Engine.Keeps.refl e with }

theorem Engine.startXform_keeps {dir : Direction} (h : e.startXform dir = .next f) :
    e.Keeps f := by
  rcases Engine.startXform_next.1 h with ⟨-, rfl⟩ | ⟨-, -, -, rfl⟩
  · exact e.raise_keeps _
  · exact { Engine.Keeps.refl e with }

theorem Engine.len_pos (e : Engine α) : 0 < e.len := Nat.two_pow_pos e.m

theorem Engine.revAt_lt_len (e : Engine α) (i : Nat) : e.revAt i < e.len :=
  Nat.mod_lt _ e.len_pos

theorem Engine.permWork_keeps (A : Arith α) {i : Nat} (h : i < e.len) :
    e.Keeps (e.permWork A i) :=
  { Engine.Keeps.refl e with
    x := (((Cells.KeptIn.refl _ _).write h _).write (e.revAt_lt_len i) _).ite _
    y := (((Cells.KeptIn.refl _ _).write h _).write (e.revAt_lt_len i) _).ite _ }

theorem Engine.bflyWork_keeps (A : Arith α) {i k : Nat} (h : i + k < e.len) :
    e.Keeps (e.bflyWork A i k) :=
  have hi : i < e.len := Nat.lt_of_le_of_lt (Nat.le_add_right i k) h
  { Engine.Keeps.refl e with
    x := ((Cells.KeptIn.refl _ _).write h _).write hi _
    y := ((Cells.KeptIn.refl _ _).write h _).write hi _ }

theorem Engine.normWork_keeps (A : Arith α) {i : Nat} (h : i < e.len) :
    e.Keeps (e.normWork A i) :=
  { Engine.Keeps.refl e with
    x := (Cells.KeptIn.refl _ _).write h _
    y := (Cells.KeptIn.refl _ _).write h _ }

/-- Counters and phase are free of the frame. -/
theorem Engine.Keeps.sequenced (h : e.Keeps f) (phase : Phase) (i j h' : Nat) :
    e.Keeps { f with phase := phase, i := i, j := j, h := h' } :=
  { h with }

theorem Engine.perm_keeps (h : e.perm A = .next f) : e.Keeps f := by
  obtain ⟨hi, rfl⟩ := Engine.perm_next.1 h
  have hwork := (Engine.permWork_keeps A hi).sequenced e.phase (e.i + 1) e.j e.h
  split
  · exact hwork.enterStage 1
  · exact hwork

theorem Engine.twld_keeps (h : e.twld A = .next f) : e.Keeps f := by
  obtain ⟨-, rfl⟩ := Engine.twld_next.1 h
  exact { Engine.Keeps.refl e with }

theorem Engine.bfly_keeps (h : e.bfly A = .next f) : e.Keeps f := by
  obtain ⟨hik, rfl⟩ := Engine.bfly_next.1 h
  have hwork := Engine.bflyWork_keeps A hik
  split
  · exact hwork.sequenced e.phase (e.i + e.k2) e.j e.h
  · split
    · exact hwork.sequenced .twld (e.i + e.k2) (e.j + 1) (e.h + e.d)
    · exact (hwork.sequenced e.phase (e.i + e.k2) (e.j + 1) (e.h + e.d)).enterStage e.k2

theorem Engine.norm_keeps (h : e.norm A = .next f) : e.Keeps f := by
  obtain ⟨hi, rfl⟩ := Engine.norm_next.1 h
  have hwork := Engine.normWork_keeps A hi
  split
  · exact hwork.sequenced .idle (e.i + 1) e.j e.h
  · exact hwork.sequenced e.phase (e.i + 1) e.j e.h

end

section
variable {e f : Engine F64}

theorem Engine.command_keeps {w : Word} (h : e.command w = .next f) : e.Keeps f := by
  rcases Engine.command_next.1 h with ⟨-, rfl⟩ | ⟨-, rfl⟩ | ⟨-, h⟩ | ⟨-, h⟩ | ⟨-, rfl⟩
  · exact e.startMksin_keeps
  · exact e.startMkbrev_keeps
  · exact Engine.startXform_keeps h
  · exact Engine.startXform_keeps h
  · exact e.raise_keeps _

theorem Engine.writable_x {index : Nat} (h : e.writable .x index = true) : index < e.len := by
  simpa [Engine.writable] using h

theorem Engine.writable_y {index : Nat} (h : e.writable .y index = true) : index < e.len := by
  simpa [Engine.writable] using h

theorem Engine.hostStore_keeps {space : Space} {index : Nat} {data : Datum}
    (h : e.hostStore space index data = .next f) : e.Keeps f := by
  rcases Engine.hostStore_next.1 h with
    ⟨-, rfl⟩ | ⟨hw, ⟨v, rfl, -, rfl⟩ | ⟨v, rfl, -, rfl⟩ | ⟨w, -, -, h⟩⟩
  · exact e.raise_keeps _
  · exact { Engine.Keeps.refl e with x := (Cells.KeptIn.refl _ _).write (Engine.writable_x hw) v }
  · exact { Engine.Keeps.refl e with y := (Cells.KeptIn.refl _ _).write (Engine.writable_y hw) v }
  · exact Engine.command_keeps h

end

/-! ## The invariant, phase by phase -/

section
variable {α : Type} {A : Arith α} {e f : Engine α}

theorem Engine.phaseOk_sinb (hp : e.phase = .sinb) :
    e.PhaseOk A ↔ e.si < e.sineLen ∧ e.SineBuilt A e.si := by simp only [Engine.PhaseOk, hp]

theorem Engine.phaseOk_brvb (hp : e.phase = .brvb) :
    e.PhaseOk A ↔ e.bi < e.len ∧ e.bj = rev e.m e.bi ∧ e.RevBuilt e.bi := by
  simp only [Engine.PhaseOk, hp]

theorem Engine.phaseOk_perm (hp : e.phase = .perm) :
    e.PhaseOk A ↔ e.Ready ∧ e.i < e.len := by simp only [Engine.PhaseOk, hp]

theorem Engine.phaseOk_twld (hp : e.phase = .twld) :
    e.PhaseOk A ↔ e.Ready ∧ e.InStage := by simp only [Engine.PhaseOk, hp]

theorem Engine.phaseOk_bfly (hp : e.phase = .bfly) :
    e.PhaseOk A ↔ e.Ready ∧ e.InStage ∧ ∃ t < e.d, e.i = e.j + t * e.k2 := by
  simp only [Engine.PhaseOk, hp]

theorem Engine.phaseOk_norm (hp : e.phase = .norm) :
    e.PhaseOk A ↔ e.Ready ∧ e.i < e.len ∧ e.dir = .fwd := by simp only [Engine.PhaseOk, hp]

theorem Engine.Inv.err_eq_none (h : e.Inv A) (hp : e.phase ≠ .halt) : e.err = .none := by
  by_contra herr
  exact hp (h.halt_iff.2 herr)

theorem Engine.halt_iff_of_running (hp : e.phase ≠ .halt) (herr : e.err = .none) :
    e.phase = .halt ↔ e.err ≠ .none :=
  iff_of_false hp (not_not.2 herr)

theorem Engine.populated_iff :
    e.populated = true ↔ e.x.populated e.len = true ∧ e.y.populated e.len = true := by
  simp [Engine.populated]

/-- What an `XFORM` checked at its start stays so (rules R161, R174). -/
theorem Engine.Keeps.ready (h : e.Keeps f) (hr : e.Ready) : f.Ready := by
  obtain ⟨hs, hb, hp⟩ := hr
  obtain ⟨hx, hy⟩ := Engine.populated_iff.1 hp
  refine ⟨h.sinv.trans hs, h.brv.trans hb, Engine.populated_iff.2 ?_⟩
  rw [h.len_eq]
  exact ⟨h.x.2 hx, h.y.2 hy⟩

/-- Inside the frame only `ERR` and the entry condition of the phase are left to show. -/
theorem Engine.Keeps.inv (h : e.Keeps f) (hi : e.Inv A) (halt : f.phase = .halt ↔ f.err ≠ .none)
    (hok : f.PhaseOk A) : f.Inv A := by
  obtain ⟨hm, hpre⟩ := h.params
  exact
    { admitted := hm ▸ hi.admitted
      x_wf := h.len_eq ▸ h.x.1 hi.x_wf
      y_wf := h.len_eq ▸ h.y.1 hi.y_wf
      sintbl_wf := h.sineLen_eq ▸ h.sintbl ▸ hi.sintbl_wf
      bitrev_wf := h.len_eq ▸ h.bitrev ▸ hi.bitrev_wf
      halt_iff := halt
      sine_valid := by
        rw [h.sinv, Engine.SineBuilt, h.sineLen_eq, h.sintbl, hm]
        exact hi.sine_valid
      rev_valid := by
        rw [h.brv, Engine.RevBuilt, h.len_eq, h.bitrev, hm]
        exact hi.rev_valid
      preload_valid := by
        rw [hpre, h.sinv, h.brv]
        exact hi.preload_valid
      phase_ok := hok }

/-- The same while a command executes, where no fault is recorded (rule R245). -/
theorem Engine.Keeps.inv_of_running (h : e.Keeps f) (hi : e.Inv A) (he : e.phase ≠ .halt)
    (herr : f.err = e.err) (hf : f.phase ≠ .halt) (hok : f.PhaseOk A) : f.Inv A :=
  h.inv hi (Engine.halt_iff_of_running hf (herr.trans (hi.err_eq_none he))) hok

/-! ## Host moves keep the invariant -/

theorem Engine.raise_inv {c : ErrCode} (hi : e.Inv A) (hc : c ≠ .none) : (e.raise c).Inv A :=
  (e.raise_keeps c).inv hi (iff_of_true rfl hc) trivial

theorem Engine.startMksin_inv (hi : e.Inv A) (hp : e.phase = .idle) : e.startMksin.Inv A := by
  refine e.startMksin_keeps.inv_of_running hi (by simp [hp]) rfl (by simp) ?_
  have hpos : 0 < e.sineLen := Nat.lt_of_lt_of_le e.len_pos (Nat.le_add_right _ _)
  exact (Engine.phaseOk_sinb rfl).2 ⟨hpos, fun _ h => absurd h (Nat.not_lt_zero _)⟩

theorem Engine.startMkbrev_inv (hi : e.Inv A) (hp : e.phase = .idle) : e.startMkbrev.Inv A := by
  refine e.startMkbrev_keeps.inv_of_running hi (by simp [hp]) rfl (by simp) ?_
  exact (Engine.phaseOk_brvb rfl).2
    ⟨e.len_pos, (rev_zero_right e.m).symm, fun _ h => absurd h (Nat.not_lt_zero _)⟩

theorem Engine.startXform_inv {dir : Direction} (hi : e.Inv A) (hp : e.phase = .idle)
    (h : e.startXform dir = .next f) : f.Inv A := by
  have hkeep := Engine.startXform_keeps h
  rcases Engine.startXform_next.1 h with ⟨-, rfl⟩ | ⟨hs, hb, hpop, rfl⟩
  · exact Engine.raise_inv hi (by simp)
  · exact hkeep.inv_of_running hi (by simp [hp]) rfl (by simp)
      ((Engine.phaseOk_perm rfl).2 ⟨⟨hs, hb, hpop⟩, e.len_pos⟩)

theorem Engine.command_inv {w : Word} (hi : e.Inv A) (hp : e.phase = .idle)
    (h : e.command w = .next f) : f.Inv A := by
  rcases Engine.command_next.1 h with ⟨-, rfl⟩ | ⟨-, rfl⟩ | ⟨-, h⟩ | ⟨-, h⟩ | ⟨-, rfl⟩
  · exact Engine.startMksin_inv hi hp
  · exact Engine.startMkbrev_inv hi hp
  · exact Engine.startXform_inv hi hp h
  · exact Engine.startXform_inv hi hp h
  · exact Engine.raise_inv hi (by simp)

/-! ## Micro-operations keep the invariant -/

theorem Engine.sinw_inv (hi : e.Inv A) (hp : e.phase = .sinb) (h : e.sinw A = .next f) :
    f.Inv A := by
  obtain ⟨-, hbuilt⟩ := (Engine.phaseOk_sinb hp).1 hi.phase_ok
  obtain ⟨hsi, rfl⟩ := Engine.sinw_next.1 h
  have herr := hi.err_eq_none (by simp [hp])
  have hsucc := Cells.read_write_succ_of_agrees hbuilt
  by_cases hlast : e.si + 1 = e.sineLen
  · rw [hlast] at hsucc
    simp only [hlast, if_true]
    exact
      { hi with
        sintbl_wf := Cells.write_wf _ hi.sintbl_wf hsi
        halt_iff := Engine.halt_iff_of_running (by simp) herr
        sine_valid := fun _ => hsucc
        preload_valid := fun hpre => ⟨rfl, (hi.preload_valid hpre).2⟩
        phase_ok := trivial }
  · simp only [hlast, if_false]
    exact
      { hi with
        sintbl_wf := Cells.write_wf _ hi.sintbl_wf hsi
        sine_valid := fun hv => Cells.read_write_of_agrees _ (hi.sine_valid hv)
        phase_ok := (Engine.phaseOk_sinb (by simp [hp])).2 ⟨Nat.lt_of_le_of_ne hsi hlast, hsucc⟩ }

theorem Engine.brvs_inv (hi : e.Inv A) (hp : e.phase = .brvb) (h : e.brvs = .next f) :
    f.Inv A := by
  obtain ⟨-, hbj, hbuilt⟩ := (Engine.phaseOk_brvb hp).1 hi.phase_ok
  have herr := hi.err_eq_none (by simp [hp])
  have hsucc := Cells.read_write_succ_of_agrees hbuilt
  obtain ⟨hbi, ⟨hlast, rfl⟩ | ⟨hlast, bj, bk, hnext, rfl⟩⟩ := Engine.brvs_next.1 h
  · rw [hlast] at hsucc
    rw [hbj]
    exact
      { hi with
        bitrev_wf := Cells.write_wf _ hi.bitrev_wf hbi
        halt_iff := Engine.halt_iff_of_running (by simp) herr
        rev_valid := fun _ => hsucc
        preload_valid := fun hpre => ⟨(hi.preload_valid hpre).1, rfl⟩
        phase_ok := trivial }
  · have hlt : e.bi + 1 < e.len := Nat.lt_of_le_of_ne hbi hlast
    obtain ⟨k, -, hrev⟩ := brNext_rev hlt
    obtain ⟨rfl, rfl⟩ : rev e.m (e.bi + 1) = bj ∧ k = bk := by
      simpa [← hbj, hnext] using hrev.symm
    rw [hbj]
    exact
      { hi with
        bitrev_wf := Cells.write_wf _ hi.bitrev_wf hbi
        rev_valid := fun hv => Cells.read_write_of_agrees _ (hi.rev_valid hv)
        phase_ok := (Engine.phaseOk_brvb (by simp [hp])).2 ⟨hlt, rfl, hsucc⟩ }

/-- The first group of a stage (rule R173). -/
theorem Engine.enterStage_inStage {s : Nat} (hs : s < e.m) : (e.enterStage (2 ^ s)).InStage := by
  have hk2 : 2 * 2 ^ s = 2 ^ (s + 1) := (pow_succ' 2 s).symm
  have hd : e.len / (2 * 2 ^ s) = 2 ^ (e.m - (s + 1)) := by
    rw [hk2]
    exact Nat.pow_div hs (by decide)
  rw [Engine.enterStage_of_lt (Nat.pow_lt_pow_right (by decide) hs)]
  exact ⟨s, hs, rfl, hk2, hd, Nat.two_pow_pos s, (Nat.zero_mul _).symm⟩

/-- A stage is entered at a power of two: its first group, or the end of the stages (rule R173). -/
theorem Engine.enterStage_phaseOk (s : Nat) (hr : e.Ready) :
    (e.enterStage (2 ^ s)).PhaseOk A ∧ (e.enterStage (2 ^ s)).phase ≠ .halt := by
  have hready := ((Engine.Keeps.refl e).enterStage (2 ^ s)).ready hr
  rcases e.enterStage_cases (2 ^ s) with ⟨hlt, heq⟩ | ⟨-, hdir, heq⟩ | ⟨-, -, heq⟩
  · have hstage := e.enterStage_inStage ((Nat.pow_lt_pow_iff_right (by decide)).1 hlt)
    rw [heq] at hready hstage ⊢
    exact ⟨(Engine.phaseOk_twld rfl).2 ⟨hready, hstage⟩, by simp⟩
  · rw [heq] at hready ⊢
    exact ⟨(Engine.phaseOk_norm rfl).2 ⟨hready, e.len_pos, hdir⟩, by simp⟩
  · rw [heq]
    exact ⟨trivial, by simp⟩

theorem Engine.perm_inv (hi : e.Inv A) (hp : e.phase = .perm) (h : e.perm A = .next f) :
    f.Inv A := by
  obtain ⟨hr, -⟩ := (Engine.phaseOk_perm hp).1 hi.phase_ok
  have hkeep := Engine.perm_keeps h
  obtain ⟨hlt, rfl⟩ := Engine.perm_next.1 h
  by_cases hlast : e.i + 1 = e.len
  · obtain ⟨hok, hhalt⟩ := Engine.enterStage_phaseOk (A := A) 0
      (((Engine.permWork_keeps A hlt).sequenced e.phase (e.i + 1) e.j e.h).ready hr)
    rw [if_pos hlast] at hkeep ⊢
    exact hkeep.inv_of_running hi (by simp [hp]) (by simp) hhalt hok
  · rw [if_neg hlast] at hkeep ⊢
    exact hkeep.inv_of_running hi (by simp [hp]) rfl (by simp [hp])
      ((Engine.phaseOk_perm (by simp [hp])).2 ⟨hkeep.ready hr, Nat.lt_of_le_of_ne hlt hlast⟩)

theorem Engine.twld_inv (hi : e.Inv A) (hp : e.phase = .twld) (h : e.twld A = .next f) :
    f.Inv A := by
  obtain ⟨hr, hstage⟩ := (Engine.phaseOk_twld hp).1 hi.phase_ok
  have hkeep := Engine.twld_keeps h
  obtain ⟨-, rfl⟩ := Engine.twld_next.1 h
  have hfirst : e.j = e.j + 0 * e.k2 := by omega
  exact hkeep.inv_of_running hi (by simp [hp]) rfl (by simp)
    ((Engine.phaseOk_bfly rfl).2 ⟨hkeep.ready hr, hstage, 0, hstage.one_le_d, hfirst⟩)

/-- The next group of a stage (rule R173). -/
theorem Engine.InStage.next_group (A : Arith α) (h : e.InStage) (hj : e.j + 1 < e.k) :
    (e.afterGroup A).InStage := by
  obtain ⟨s, hs, hk, hk2, hd, -, hh⟩ := h
  have hnext : e.h + e.d = (e.j + 1) * e.d := by rw [hh, Nat.succ_mul]
  exact ⟨s, hs, hk, hk2, hd, hj, hnext⟩

/-- The next butterfly of a group (rule R173). -/
theorem Engine.InStage.next_butterfly {t : Nat} (h : e.InStage) (hi : e.i = e.j + t * e.k2)
    (hlt : e.i + e.k2 < e.len) : t + 1 < e.d ∧ e.i + e.k2 = e.j + (t + 1) * e.k2 := by
  have hnext : e.i + e.k2 = e.j + (t + 1) * e.k2 := by rw [hi, Nat.succ_mul, Nat.add_assoc]
  refine ⟨Nat.lt_of_mul_lt_mul_right (a := e.k2) ?_, hnext⟩
  rw [h.d_mul_k2]
  omega

theorem Engine.bfly_inv (hi : e.Inv A) (hp : e.phase = .bfly) (h : e.bfly A = .next f) :
    f.Inv A := by
  obtain ⟨hr, hstage, t, -, hit⟩ := (Engine.phaseOk_bfly hp).1 hi.phase_ok
  have hkeep := Engine.bfly_keeps h
  obtain ⟨hik, rfl⟩ := Engine.bfly_next.1 h
  by_cases hin : e.i + e.k2 < e.len
  · rw [if_pos hin] at hkeep ⊢
    exact hkeep.inv_of_running hi (by simp [hp]) rfl (by simp [hp])
      ((Engine.phaseOk_bfly (by simp [hp])).2
        ⟨hkeep.ready hr, hstage, t + 1, hstage.next_butterfly hit hin⟩)
  · rw [if_neg hin] at hkeep ⊢
    by_cases hgroup : e.j + 1 < e.k
    · rw [if_pos hgroup] at hkeep ⊢
      exact hkeep.inv_of_running hi (by simp [hp]) rfl (by simp)
        ((Engine.phaseOk_twld rfl).2 ⟨hkeep.ready hr, hstage.next_group A hgroup⟩)
    · rw [if_neg hgroup] at hkeep ⊢
      obtain ⟨s, -, -, hk2, -, -, -⟩ := hstage
      have hready : (e.afterGroup A).Ready :=
        ((Engine.bflyWork_keeps A hik).sequenced e.phase _ _ _).ready hr
      obtain ⟨hok, hhalt⟩ := Engine.enterStage_phaseOk (A := A) (s + 1) hready
      rw [hk2] at hkeep ⊢
      exact hkeep.inv_of_running hi (by simp [hp]) (Engine.enterStage_err _ _) hhalt hok

theorem Engine.norm_inv (hi : e.Inv A) (hp : e.phase = .norm) (h : e.norm A = .next f) :
    f.Inv A := by
  obtain ⟨hr, -, hdir⟩ := (Engine.phaseOk_norm hp).1 hi.phase_ok
  have hkeep := Engine.norm_keeps h
  obtain ⟨hlt, rfl⟩ := Engine.norm_next.1 h
  by_cases hlast : e.i + 1 = e.len
  · rw [if_pos hlast] at hkeep ⊢
    exact hkeep.inv_of_running hi (by simp [hp]) rfl (by simp) trivial
  · rw [if_neg hlast] at hkeep ⊢
    exact hkeep.inv_of_running hi (by simp [hp]) rfl (by simp [hp])
      ((Engine.phaseOk_norm (by simp [hp])).2 ⟨hkeep.ready hr, Nat.lt_of_le_of_ne hlt hlast, hdir⟩)

end

/-! ## What an instruction does to the engine -/

section
variable {s t : State}

theorem State.microOp_engine {p : Phase}
    {work : Engine F64 → Host.Outcome (Engine F64) Fault Refusal}
    (h : s.microOp p work = .next t) :
    s.phase = p ∧ work s.toEngine = .next t.toEngine := by
  obtain ⟨-, hp, e, he, rfl⟩ := State.microOp_next.1 h
  exact ⟨hp, he⟩

theorem State.hostWrite_engine {work : Engine F64 → Host.Outcome (Engine F64) Fault Refusal}
    (h : s.hostWrite work = .next t) :
    s.phase = .idle ∧ work s.toEngine = .next t.toEngine ∨ t.toEngine = s.toEngine := by
  obtain ⟨-, ⟨hp, e, he, rfl⟩ | ⟨-, rfl⟩⟩ := State.hostWrite_next.1 h
  · exact .inl ⟨hp, he⟩
  · exact .inr rfl

theorem execMksin_engine (h : execMksin s = .next t) :
    s.phase = .idle ∧ t.toEngine = s.toEngine.startMksin ∨ t.toEngine = s.toEngine := by
  rcases State.hostWrite_engine h with ⟨hp, he⟩ | he
  · exact .inl ⟨hp, (Host.Outcome.next.inj he).symm⟩
  · exact .inr he

theorem execMkbrev_engine (h : execMkbrev s = .next t) :
    s.phase = .idle ∧ t.toEngine = s.toEngine.startMkbrev ∨ t.toEngine = s.toEngine := by
  rcases State.hostWrite_engine h with ⟨hp, he⟩ | he
  · exact .inl ⟨hp, (Host.Outcome.next.inj he).symm⟩
  · exact .inr he

theorem State.answer_engine {space : Space} {index : Nat} (h : s.answer space index = .next t) :
    t.toEngine = s.toEngine := by
  obtain ⟨v, -, rfl⟩ := State.answer_next.1 h
  rfl

/-- A read changes nothing of the engine, or it is a bad access (rules R221, R227). -/
theorem execHrd_engine {space : Space} {index : BitVec 32} (h : execHrd space index s = .next t) :
    t.toEngine = s.toEngine.raise .badAccess ∨ t.toEngine = s.toEngine := by
  obtain ⟨-, ⟨-, h⟩ | ⟨-, h⟩⟩ := State.hostMove_next.1 h
  · unfold State.readIdle at h
    split at h
    · exact .inr (State.answer_engine h)
    · cases h; exact .inl rfl
  · unfold State.readHalt at h
    split at h
    · exact .inr (State.answer_engine h)
    · cases h; exact .inr rfl

/-! ## Every step keeps the invariant -/

theorem State.inv_of_engine_eq {e : Engine F64} (he : t.toEngine = e) (hi : e.Inv .binary64) :
    t.Inv := by
  rw [State.Inv, he]
  exact hi

theorem State.microOp_inv {p : Phase}
    {work : Engine F64 → Host.Outcome (Engine F64) Fault Refusal}
    (hwork : ∀ {e f : Engine F64}, e.Inv .binary64 → e.phase = p → work e = .next f →
      f.Inv .binary64)
    (hi : s.Inv) (h : s.microOp p work = .next t) : t.Inv := by
  obtain ⟨hp, he⟩ := State.microOp_engine h
  exact hwork hi hp he

theorem State.hostWrite_inv {work : Engine F64 → Host.Outcome (Engine F64) Fault Refusal}
    (hwork : ∀ {e f : Engine F64}, e.Inv .binary64 → e.phase = .idle → work e = .next f →
      f.Inv .binary64)
    (hi : s.Inv) (h : s.hostWrite work = .next t) : t.Inv := by
  rcases State.hostWrite_engine h with ⟨hp, he⟩ | he
  · exact hwork hi hp he
  · exact State.inv_of_engine_eq he hi

theorem Engine.hostStore_inv {A : Arith F64} {e f : Engine F64} {space : Space} {index : Nat}
    {data : Datum} (hi : e.Inv A) (hp : e.phase = .idle)
    (h : e.hostStore space index data = .next f) : f.Inv A := by
  have hkeep := Engine.hostStore_keeps h
  have hok : ∀ {g : Engine F64}, g.phase = e.phase → g.PhaseOk A := fun hg => by
    simp [Engine.PhaseOk, hg, hp]
  rcases Engine.hostStore_next.1 h with
    ⟨-, rfl⟩ | ⟨-, ⟨v, -, -, rfl⟩ | ⟨v, -, -, rfl⟩ | ⟨w, -, -, h⟩⟩
  · exact Engine.raise_inv hi (by simp)
  · exact hkeep.inv hi hi.halt_iff (hok rfl)
  · exact hkeep.inv hi hi.halt_iff (hok rfl)
  · exact Engine.command_inv hi hp h

/-- Every instruction keeps the invariant of the machine. -/
theorem exec_inv {i : Instr} (hi : s.Inv) (h : exec i s = .next t) : t.Inv := by
  cases i with
  | mksin =>
    rcases execMksin_engine h with ⟨hp, he⟩ | he
    · exact State.inv_of_engine_eq he (Engine.startMksin_inv hi hp)
    · exact State.inv_of_engine_eq he hi
  | mkbrev =>
    rcases execMkbrev_engine h with ⟨hp, he⟩ | he
    · exact State.inv_of_engine_eq he (Engine.startMkbrev_inv hi hp)
    · exact State.inv_of_engine_eq he hi
  | xformFwd | xformInv => exact State.hostWrite_inv Engine.startXform_inv hi h
  | sinw => exact State.microOp_inv Engine.sinw_inv hi h
  | brvs => exact State.microOp_inv Engine.brvs_inv hi h
  | perm => exact State.microOp_inv Engine.perm_inv hi h
  | twld => exact State.microOp_inv Engine.twld_inv hi h
  | bfly => exact State.microOp_inv Engine.bfly_inv hi h
  | norm => exact State.microOp_inv Engine.norm_inv hi h
  | hrd space index =>
    rcases execHrd_engine h with he | he
    · exact State.inv_of_engine_eq he (Engine.raise_inv hi (by simp))
    · exact State.inv_of_engine_eq he hi
  | hwr space index data => exact State.hostWrite_inv Engine.hostStore_inv hi h
  | reset =>
    obtain ⟨ha, -, rfl⟩ := execReset_next.1 h
    exact Engine.resetOf_inv _ _ _ ha

end

/-- Settles O10: a step waits, or it is an instruction, on a state whose engine is the same. -/
theorem stepKeepsTheInvariant : Obligations.StepKeepsTheInvariant := by
  intro s t hi h
  obtain ⟨-, ⟨-, i, -, h⟩ | ⟨-, -, rfl⟩ | ⟨-, txn, rest, i, -, -, h⟩⟩ := step_next.1 h
  · exact exec_inv hi h
  · exact hi
  · exact exec_inv (s := { s with pending := rest }) hi h

/-! ## Who writes a space -/

section
variable {α : Type} {A : Arith α} {e f : Engine α}

/-- A step leaves both buffers as they are (rule R62). -/
def Engine.SameBuffers (e f : Engine α) : Prop := f.x = e.x ∧ f.y = e.y

theorem Engine.sinw_bitrev (h : e.sinw A = .next f) : f.bitrev = e.bitrev := by
  obtain ⟨-, rfl⟩ := Engine.sinw_next.1 h
  rfl

theorem Engine.brvs_sintbl (h : e.brvs = .next f) : f.sintbl = e.sintbl := by
  obtain ⟨-, ⟨-, rfl⟩ | ⟨-, bj, bk, -, rfl⟩⟩ := Engine.brvs_next.1 h <;> rfl

theorem Engine.sinw_sameBuffers (h : e.sinw A = .next f) : e.SameBuffers f := by
  obtain ⟨-, rfl⟩ := Engine.sinw_next.1 h
  exact ⟨rfl, rfl⟩

theorem Engine.brvs_sameBuffers (h : e.brvs = .next f) : e.SameBuffers f := by
  obtain ⟨-, ⟨-, rfl⟩ | ⟨-, bj, bk, -, rfl⟩⟩ := Engine.brvs_next.1 h <;> exact ⟨rfl, rfl⟩

theorem Engine.twld_sameBuffers (h : e.twld A = .next f) : e.SameBuffers f := by
  obtain ⟨-, rfl⟩ := Engine.twld_next.1 h
  exact ⟨rfl, rfl⟩

theorem Engine.startXform_sameBuffers {dir : Direction} (h : e.startXform dir = .next f) :
    e.SameBuffers f := by
  rcases Engine.startXform_next.1 h with ⟨-, rfl⟩ | ⟨-, -, -, rfl⟩ <;> exact ⟨rfl, rfl⟩

theorem Engine.command_sameBuffers {w : Word} (h : e.command w = .next f) : e.SameBuffers f := by
  rcases Engine.command_next.1 h with ⟨-, rfl⟩ | ⟨-, rfl⟩ | ⟨-, h⟩ | ⟨-, h⟩ | ⟨-, rfl⟩
  · exact ⟨rfl, rfl⟩
  · exact ⟨rfl, rfl⟩
  · exact Engine.startXform_sameBuffers h
  · exact Engine.startXform_sameBuffers h
  · exact ⟨rfl, rfl⟩

/-- A store of the host changes at most the buffer it names (rule R222). -/
theorem Engine.hostStore_buffers {e f : Engine F64} {space : Space} {index : Nat} {data : Datum}
    (h : e.hostStore space index data = .next f) :
    (space ≠ .x → f.x = e.x) ∧ (space ≠ .y → f.y = e.y) := by
  rcases Engine.hostStore_next.1 h with
    ⟨-, rfl⟩ | ⟨-, ⟨v, rfl, -, rfl⟩ | ⟨v, rfl, -, rfl⟩ | ⟨w, -, -, h⟩⟩
  · exact ⟨fun _ => rfl, fun _ => rfl⟩
  · exact ⟨fun hx => absurd rfl hx, fun _ => rfl⟩
  · exact ⟨fun _ => rfl, fun hy => absurd rfl hy⟩
  · obtain ⟨hx, hy⟩ := Engine.command_sameBuffers h
    exact ⟨fun _ => hx, fun _ => hy⟩

end

section
variable {i : Instr} {s t : State}

theorem State.keeps_of_hostWrite {work : Engine F64 → Host.Outcome (Engine F64) Fault Refusal}
    (hwork : ∀ {e f : Engine F64}, work e = .next f → e.Keeps f) (h : s.hostWrite work = .next t) :
    s.toEngine.Keeps t.toEngine := by
  rcases State.hostWrite_engine h with ⟨-, he⟩ | he
  · exact hwork he
  · exact he ▸ .refl _

/-- All but the table writes and `RESET` stay in the frame of `Engine.Keeps`. -/
theorem exec_keeps (hs : i ≠ .sinw) (hb : i ≠ .brvs) (hr : i ≠ .reset)
    (h : exec i s = .next t) : s.toEngine.Keeps t.toEngine := by
  cases i with
  | mksin =>
    rcases execMksin_engine h with ⟨-, he⟩ | he
    · exact he ▸ Engine.startMksin_keeps _
    · exact he ▸ .refl _
  | mkbrev =>
    rcases execMkbrev_engine h with ⟨-, he⟩ | he
    · exact he ▸ Engine.startMkbrev_keeps _
    · exact he ▸ .refl _
  | xformFwd | xformInv => exact State.keeps_of_hostWrite Engine.startXform_keeps h
  | sinw => exact absurd rfl hs
  | brvs => exact absurd rfl hb
  | perm => exact Engine.perm_keeps (State.microOp_engine h).2
  | twld => exact Engine.twld_keeps (State.microOp_engine h).2
  | bfly => exact Engine.bfly_keeps (State.microOp_engine h).2
  | norm => exact Engine.norm_keeps (State.microOp_engine h).2
  | hrd space index =>
    rcases execHrd_engine h with he | he
    · exact he ▸ Engine.raise_keeps _ _
    · exact he ▸ .refl _
  | hwr space index data => exact State.keeps_of_hostWrite Engine.hostStore_keeps h
  | reset => exact absurd rfl hr

theorem exec_sintbl (hs : i ≠ .sinw) (hr : i ≠ .reset) (h : exec i s = .next t) :
    t.sintbl = s.sintbl := by
  by_cases hb : i = .brvs
  · subst hb
    exact Engine.brvs_sintbl (State.microOp_engine h).2
  · exact (exec_keeps hs hb hr h).sintbl

theorem exec_bitrev (hb : i ≠ .brvs) (hr : i ≠ .reset) (h : exec i s = .next t) :
    t.bitrev = s.bitrev := by
  by_cases hs : i = .sinw
  · subst hs
    exact Engine.sinw_bitrev (State.microOp_engine h).2
  · exact (exec_keeps hs hb hr h).bitrev

theorem execHwr_buffers {space : Space} {index : BitVec 32} {data : Datum}
    (h : execHwr space index data s = .next t) :
    (space ≠ .x → t.x = s.x) ∧ (space ≠ .y → t.y = s.y) := by
  rcases State.hostWrite_engine h with ⟨-, he⟩ | he
  · exact Engine.hostStore_buffers he
  · rw [he]
    exact ⟨fun _ => rfl, fun _ => rfl⟩

theorem State.sameBuffers_of_startXform {dir : Direction}
    (h : s.hostWrite (Engine.startXform dir) = .next t) : s.toEngine.SameBuffers t.toEngine := by
  rcases State.hostWrite_engine h with ⟨-, he⟩ | he
  · exact Engine.startXform_sameBuffers he
  · rw [he]
    exact ⟨rfl, rfl⟩

/-- Outside the writers of the buffers neither changes (rule R62). -/
theorem exec_sameBuffers (hp : i ≠ .perm) (hb : i ≠ .bfly) (hn : i ≠ .norm) (hr : i ≠ .reset)
    (hw : ∀ space index data, i ≠ .hwr space index data) (h : exec i s = .next t) :
    s.toEngine.SameBuffers t.toEngine := by
  cases i with
  | mksin => rcases execMksin_engine h with ⟨-, he⟩ | he <;> rw [he] <;> exact ⟨rfl, rfl⟩
  | mkbrev => rcases execMkbrev_engine h with ⟨-, he⟩ | he <;> rw [he] <;> exact ⟨rfl, rfl⟩
  | xformFwd | xformInv => exact State.sameBuffers_of_startXform h
  | sinw => exact Engine.sinw_sameBuffers (State.microOp_engine h).2
  | brvs => exact Engine.brvs_sameBuffers (State.microOp_engine h).2
  | twld => exact Engine.twld_sameBuffers (State.microOp_engine h).2
  | hrd space index => rcases execHrd_engine h with he | he <;> rw [he] <;> exact ⟨rfl, rfl⟩
  | hwr space index data => exact absurd rfl (hw space index data)
  | perm => exact absurd rfl hp
  | bfly => exact absurd rfl hb
  | norm => exact absurd rfl hn
  | reset => exact absurd rfl hr

end

/-- Settles O43: the tables by the frame of every instruction, the buffers by `exec_sameBuffers`
and, for a write of the host, by the space it names. -/
theorem spacesAreWrittenByTheirOwnersOnly : Obligations.SpacesAreWrittenByTheirOwnersOnly := by
  intro i s t h
  refine ⟨fun hs hr => exec_sintbl hs hr h, fun hb hr => exec_bitrev hb hr h,
    fun hp hb hn hr => ?_⟩
  by_cases hw : ∀ space index data, i ≠ .hwr space index data
  · obtain ⟨hx, hy⟩ := exec_sameBuffers hp hb hn hr hw h
    exact ⟨fun _ => hx, fun _ => hy⟩
  · push Not at hw
    obtain ⟨space, index, data, rfl⟩ := hw
    obtain ⟨hx, hy⟩ := execHwr_buffers h
    exact ⟨fun hne => hx fun heq => hne index data (heq ▸ rfl),
      fun hne => hy fun heq => hne index data (heq ▸ rfl)⟩

/-! ## The step -/

section
variable {s : State} {i : Instr}

theorem step_of_busy (ha : Params.admitted s.m = true) (hb : s.phase.busy = true)
    (hd : decode (.u s.phase.code) = .ok i) : step s = exec i s := by
  simp [step, State.fetch, ha, hb, hd]

theorem step_of_waiting (ha : Params.admitted s.m = true) (hb : s.phase.busy = false)
    (hp : s.pending = []) : step s = .next s := by
  simp [step, State.fetch, ha, hb, hp]

theorem step_of_host {txn : Txn} {rest : List Txn} (ha : Params.admitted s.m = true)
    (hb : s.phase.busy = false) (hp : s.pending = txn :: rest) (hd : decodeHost txn = .ok i) :
    step s = exec i { s with pending := rest } := by
  simp [step, State.fetch, ha, hb, hp, hd]

theorem step_of_rejected {txn : Txn} {rest : List Txn} {r : Reject}
    (ha : Params.admitted s.m = true) (hb : s.phase.busy = false) (hp : s.pending = txn :: rest)
    (hd : decodeHost txn = .error r) : step s = .refused .reservedKind := by
  simp [step, State.fetch, ha, hb, hp, hd]

theorem decodeHost_reservedKind {txn : Txn} (h : txn.kind = 0b11#2) :
    decodeHost txn = .error .reservedKind := by
  simp [decodeHost, decodeTxn, h]

/-- A micro-operation of the machine is the one of its engine alone (rule R70). -/
theorem exec_eq_micro (hd : decodePhase s.phase.code = .ok i) :
    exec i s = s.withEngine s.reply (s.toEngine.micro .binary64) := by
  unfold Engine.micro
  cases hp : s.phase with
  | idle | halt => rw [hp] at hd; cases hd
  | sinb | brvb | perm | twld | bfly | norm => rw [hp] at hd; cases hd; rfl

theorem exists_decodePhase_of_busy {p : Phase} (h : p.busy = true) :
    ∃ i, decodePhase p.code = .ok i := by
  cases p with
  | idle | halt => cases h
  | sinb | brvb | perm | twld | bfly | norm => exact ⟨_, rfl⟩

theorem step_eq_micro (ha : Params.admitted s.m = true) (hb : s.phase.busy = true) :
    step s = s.withEngine s.reply (s.toEngine.micro .binary64) := by
  obtain ⟨i, hd⟩ := exists_decodePhase_of_busy hb
  rw [step_of_busy ha hb hd, exec_eq_micro hd]

end

/-- Settles O6: one clause per way a step can fetch, and `step_eq_micro`. -/
theorem stepRunsTheDecodedInstruction : Obligations.StepRunsTheDecodedInstruction := fun _ ha =>
  ⟨fun hb _ hd => step_of_busy ha hb hd, fun hb _ _ _ hp hd => step_of_host ha hb hp hd,
    fun hb hp => step_of_waiting ha hb hp,
    fun hb _ _ hp hk => step_of_rejected ha hb hp (decodeHost_reservedKind hk),
    fun hb => step_eq_micro ha hb⟩

/-! ## STATUS, CFG and the state after reset -/

section
variable {α : Type} (e : Engine α)

theorem Engine.statusWord_getLsbD (b : Nat) :
    e.statusWord.getLsbD b =
      if b = 0 then e.sinv else if b = 1 then e.brv else e.err.code.getLsbD (b - 2) := by
  rw [Engine.statusWord, BitVec.getLsbD_setWidth, BitVec.getLsbD_append, BitVec.getLsbD_append]
  rcases b with _ | _ | b
  · simp
  · simp
  · have hwidth : e.err.code.getLsbD b = true → b + 2 < 32 := fun h => by
      have := BitVec.lt_of_getLsbD h
      omega
    simpa using hwidth

theorem Engine.statusWord_err : e.statusWord.extractLsb 4 2 = e.err.code := by
  apply BitVec.eq_of_getLsbD_eq
  intro b hb
  have hshift : 2 + b ≠ 1 := by omega
  have hin : b < 3 := hb
  simp [Engine.statusWord_getLsbD, hshift, hin]

theorem Engine.cfgWord_getLsbD (b : Nat) :
    e.cfgWord.getLsbD b = if b < 8 then e.m.testBit b else decide (b = 8) && e.preload := by
  rw [Engine.cfgWord, BitVec.getLsbD_setWidth, BitVec.getLsbD_append]
  split
  · next hlow =>
    have hin : b < 32 := by omega
    rw [BitVec.getLsbD_ofNat]
    simp [hlow, hin]
  · next hhigh =>
    have heq : b - 8 = 0 ↔ b = 8 := by omega
    by_cases h8 : b = 8
    · simp [h8]
    · simp [heq, h8]

theorem Engine.cfgWord_m (h : e.m < 2 ^ 8) : (e.cfgWord.extractLsb 7 0).toNat = e.m := by
  have hm : e.cfgWord.extractLsb 7 0 = BitVec.ofNat 8 e.m := by
    apply BitVec.eq_of_getLsbD_eq
    intro b hb
    have hin : b < 8 := hb
    rw [BitVec.getLsbD_extractLsb, Engine.cfgWord_getLsbD, BitVec.getLsbD_ofNat]
    simp [hin]
  rw [hm]
  exact Nat.mod_eq_of_lt h

end

/-- Settles O41: both words are read bit by bit; an admitted `M` fits its eight bits. -/
theorem statusAndCfgWordLayout : Obligations.StatusAndCfgWordLayout := by
  intro s
  refine ⟨s.statusWord_getLsbD 0, s.statusWord_getLsbD 1, ?_,
    fun b hb => ?_, fun ha => s.cfgWord_m ?_, s.cfgWord_getLsbD 8, fun b hb => ?_⟩
  · rw [Engine.statusWord_err]
    cases s.err <;> rfl
  · have h0 : b ≠ 0 := by omega
    have h1 : b ≠ 1 := by omega
    rw [Engine.statusWord_getLsbD, if_neg h0, if_neg h1]
    exact BitVec.getLsbD_of_ge _ _ (by omega)
  · have := (Params.admitted_iff s.m).1 ha
    omega
  · have h8 : ¬b < 8 := by omega
    have hne : b ≠ 8 := by omega
    simp [Engine.cfgWord_getLsbD, h8, hne]

/-- Settles O8: the tables by the laws of reset, the rest by the definition of the reset state. -/
theorem resetStateIsAsSpecified : Obligations.ResetStateIsAsSpecified := by
  intro m preload
  refine ⟨rfl, rfl, rfl, rfl, rfl, rfl, fun _ => ⟨rfl, rfl⟩, ?_⟩
  rintro rfl
  exact ⟨fun _ => Engine.resetOf_preloaded_sintbl Arith.binary64 m 0,
    fun _ => Engine.resetOf_preloaded_bitrev Arith.binary64 m 0⟩

end Sys2Proof.Machine


/-! PROOFS. The host beside the engine (rules R66, R70): a read leaves no trace in the engine, and
while a command executes no host transaction is admitted. -/
namespace Sys2Proof.Machine

section
variable {s t : State}

/-- Everything a read of a readable location can answer (rules R221, R227). -/
theorem execHrd_next_of_readable {space : Space} {index : BitVec 32}
    (hr : s.readable space index.toNat = true) :
    execHrd space index s = .next t ↔
      Params.admitted s.m = true ∧ (s.phase = .idle ∨ s.phase = .halt) ∧
        ∃ v, s.hostValue space index.toNat = some v ∧ t = { s with reply := .ok v } := by
  have hidle : State.readIdle space index.toNat s = s.answer space index.toNat := if_pos hr
  have hhalt : State.readHalt space index.toNat s = s.answer space index.toNat := if_pos hr
  rw [execHrd, State.hostMove_next, hidle, hhalt, ← or_and_right, State.answer_next]

theorem State.hostWrite_busy {work : Engine F64 → Host.Outcome (Engine F64) Fault Refusal}
    (ha : Params.admitted s.m = true) (hb : s.phase.busy = true) :
    s.hostWrite work = .refused .hostHasNoMove :=
  State.hostMove_busy ha hb

theorem exec_command_of_busy (ha : Params.admitted s.m = true) (hb : s.phase.busy = true)
    (c : Command) : exec c.instr s = .refused .hostHasNoMove := by
  cases c with
  | mksin => exact State.hostWrite_busy (work := fun e => .next e.startMksin) ha hb
  | mkbrev => exact State.hostWrite_busy (work := fun e => .next e.startMkbrev) ha hb
  | xformFwd | xformInv => exact State.hostWrite_busy ha hb

theorem execReset_of_busy (ha : Params.admitted s.m = true) (hb : s.phase.busy = true) :
    execReset s = .refused .hostHasNoMove := by
  rw [execReset, State.hostMove_busy ha hb]

theorem step_host_of_busy (hb : s.phase.busy = true) (h : step s = .next t) :
    t.pending = s.pending ∧ t.reply = s.reply := by
  obtain ⟨ha, -⟩ := step_next.1 h
  rw [step_eq_micro ha hb] at h
  obtain ⟨e, -, rfl⟩ := State.withEngine_next.1 h
  exact ⟨rfl, rfl⟩

end

/-- Settles O31: an answered read changes the reply alone, which no later read looks at. -/
theorem hostReadsHaveNoSideEffect : Obligations.HostReadsHaveNoSideEffect := by
  intro s t space n hr h
  obtain ⟨ha, hp, v, hv, rfl⟩ := (execHrd_next_of_readable hr).1 h
  have hagain : execHrd space n { s with reply := .ok v } = .next { s with reply := .ok v } :=
    (execHrd_next_of_readable hr).2 ⟨ha, hp, v, hv, rfl⟩
  exact ⟨rfl, rfl, hagain⟩

/-- Settles O39: every host transaction goes through `State.hostMove`, and a step of a busy engine
is a micro-operation, which leaves the host's part alone. -/
theorem hostHasNoMoveWhileBusy : Obligations.HostHasNoMoveWhileBusy :=
  ⟨fun _ _ _ _ c ha hb => ⟨State.hostMove_busy ha hb, State.hostWrite_busy ha hb,
      execReset_of_busy ha hb, exec_command_of_busy ha hb c⟩,
    fun _ _ hb h => step_host_of_busy hb h⟩

end Sys2Proof.Machine


/-! PROOFS. The two views of a command (rule R70): `Engine.rest` is the big step of what a running
command has left. Every micro-operation brings the end one step nearer (rule R300) and leaves the
rest, but for hidden counters, the same; so a command run to its end is its big step. -/
namespace Sys2Proof.Machine

/-! ## Loops -/

/-- `for i in a .. n-1`, ascending: what `forRange n` has left at index `a`. -/
def forFrom {σ : Type} (a n : Nat) (body : Nat → σ → σ) (s : σ) : σ :=
  (List.range' a (n - a)).foldl (fun s i => body i s) s

section
variable {σ τ : Type} {a n : Nat} {body : Nat → σ → σ}

theorem forRange_eq_forFrom (n : Nat) (body : Nat → σ → σ) :
    forRange n body = forFrom 0 n body := by
  funext s
  rw [forRange, List.range_eq_range']
  rfl

theorem forFrom_of_lt (h : a < n) (s : σ) :
    forFrom a n body s = forFrom (a + 1) n body (body a s) := by
  have hlen : n - a = n - (a + 1) + 1 := by omega
  rw [forFrom, hlen, List.range'_succ]
  rfl

theorem forFrom_of_le (h : n ≤ a) (s : σ) : forFrom a n body s = s := by
  rw [forFrom, Nat.sub_eq_zero_of_le h]
  rfl

/-- A map that carries one body to the other carries the loop. -/
theorem map_forFrom {body' : Nat → τ → τ} (φ : σ → τ) (h : ∀ i s, body' i (φ s) = φ (body i s))
    (s : σ) : φ (forFrom a n body s) = forFrom a n body' (φ s) :=
  (List.foldl_hom φ fun s i => h i s).symm

/-- What holds at the start and is kept by the body holds after the loop. -/
theorem forFrom_induct {P : σ → Prop} {s : σ} (h0 : P s) (hbody : ∀ i s, P s → P (body i s)) :
    P (forFrom a n body s) := by
  unfold forFrom
  induction List.range' a (n - a) generalizing s with
  | nil => exact h0
  | cons i rest ih => exact ih (hbody i s h0)

end

/-! ## The bodies of the big steps -/

section
variable {α : Type} (A : Arith α)

/-- The body of `MKSIN` (rule R123). -/
def Engine.recordSine (i : Nat) (e : Engine α) : Engine α :=
  { e with sintbl := e.sintbl.write i (A.sinval e.m i) }

/-- The body of `MKBREV` (rule R141). -/
def Engine.recordRev (i : Nat) (e : Engine α) : Engine α :=
  { e with
    bitrev := e.bitrev.write i e.bj
    bj := if i + 1 < e.len then ((brNext e.m e.bj).map Prod.fst).getD e.bj else e.bj }

/-- The butterflies of group `j` from number `t` on (rule R164). -/
def Engine.bflysFrom (k k2 d j t : Nat) (e : Engine α) : Engine α :=
  forFrom t d (fun t g => g.bflyWork A (j + t * k2) k) e

/-- Group `j` of a stage (rule R164). -/
def Engine.bigGroup (k k2 d j : Nat) (e : Engine α) : Engine α :=
  (e.twldWork A (j * d)).bflysFrom A k k2 d j 0

/-- The stages from number `s` on, and the normalisation (rules R164, R172). -/
def Engine.bigFromStage (s : Nat) (e : Engine α) : Engine α :=
  (forFrom s e.m (Engine.bigStage A) e).bigNorm A

/-- The big step of what the running command has left. -/
def Engine.rest (e : Engine α) : Engine α :=
  match e.phase with
  | .idle => e
  | .halt => e
  | .sinb => { forFrom e.si e.sineLen (Engine.recordSine A) e with sinv := true }
  | .brvb => { forFrom e.bi e.len Engine.recordRev e with brv := true }
  | .perm => (forFrom e.i e.len (Engine.permWork A) e).bigFromStage A 0
  | .twld => (forFrom e.j e.k (Engine.bigGroup A e.k e.k2 e.d) e).bigFromStage A e.k2.log2
  | .bfly =>
    (forFrom (e.j + 1) e.k (Engine.bigGroup A e.k e.k2 e.d)
      (e.bflysFrom A e.k e.k2 e.d e.j ((e.i - e.j) / e.k2))).bigFromStage A e.k2.log2
  | .norm => forFrom e.i e.len (Engine.normWork A) e

variable (e : Engine α)

theorem Engine.bigMksin_eq :
    e.bigMksin A = { forFrom 0 e.sineLen (Engine.recordSine A) e with sinv := true } := by
  rw [← forRange_eq_forFrom]
  rfl

theorem Engine.bigMkbrev_eq :
    e.bigMkbrev =
      { forFrom 0 e.len Engine.recordRev ({ e with bj := 0 } : Engine α) with brv := true } := by
  rw [← forRange_eq_forFrom]
  rfl

theorem Engine.bigStage_eq (s : Nat) :
    e.bigStage A s =
      forFrom 0 (2 ^ s) (Engine.bigGroup A (2 ^ s) (2 ^ (s + 1)) (e.len / 2 ^ (s + 1))) e := by
  simp only [Engine.bigStage, forRange_eq_forFrom]
  rfl

theorem Engine.bigNorm_eq :
    e.bigNorm A = if e.dir = .fwd then forFrom 0 e.len (Engine.normWork A) e else e := by
  rw [← forRange_eq_forFrom]
  rfl

theorem Engine.bigPermute_eq : e.bigPermute A = forFrom 0 e.len (Engine.permWork A) e := by
  rw [← forRange_eq_forFrom]
  rfl

theorem Engine.bigStages_bigNorm_eq : (e.bigStages A).bigNorm A = e.bigFromStage A 0 := by
  rw [Engine.bigStages, forRange_eq_forFrom]
  rfl

theorem Engine.bigXform_eq (dir : Direction) :
    e.bigXform A dir =
      (forFrom 0 e.len (Engine.permWork A)
        ({ e with dir := dir } : Engine α)).bigFromStage A 0 := by
  rw [Engine.bigXform, Engine.bigStages_bigNorm_eq, Engine.bigPermute_eq]
  rfl

theorem Engine.bigStage_m (s : Nat) : (e.bigStage A s).m = e.m := by
  rw [Engine.bigStage_eq]
  refine forFrom_induct (P := fun f : Engine α => f.m = e.m) rfl fun j f hf => ?_
  exact forFrom_induct (P := fun g : Engine α => g.m = e.m) hf fun t g hg => hg

theorem Engine.bigFromStage_of_lt {s : Nat} (h : s < e.m) :
    e.bigFromStage A s = (e.bigStage A s).bigFromStage A (s + 1) := by
  rw [Engine.bigFromStage, forFrom_of_lt h, Engine.bigFromStage, Engine.bigStage_m]

theorem Engine.bigFromStage_last : e.bigFromStage A e.m = e.bigNorm A := by
  rw [Engine.bigFromStage, forFrom_of_le (Nat.le_refl _)]

end

/-! ## The hidden counters -/

/-- The engine with the sequencer and the table-build counters of another one, which the host cannot
see; the accumulator `bj` is data of `MKBREV` and stays (rules R33 to R36). -/
def Engine.withCounters {α : Type} (e c : Engine α) : Engine α :=
  { e with
    phase := c.phase
    i := c.i
    j := c.j
    k := c.k
    k2 := c.k2
    d := c.d
    h := c.h
    si := c.si
    bi := c.bi
    bk := c.bk }

section
variable {α : Type} {A : Arith α} (e c : Engine α)

theorem Engine.recordSine_counters (i : Nat) :
    (e.withCounters c).recordSine A i = (e.recordSine A i).withCounters c := rfl

theorem Engine.recordRev_counters (i : Nat) :
    (e.withCounters c).recordRev i = (e.recordRev i).withCounters c := rfl

theorem Engine.permWork_counters (i : Nat) :
    (e.withCounters c).permWork A i = (e.permWork A i).withCounters c := rfl

theorem Engine.normWork_counters (i : Nat) :
    (e.withCounters c).normWork A i = (e.normWork A i).withCounters c := rfl

/-- A loop looks at the hidden counters only through its body. -/
theorem forFrom_counters {body : Nat → Engine α → Engine α}
    (hbody : ∀ i e c, body i (e.withCounters c) = (body i e).withCounters c) (a n : Nat) :
    forFrom a n body (e.withCounters c) = (forFrom a n body e).withCounters c :=
  (map_forFrom (fun f : Engine α => f.withCounters c) (fun i f => hbody i f c) e).symm

theorem Engine.bflysFrom_counters (k k2 d j t : Nat) :
    (e.withCounters c).bflysFrom A k k2 d j t = (e.bflysFrom A k k2 d j t).withCounters c :=
  forFrom_counters e c (fun _ _ _ => rfl) t d

theorem Engine.bigGroup_counters (k k2 d j : Nat) :
    (e.withCounters c).bigGroup A k k2 d j = (e.bigGroup A k k2 d j).withCounters c :=
  Engine.bflysFrom_counters (e.twldWork A (j * d)) c k k2 d j 0

theorem Engine.bigStage_counters (s : Nat) :
    (e.withCounters c).bigStage A s = (e.bigStage A s).withCounters c := by
  rw [Engine.bigStage_eq, Engine.bigStage_eq]
  exact forFrom_counters e c (fun j f c => f.bigGroup_counters c _ _ _ j) 0 _

theorem Engine.bigNorm_counters :
    (e.withCounters c).bigNorm A = (e.bigNorm A).withCounters c := by
  rw [Engine.bigNorm_eq, Engine.bigNorm_eq, apply_ite (fun f : Engine α => f.withCounters c),
    forFrom_counters e c fun i f c => f.normWork_counters c i]
  rfl

theorem Engine.bigFromStage_counters (s : Nat) :
    (e.withCounters c).bigFromStage A s = (e.bigFromStage A s).withCounters c := by
  rw [Engine.bigFromStage, Engine.bigFromStage, ← Engine.bigNorm_counters,
    ← forFrom_counters e c fun s f c => f.bigStage_counters c s]
  rfl

/-- An operation that does not look at the hidden counters does not change them either. -/
theorem Engine.phase_of_counters {op : Engine α → Engine α}
    (hop : ∀ e c, op (e.withCounters c) = (op e).withCounters c) : (op e).phase = e.phase :=
  (congrArg Engine.phase (hop e e) :)

end

/-- The two engines differ at most in the hidden counters. -/
def Engine.SameData {α : Type} (e f : Engine α) : Prop :=
  ∀ c : Engine α, e.withCounters c = f.withCounters c

section
variable {α : Type} {A : Arith α} {e f g : Engine α}

theorem Engine.SameData.refl (e : Engine α) : e.SameData e := fun _ => rfl

theorem Engine.SameData.trans (h : e.SameData f) (h' : f.SameData g) : e.SameData g := fun c =>
  (h c).trans (h' c)

/-- An operation that does not look at the hidden counters. -/
theorem Engine.SameData.map {op : Engine α → Engine α}
    (hop : ∀ e c, op (e.withCounters c) = (op e).withCounters c) (h : e.SameData f) :
    (op e).SameData (op f) := fun c => by rw [← hop, ← hop, h c]

theorem Engine.SameData.loop {body : Nat → Engine α → Engine α}
    (hbody : ∀ i e c, body i (e.withCounters c) = (body i e).withCounters c) (a n : Nat)
    (h : e.SameData f) : (forFrom a n body e).SameData (forFrom a n body f) :=
  h.map fun e c => forFrom_counters e c hbody a n

theorem Engine.SameData.bigFromStage (h : e.SameData f) (s : Nat) :
    (e.bigFromStage A s).SameData (f.bigFromStage A s) :=
  h.map fun e c => e.bigFromStage_counters c s

end

/-! ## The rest, phase by phase -/

section
variable {α : Type} {A : Arith α} {e f g : Engine α}

theorem Engine.bflysFrom_of_lt {k k2 d j t : Nat} (h : t < d) :
    e.bflysFrom A k k2 d j t =
      (e.bflyWork A (j + t * k2) k).bflysFrom A k k2 d j (t + 1) :=
  forFrom_of_lt h e

theorem Engine.rest_of_not_busy (hp : e.phase.busy = false) : e.rest A = e := by
  cases h : e.phase <;> simp [Engine.rest, h, Phase.busy] at hp ⊢

theorem Engine.rest_sinb (hp : e.phase = .sinb) :
    e.rest A = { forFrom e.si e.sineLen (Engine.recordSine A) e with sinv := true } := by
  simp only [Engine.rest, hp]

theorem Engine.rest_brvb (hp : e.phase = .brvb) :
    e.rest A = { forFrom e.bi e.len Engine.recordRev e with brv := true } := by
  simp only [Engine.rest, hp]

theorem Engine.rest_perm (hp : e.phase = .perm) :
    e.rest A = (forFrom e.i e.len (Engine.permWork A) e).bigFromStage A 0 := by
  simp only [Engine.rest, hp]

theorem Engine.rest_twld (hp : e.phase = .twld) {s : Nat} (hk2 : e.k2 = 2 ^ s) :
    e.rest A = (forFrom e.j e.k (Engine.bigGroup A e.k e.k2 e.d) e).bigFromStage A s := by
  simp only [Engine.rest, hp, hk2, Nat.log2_two_pow]

/-- On entry to `BFLY` the number `t` of the butterfly says what is left of the group. -/
theorem Engine.rest_bfly (hp : e.phase = .bfly) {s t : Nat} (hk2 : e.k2 = 2 ^ s)
    (hi : e.i = e.j + t * e.k2) :
    e.rest A =
      (forFrom (e.j + 1) e.k (Engine.bigGroup A e.k e.k2 e.d)
        (e.bflysFrom A e.k e.k2 e.d e.j t)).bigFromStage A s := by
  have hpos : 0 < e.k2 := hk2 ▸ Nat.two_pow_pos s
  have ht : (e.i - e.j) / e.k2 = t := by
    rw [hi, Nat.add_sub_cancel_left, Nat.mul_div_cancel _ hpos]
  have hs : e.k2.log2 = s := hk2 ▸ Nat.log2_two_pow
  simp only [Engine.rest, hp, ht, hs]

theorem Engine.rest_norm (hp : e.phase = .norm) :
    e.rest A = forFrom e.i e.len (Engine.normWork A) e := by
  simp only [Engine.rest, hp]

/-! What an engine in each phase has left is the loop over its data, whatever the counters outside
the phase. -/

theorem Engine.SameData.rest_sinb (hp : f.phase = .sinb) (h : f.SameData g) :
    (f.rest A).SameData { forFrom f.si f.sineLen (Engine.recordSine A) g with sinv := true } := by
  rw [Engine.rest_sinb hp]
  exact .map (op := fun g => { g with sinv := true }) (fun _ _ => rfl)
    (h.loop (fun i g c => g.recordSine_counters c i) _ _)

theorem Engine.SameData.rest_brvb (hp : f.phase = .brvb) (h : f.SameData g) :
    (f.rest A).SameData { forFrom f.bi f.len Engine.recordRev g with brv := true } := by
  rw [Engine.rest_brvb hp]
  exact .map (op := fun g => { g with brv := true }) (fun _ _ => rfl)
    (h.loop (fun i g c => g.recordRev_counters c i) _ _)

theorem Engine.SameData.rest_perm (hp : f.phase = .perm) (h : f.SameData g) :
    (f.rest A).SameData ((forFrom f.i f.len (Engine.permWork A) g).bigFromStage A 0) := by
  rw [Engine.rest_perm hp]
  exact (h.loop (fun i g c => g.permWork_counters c i) _ _).bigFromStage 0

theorem Engine.SameData.rest_twld (hp : f.phase = .twld) {s : Nat} (hk2 : f.k2 = 2 ^ s)
    (h : f.SameData g) :
    (f.rest A).SameData
      ((forFrom f.j f.k (Engine.bigGroup A f.k f.k2 f.d) g).bigFromStage A s) := by
  rw [Engine.rest_twld hp hk2]
  exact (h.loop (fun j g c => g.bigGroup_counters c _ _ _ j) _ _).bigFromStage _

theorem Engine.SameData.rest_bfly (hp : f.phase = .bfly) {s t : Nat} (hk2 : f.k2 = 2 ^ s)
    (hi : f.i = f.j + t * f.k2) (h : f.SameData g) :
    (f.rest A).SameData
      ((forFrom (f.j + 1) f.k (Engine.bigGroup A f.k f.k2 f.d)
        (g.bflysFrom A f.k f.k2 f.d f.j t)).bigFromStage A s) := by
  rw [Engine.rest_bfly hp hk2 hi]
  exact ((h.map fun g c => g.bflysFrom_counters c _ _ _ _ _).loop
    (fun j g c => g.bigGroup_counters c _ _ _ j) _ _).bigFromStage _

theorem Engine.SameData.rest_norm (hp : f.phase = .norm) (h : f.SameData g) :
    (f.rest A).SameData (forFrom f.i f.len (Engine.normWork A) g) := by
  rw [Engine.rest_norm hp]
  exact h.loop (fun i g c => g.normWork_counters c i) _ _

/-- A stage number is entered as its first group, or as the end of the stages (rule R173). -/
theorem Engine.enterStage_pow_cases {s : Nat} (hs : s ≤ f.m) :
    s < f.m ∧ f.enterStage (2 ^ s) =
        { f with
          k := 2 ^ s
          k2 := 2 ^ (s + 1)
          d := f.len / 2 ^ (s + 1)
          j := 0
          h := 0
          phase := .twld } ∨
      s = f.m ∧ f.dir = .fwd ∧
        f.enterStage (2 ^ s) = { f with k := 2 ^ s, i := 0, phase := .norm } ∨
      s = f.m ∧ f.dir ≠ .fwd ∧ f.enterStage (2 ^ s) = { f with k := 2 ^ s, phase := .idle } := by
  have hlt : 2 ^ s < f.len ↔ s < f.m := Nat.pow_lt_pow_iff_right (by decide)
  have hlast : ¬2 ^ s < f.len → s = f.m := fun h => Nat.le_antisymm hs (not_lt.1 (mt hlt.2 h))
  rw [pow_succ' 2 s]
  exact (f.enterStage_cases (2 ^ s)).imp (And.imp_left hlt.1)
    (Or.imp (And.imp_left hlast) (And.imp_left hlast))

/-- What a stage that is entered has left is the big step from it on (rule R173). -/
theorem Engine.SameData.rest_enterStage {s : Nat} (hs : s ≤ f.m) (h : f.SameData g) :
    ((f.enterStage (2 ^ s)).rest A).SameData (g.bigFromStage A s) := by
  refine Engine.SameData.trans ?_ (h.bigFromStage s)
  rcases Engine.enterStage_pow_cases hs with ⟨hlt, heq⟩ | ⟨rfl, hdir, heq⟩ | ⟨rfl, hdir, heq⟩
  · rw [heq, Engine.bigFromStage_of_lt A f hlt, Engine.bigStage_eq]
    exact .rest_twld rfl rfl fun _ => rfl
  · rw [heq, Engine.bigFromStage_last, Engine.bigNorm_eq, if_pos hdir]
    exact .rest_norm rfl fun _ => rfl
  · rw [heq, Engine.bigFromStage_last, Engine.bigNorm_eq, if_neg hdir, Engine.rest_of_not_busy rfl]
    exact fun _ => rfl

/-! ## A micro-operation leaves the rest the same -/

theorem Engine.sinw_rest (hp : e.phase = .sinb) (h : e.sinw A = .next f) :
    (f.rest A).SameData (e.rest A) := by
  obtain ⟨hlt, rfl⟩ := Engine.sinw_next.1 h
  rw [Engine.rest_sinb hp, forFrom_of_lt hlt]
  by_cases hlast : e.si + 1 = e.sineLen
  · simp only [hlast, if_true]
    rw [Engine.rest_of_not_busy rfl, forFrom_of_le (Nat.le_refl _)]
    exact fun _ => rfl
  · simp only [hlast, if_false]
    exact .rest_sinb hp fun _ => rfl

theorem Engine.brvs_rest (hp : e.phase = .brvb) (h : e.brvs = .next f) :
    (f.rest A).SameData (e.rest A) := by
  rw [Engine.rest_brvb hp]
  obtain ⟨hlt, ⟨hlast, rfl⟩ | ⟨hlast, bj, bk, hnext, rfl⟩⟩ := Engine.brvs_next.1 h
  · have hbody : e.recordRev e.bi = { e with bitrev := e.bitrev.write e.bi e.bj } := by
      simp [Engine.recordRev, hlast]
    rw [Engine.rest_of_not_busy rfl, forFrom_of_lt hlt, forFrom_of_le hlast.ge, hbody]
    exact fun _ => rfl
  · have hbody : e.recordRev e.bi =
        { e with bitrev := e.bitrev.write e.bi e.bj, bj := bj } := by
      simp [Engine.recordRev, Nat.lt_of_le_of_ne hlt hlast, hnext]
    rw [forFrom_of_lt hlt, hbody]
    exact .rest_brvb hp fun _ => rfl

theorem Engine.perm_rest (hp : e.phase = .perm) (h : e.perm A = .next f) :
    (f.rest A).SameData (e.rest A) := by
  obtain ⟨hlt, rfl⟩ := Engine.perm_next.1 h
  rw [Engine.rest_perm hp, forFrom_of_lt hlt]
  split
  · next hlast =>
    rw [forFrom_of_le hlast.ge]
    exact .rest_enterStage (Nat.zero_le _) fun _ => rfl
  · exact .rest_perm hp fun _ => rfl

theorem Engine.twld_rest (hp : e.phase = .twld) (hs : e.InStage) (h : e.twld A = .next f) :
    (f.rest A).SameData (e.rest A) := by
  have hj := hs.j_lt_k
  obtain ⟨s, -, -, hk2, -, -, hh⟩ := hs
  obtain ⟨-, rfl⟩ := Engine.twld_next.1 h
  have hfirst : e.j = e.j + 0 * e.k2 := by omega
  rw [Engine.rest_twld hp hk2, forFrom_of_lt hj, Engine.bigGroup, ← hh]
  exact .rest_bfly rfl hk2 hfirst fun _ => rfl

/-- The last butterfly of a group is number `d - 1` (rule R173). -/
theorem Engine.InStage.last_butterfly {t : Nat} (h : e.InStage) (ht : t < e.d)
    (hi : e.i = e.j + t * e.k2) (hout : ¬e.i + e.k2 < e.len) : t + 1 = e.d := by
  by_contra hne
  have hmul : (t + 2) * e.k2 ≤ e.d * e.k2 := Nat.mul_le_mul_right _ (by omega)
  rw [h.d_mul_k2, Nat.add_mul] at hmul
  have := h.k2_eq
  have := h.j_lt_k
  omega

theorem Engine.bfly_rest (hp : e.phase = .bfly) (hs : e.InStage) {t : Nat} (ht : t < e.d)
    (hi : e.i = e.j + t * e.k2) (h : e.bfly A = .next f) : (f.rest A).SameData (e.rest A) := by
  obtain ⟨-, rfl⟩ := Engine.bfly_next.1 h
  have ⟨s, hsm, _, hk2, _⟩ := hs
  rw [Engine.rest_bfly hp hk2 hi, Engine.bflysFrom_of_lt ht, ← hi]
  by_cases hin : e.i + e.k2 < e.len
  · rw [if_pos hin]
    exact .rest_bfly (f := { e.bflyWork A e.i e.k with i := e.i + e.k2 }) hp hk2
      (hs.next_butterfly hi hin).2 fun _ => rfl
  · rw [if_neg hin, Engine.bflysFrom, forFrom_of_le (hs.last_butterfly ht hi hin).ge]
    by_cases hgroup : e.j + 1 < e.k
    · rw [if_pos hgroup]
      exact .rest_twld rfl hk2 fun _ => rfl
    · rw [if_neg hgroup, forFrom_of_le (not_lt.1 hgroup), hk2]
      exact .rest_enterStage hsm fun _ => rfl

theorem Engine.norm_rest (hp : e.phase = .norm) (h : e.norm A = .next f) :
    (f.rest A).SameData (e.rest A) := by
  obtain ⟨hlt, rfl⟩ := Engine.norm_next.1 h
  rw [Engine.rest_norm hp, forFrom_of_lt hlt]
  split
  · next hlast =>
    rw [Engine.rest_of_not_busy rfl, forFrom_of_le hlast.ge]
    exact fun _ => rfl
  · exact .rest_norm hp fun _ => rfl

end

/-! ## A micro-operation brings the end one step nearer -/

section
variable {α : Type} {A : Arith α} {e f : Engine α}

theorem Engine.remaining_of_not_busy (hp : e.phase.busy = false) : e.remaining = 0 := by
  cases h : e.phase <;> simp [Engine.remaining, h, Phase.busy] at hp ⊢

theorem Engine.remaining_sinb (hp : e.phase = .sinb) : e.remaining = e.sineLen - e.si := by
  simp only [Engine.remaining, hp]

theorem Engine.remaining_brvb (hp : e.phase = .brvb) : e.remaining = e.len - e.bi := by
  simp only [Engine.remaining, hp]

theorem Engine.remaining_perm (hp : e.phase = .perm) :
    e.remaining = e.len - e.i + stagesLeft e.m 1 + e.normLeft := by
  simp only [Engine.remaining, hp]

theorem Engine.remaining_twld (hp : e.phase = .twld) :
    e.remaining = (e.k - e.j) * (1 + e.d) + stagesLeft e.m e.k2 + e.normLeft := by
  simp only [Engine.remaining, hp]

/-- The quotient in `Engine.remaining` is the number of butterflies left in the group. -/
theorem Engine.remaining_bfly (hp : e.phase = .bfly) (hs : e.InStage) {t : Nat} (ht : t < e.d)
    (hi : e.i = e.j + t * e.k2) :
    e.remaining =
      e.d - t + (e.k - e.j - 1) * (1 + e.d) + stagesLeft e.m e.k2 + e.normLeft := by
  have hlen := hs.d_mul_k2
  have hk2 := hs.k2_eq
  have hj := hs.j_lt_k
  have hdt : (e.d - t) * e.k2 + t * e.k2 = e.d * e.k2 := by
    rw [← Nat.add_mul, Nat.sub_add_cancel ht.le]
  have hmul : 1 * e.k2 ≤ (e.d - t) * e.k2 := Nat.mul_le_mul_right _ (by omega)
  have hnum : e.len - e.i + e.k2 - 1 = e.k2 - 1 - e.j + (e.d - t) * e.k2 := by omega
  have hquot : (e.len - e.i + e.k2 - 1) / e.k2 = e.d - t := by
    rw [hnum, Nat.add_mul_div_right _ _ (by omega), Nat.div_eq_of_lt (by omega), Nat.zero_add]
  simp only [Engine.remaining, hp, hquot]

theorem Engine.remaining_norm (hp : e.phase = .norm) : e.remaining = e.len - e.i := by
  simp only [Engine.remaining, hp]

/-- A stage takes `2^s` twiddle loads and `N/2` butterflies (rule R200). -/
theorem stagesLeft_of_lt {m s : Nat} (h : s < m) :
    stagesLeft m (2 ^ s) = 2 ^ s * (1 + 2 ^ (m - (s + 1))) + stagesLeft m (2 ^ (s + 1)) := by
  have hhalf : 2 ^ m / 2 = 2 ^ s * 2 ^ (m - (s + 1)) := by
    refine Nat.div_eq_of_eq_mul_left (by decide) ?_
    rw [← pow_add, ← pow_succ]
    congr 1
    omega
  have hle : 2 ^ (s + 1) ≤ 2 ^ m := Nat.pow_le_pow_right (by decide) h
  have hstages : m - s = m - (s + 1) + 1 := by omega
  rw [stagesLeft, stagesLeft, Nat.log2_two_pow, Nat.log2_two_pow, hstages, Nat.succ_mul,
    Nat.mul_add, ← hhalf]
  omega

theorem stagesLeft_last (m : Nat) : stagesLeft m (2 ^ m) = 0 := by
  simp [stagesLeft, Nat.log2_two_pow]

theorem Engine.remaining_enterStage {s : Nat} (hs : s ≤ e.m) :
    (e.enterStage (2 ^ s)).remaining = stagesLeft e.m (2 ^ s) + e.normLeft := by
  rcases Engine.enterStage_pow_cases hs with ⟨hlt, heq⟩ | ⟨rfl, hdir, heq⟩ | ⟨rfl, hdir, heq⟩
  · have hd : e.len / 2 ^ (s + 1) = 2 ^ (e.m - (s + 1)) := Nat.pow_div hlt (by decide)
    rw [heq, Engine.remaining_twld rfl, stagesLeft_of_lt hlt, hd]
    rfl
  · rw [heq, stagesLeft_last, Nat.zero_add, Engine.normLeft, if_pos hdir, Engine.remaining_norm rfl]
    rfl
  · rw [heq, stagesLeft_last, Nat.zero_add, Engine.normLeft, if_neg hdir,
      Engine.remaining_of_not_busy rfl]

theorem Engine.sinw_remaining (hp : e.phase = .sinb) (h : e.sinw A = .next f) :
    f.remaining + 1 = e.remaining := by
  obtain ⟨hlt, rfl⟩ := Engine.sinw_next.1 h
  rw [Engine.remaining_sinb hp]
  by_cases hlast : e.si + 1 = e.sineLen
  · simp only [hlast, if_true]
    rw [Engine.remaining_of_not_busy rfl]
    omega
  · simp only [hlast, if_false, Engine.remaining, hp]
    show e.sineLen - (e.si + 1) + 1 = _
    omega

theorem Engine.brvs_remaining (hp : e.phase = .brvb) (h : e.brvs = .next f) :
    f.remaining + 1 = e.remaining := by
  rw [Engine.remaining_brvb hp]
  obtain ⟨hlt, ⟨hlast, rfl⟩ | ⟨hlast, bj, bk, -, rfl⟩⟩ := Engine.brvs_next.1 h
  · rw [Engine.remaining_of_not_busy rfl]
    omega
  · simp only [Engine.remaining, hp]
    show e.len - (e.bi + 1) + 1 = _
    omega

theorem Engine.perm_remaining (hp : e.phase = .perm) (h : e.perm A = .next f) :
    f.remaining + 1 = e.remaining := by
  obtain ⟨hlt, rfl⟩ := Engine.perm_next.1 h
  rw [Engine.remaining_perm hp]
  split
  · next hlast =>
    have hstage := Engine.remaining_enterStage
      (e := { e.permWork A e.i with i := e.i + 1 }) (Nat.zero_le _)
    rw [pow_zero] at hstage
    rw [hstage]
    show stagesLeft e.m 1 + e.normLeft + 1 = _
    omega
  · rw [Engine.remaining_perm (e := { e.permWork A e.i with i := e.i + 1 }) hp]
    show e.len - (e.i + 1) + stagesLeft e.m 1 + e.normLeft + 1 = _
    omega

theorem Engine.twld_remaining (hp : e.phase = .twld) (hs : e.InStage) (h : e.twld A = .next f) :
    f.remaining + 1 = e.remaining := by
  obtain ⟨-, rfl⟩ := Engine.twld_next.1 h
  have hfirst : e.j = e.j + 0 * e.k2 := by omega
  have hgroup : (e.k - e.j) * (1 + e.d) = (e.k - e.j - 1) * (1 + e.d) + (1 + e.d) := by
    rw [← Nat.succ_mul, Nat.succ_eq_add_one, Nat.sub_add_cancel (Nat.sub_pos_of_lt hs.j_lt_k)]
  rw [Engine.remaining_twld hp, hgroup,
    Engine.remaining_bfly (e := { e.twldWork A e.h with i := e.j, phase := .bfly }) rfl hs
      hs.one_le_d hfirst]
  show e.d - 0 + (e.k - e.j - 1) * (1 + e.d) + stagesLeft e.m e.k2 + e.normLeft + 1 = _
  omega

theorem Engine.bfly_remaining (hp : e.phase = .bfly) (hs : e.InStage) {t : Nat} (ht : t < e.d)
    (hi : e.i = e.j + t * e.k2) (h : e.bfly A = .next f) : f.remaining + 1 = e.remaining := by
  obtain ⟨-, rfl⟩ := Engine.bfly_next.1 h
  rw [Engine.remaining_bfly hp hs ht hi]
  by_cases hin : e.i + e.k2 < e.len
  · obtain ⟨ht', hi'⟩ := hs.next_butterfly hi hin
    rw [if_pos hin, Engine.remaining_bfly
      (e := { e.bflyWork A e.i e.k with i := e.i + e.k2 }) hp hs ht' hi']
    show e.d - (t + 1) + (e.k - e.j - 1) * (1 + e.d) + stagesLeft e.m e.k2 + e.normLeft + 1 = _
    omega
  · have hlast := hs.last_butterfly ht hi hin
    rw [if_neg hin]
    by_cases hgroup : e.j + 1 < e.k
    · rw [if_pos hgroup, Engine.remaining_twld rfl]
      show (e.k - (e.j + 1)) * (1 + e.d) + stagesLeft e.m e.k2 + e.normLeft + 1 = _
      rw [Nat.sub_sub]
      omega
    · obtain ⟨s, hsm, -, hk2, -, hj, -⟩ := hs
      have hnone : e.k - e.j - 1 = 0 := by omega
      rw [if_neg hgroup, hk2, Engine.remaining_enterStage (e := e.afterGroup A) hsm, hnone]
      show stagesLeft e.m (2 ^ (s + 1)) + e.normLeft + 1 = _
      omega

theorem Engine.norm_remaining (hp : e.phase = .norm) (h : e.norm A = .next f) :
    f.remaining + 1 = e.remaining := by
  obtain ⟨hlt, rfl⟩ := Engine.norm_next.1 h
  rw [Engine.remaining_norm hp]
  split
  · next hlast =>
    rw [Engine.remaining_of_not_busy rfl]
    omega
  · rw [Engine.remaining_norm (e := { e.normWork A e.i with i := e.i + 1 }) hp]
    show e.len - (e.i + 1) + 1 = _
    omega

end

/-! ## A running command goes to its end -/

section
variable {α : Type} {A : Arith α} {e f : Engine α}

theorem Engine.sinw_err (h : e.sinw A = .next f) : f.err = e.err := by
  obtain ⟨-, rfl⟩ := Engine.sinw_next.1 h
  rfl

theorem Engine.brvs_err (h : e.brvs = .next f) : f.err = e.err := by
  obtain ⟨-, ⟨-, rfl⟩ | ⟨-, bj, bk, -, rfl⟩⟩ := Engine.brvs_next.1 h <;> rfl

theorem Engine.perm_err (h : e.perm A = .next f) : f.err = e.err := by
  obtain ⟨-, rfl⟩ := Engine.perm_next.1 h
  split
  · exact Engine.enterStage_err _ 1
  · rfl

theorem Engine.twld_err (h : e.twld A = .next f) : f.err = e.err := by
  obtain ⟨-, rfl⟩ := Engine.twld_next.1 h
  rfl

theorem Engine.bfly_err (h : e.bfly A = .next f) : f.err = e.err := by
  obtain ⟨-, rfl⟩ := Engine.bfly_next.1 h
  split
  · rfl
  · split
    · rfl
    · exact (e.afterGroup A).enterStage_err e.k2

theorem Engine.norm_err (h : e.norm A = .next f) : f.err = e.err := by
  obtain ⟨-, rfl⟩ := Engine.norm_next.1 h
  split <;> rfl

/-- Below the last entry the accumulator can be advanced (rule R149). -/
theorem Engine.exists_brvs_next (hi : e.Inv A) (hp : e.phase = .brvb) :
    ∃ f, e.brvs = .next f := by
  obtain ⟨hlt, hbj, -⟩ := (Engine.phaseOk_brvb hp).1 hi.phase_ok
  by_cases hlast : e.bi + 1 = e.len
  · exact ⟨_, Engine.brvs_next.2 ⟨hlt, .inl ⟨hlast, rfl⟩⟩⟩
  · obtain ⟨bk, -, hnext⟩ := brNext_rev (m := e.m) (Nat.lt_of_le_of_ne hlt hlast)
    rw [← hbj] at hnext
    exact ⟨_, Engine.brvs_next.2 ⟨hlt, .inr ⟨hlast, _, bk, hnext, rfl⟩⟩⟩

/-- The cosine is read inside the table (rule R209). -/
theorem Engine.InStage.h_add_quarter_lt (h : e.InStage) : e.h + e.quarter < e.sineLen := by
  have hle := h.h_add_d_le
  have hd := h.one_le_d
  have hlen : e.sineLen = e.len + e.quarter := rfl
  omega

/-- The micro-operation of a running command is the one its phase selects (rule R100). -/
theorem Engine.micro_cases (A : Arith α) (ha : Params.admitted e.m = true)
    (hb : e.phase.busy = true) :
    e.phase = .sinb ∧ e.micro A = e.sinw A ∨ e.phase = .brvb ∧ e.micro A = e.brvs ∨
      e.phase = .perm ∧ e.micro A = e.perm A ∨ e.phase = .twld ∧ e.micro A = e.twld A ∨
      e.phase = .bfly ∧ e.micro A = e.bfly A ∨ e.phase = .norm ∧ e.micro A = e.norm A := by
  cases hp : e.phase <;> simp [Engine.micro, hp, Engine.selected_eq ha hp, Phase.busy] at hb ⊢

/-- The micro-operation of a running command answers, keeps the invariant and records no fault
(rules R209, R245), brings the end one step nearer (rule R300) and leaves the rest the same. -/
theorem Engine.micro_advances (hi : e.Inv A) (hb : e.phase.busy = true) :
    ∃ f, e.micro A = .next f ∧ f.Inv A ∧ f.err = e.err ∧ f.remaining + 1 = e.remaining ∧
      (f.rest A).SameData (e.rest A) := by
  rcases Engine.micro_cases A hi.admitted hb with
    ⟨hp, hm⟩ | ⟨hp, hm⟩ | ⟨hp, hm⟩ | ⟨hp, hm⟩ | ⟨hp, hm⟩ | ⟨hp, hm⟩ <;> rw [hm]
  · obtain ⟨hlt, -⟩ := (Engine.phaseOk_sinb hp).1 hi.phase_ok
    have h := Engine.sinw_next (A := A).2 ⟨hlt, rfl⟩
    exact ⟨_, h, Engine.sinw_inv hi hp h, Engine.sinw_err h, Engine.sinw_remaining hp h,
      Engine.sinw_rest hp h⟩
  · obtain ⟨f, h⟩ := Engine.exists_brvs_next hi hp
    exact ⟨f, h, Engine.brvs_inv hi hp h, Engine.brvs_err h, Engine.brvs_remaining hp h,
      Engine.brvs_rest hp h⟩
  · obtain ⟨-, hlt⟩ := (Engine.phaseOk_perm hp).1 hi.phase_ok
    have h := Engine.perm_next (A := A).2 ⟨hlt, rfl⟩
    exact ⟨_, h, Engine.perm_inv hi hp h, Engine.perm_err h, Engine.perm_remaining hp h,
      Engine.perm_rest hp h⟩
  · obtain ⟨-, hs⟩ := (Engine.phaseOk_twld hp).1 hi.phase_ok
    have h := Engine.twld_next (A := A).2 ⟨hs.h_add_quarter_lt, rfl⟩
    exact ⟨_, h, Engine.twld_inv hi hp h, Engine.twld_err h, Engine.twld_remaining hp hs h,
      Engine.twld_rest hp hs h⟩
  · obtain ⟨-, hs, t, ht, hit⟩ := (Engine.phaseOk_bfly hp).1 hi.phase_ok
    have h := Engine.bfly_next (A := A).2 ⟨hi.phase_ok.ik_lt_len hp, rfl⟩
    exact ⟨_, h, Engine.bfly_inv hi hp h, Engine.bfly_err h, Engine.bfly_remaining hp hs ht hit h,
      Engine.bfly_rest hp hs ht hit h⟩
  · obtain ⟨-, hlt, -⟩ := (Engine.phaseOk_norm hp).1 hi.phase_ok
    have h := Engine.norm_next (A := A).2 ⟨hlt, rfl⟩
    exact ⟨_, h, Engine.norm_inv hi hp h, Engine.norm_err h, Engine.norm_remaining hp h,
      Engine.norm_rest hp h⟩

theorem Engine.run_succ_of_next {n : Nat} (h : e.micro A = .next f) :
    e.run A (n + 1) = f.run A n := by
  rw [Engine.run, h]

theorem Engine.phase_eq_idle (hi : e.Inv A) (herr : e.err = .none) (hb : e.phase.busy = false) :
    e.phase = .idle := by
  have hhalt : e.phase ≠ .halt := fun h => hi.halt_iff.1 h herr
  cases hp : e.phase <;> simp [hp, Phase.busy] at hb hhalt ⊢

/-- A running command ends after exactly the micro-operations it has left, with the data of its big
step (rule R70). -/
theorem Engine.run_remaining (hi : e.Inv A) (herr : e.err = .none) :
    ∃ f, e.run A e.remaining = .next f ∧ f.Inv A ∧ f.phase = .idle ∧ f.SameData (e.rest A) := by
  induction hn : e.remaining generalizing e with
  | zero =>
    have hb : e.phase.busy = false := by
      by_contra hb
      obtain ⟨f, -, -, -, hrem, -⟩ := Engine.micro_advances hi (Bool.eq_true_of_not_eq_false hb)
      omega
    refine ⟨e, rfl, hi, Engine.phase_eq_idle hi herr hb, ?_⟩
    rw [Engine.rest_of_not_busy hb]
    exact .refl e
  | succ n ih =>
    have hb : e.phase.busy = true := by
      by_contra hb
      rw [Engine.remaining_of_not_busy (Bool.eq_false_of_not_eq_true hb)] at hn
      cases hn
    obtain ⟨f, hf, hfi, hferr, hrem, hrest⟩ := Engine.micro_advances hi hb
    obtain ⟨g, hg, hgi, hgp, hdata⟩ := ih hfi (hferr.trans herr) (by omega)
    exact ⟨g, (Engine.run_succ_of_next hf).trans hg, hgi, hgp, hdata.trans hrest⟩

/-- All the host can see is data, but for the phase. -/
theorem Engine.SameData.sameVisible (h : e.SameData f) (hp : e.phase = f.phase) :
    e.SameVisible f where
  m := (congrArg Engine.m (h e) :)
  preload := (congrArg Engine.preload (h e) :)
  x := (congrArg Engine.x (h e) :)
  y := (congrArg Engine.y (h e) :)
  sintbl := (congrArg Engine.sintbl (h e) :)
  bitrev := (congrArg Engine.bitrev (h e) :)
  sinv := (congrArg Engine.sinv (h e) :)
  brv := (congrArg Engine.brv (h e) :)
  err := (congrArg Engine.err (h e) :)
  phase := hp
  draws := (congrArg Engine.draws (h e) :)

/-- The two views agree on all the host can see (rule R70), for an engine whose rest is that big
step. -/
theorem Engine.run_sameVisible (hi : e.Inv A) (herr : e.err = .none)
    (hrest : (e.rest A).SameData f) (hp : f.phase = .idle) :
    ∃ g, e.run A e.remaining = .next g ∧ g.Inv A ∧ g.SameVisible f := by
  obtain ⟨g, hrun, hgi, hidle, hdata⟩ := Engine.run_remaining hi herr
  exact ⟨g, hrun, hgi, (hdata.trans hrest).sameVisible (hidle.trans hp.symm)⟩

/-! ## The transform -/

theorem Engine.bigXform_phase {dir : Direction} : (e.bigXform A dir).phase = e.phase := by
  rw [Engine.bigXform_eq]
  exact Engine.phase_of_counters ({ e with dir := dir } : Engine α)
    (op := fun g => (forFrom 0 e.len (Engine.permWork A) g).bigFromStage A 0) fun g c => by
      rw [forFrom_counters g c fun i f c => f.permWork_counters c i, Engine.bigFromStage_counters]

end

/-- Settles O54: what the started transform has left is its big step, and the run to its end keeps
that. -/
theorem transformSmallStepIsBigStep : Obligations.TransformSmallStepIsBigStep := by
  intro α A e dir hi hp ⟨hs, hb, hpop⟩
  have hstart : e.startXform dir = .next { e with dir := dir, i := 0, phase := .perm } :=
    Engine.startXform_next.2 (.inr ⟨hs, hb, hpop, rfl⟩)
  have hrest : (Engine.rest A { e with dir := dir, i := 0, phase := .perm }).SameData
      (e.bigXform A dir) := by
    rw [Engine.bigXform_eq]
    exact .rest_perm rfl fun _ => rfl
  obtain ⟨f, hrun, -, hvis⟩ := Engine.run_sameVisible (Engine.startXform_inv hi hp hstart)
    (hi.err_eq_none (by simp [hp])) hrest (Engine.bigXform_phase.trans hp)
  exact ⟨_, f, hstart, hrun, hvis⟩

/-! ## The table builds -/

section
variable {α : Type} {n : Nat} {c c' : Cells α} {g : Nat → α}

theorem Cells.read_eq_none_of_le (hc : c.wf n) {a : Nat} (ha : n ≤ a) : c.read a = none := by
  obtain ⟨-, hlt⟩ := hc
  induction c with
  | nil => rfl
  | cons p rest ih =>
    have hp := hlt p List.mem_cons_self
    rw [Cells.read, if_neg (by omega)]
    exact ih fun q hq => hlt q (List.mem_cons_of_mem _ hq)

/-- A full table in canonical form is determined by its contents (rules R127, R147). -/
theorem Cells.eq_of_full (hc : c.wf n) (hc' : c'.wf n) (h : ∀ i < n, c.read i = some (g i))
    (h' : ∀ i < n, c'.read i = some (g i)) : c = c' := by
  refine Cells.ext_of_read hc hc' fun a => ?_
  rcases Nat.lt_or_ge a n with ha | ha
  · rw [h a ha, h' a ha]
  · rw [Cells.read_eq_none_of_le hc ha, Cells.read_eq_none_of_le hc' ha]

end

section
variable {α : Type} (A : Arith α) (e : Engine α)

/-- `MKSIN` writes the sine table and its valid bit alone (rule R123). -/
theorem Engine.bigMksin_frame :
    ∃ tbl, e.bigMksin A = { e with sintbl := tbl, sinv := true } := by
  rw [Engine.bigMksin_eq]
  obtain ⟨tbl, h⟩ := forFrom_induct (P := fun f => ∃ tbl, f = { e with sintbl := tbl })
    (body := Engine.recordSine A) (a := 0) (n := e.sineLen) ⟨e.sintbl, rfl⟩
    (by rintro i _ ⟨tbl, rfl⟩; exact ⟨_, rfl⟩)
  exact ⟨tbl, by rw [h]⟩

/-- `MKBREV` writes the bit-reversal table, its valid bit and the accumulator alone (rule R141). -/
theorem Engine.bigMkbrev_frame :
    ∃ tbl bj, e.bigMkbrev = { e with bitrev := tbl, bj := bj, brv := true } := by
  rw [Engine.bigMkbrev_eq]
  obtain ⟨tbl, bj, h⟩ :=
    forFrom_induct (P := fun f => ∃ tbl bj, f = { e with bitrev := tbl, bj := bj })
      (body := Engine.recordRev) (a := 0) (n := e.len) ⟨e.bitrev, 0, rfl⟩
      (by rintro i _ ⟨tbl, bj, rfl⟩; exact ⟨_, _, rfl⟩)
  exact ⟨tbl, bj, by rw [h]⟩

theorem Engine.startMksin_rest : (e.startMksin.rest A).SameData (e.bigMksin A) := by
  rw [Engine.bigMksin_eq]
  exact .rest_sinb rfl fun _ => rfl

theorem Engine.startMkbrev_rest : (e.startMkbrev.rest A).SameData e.bigMkbrev := by
  rw [Engine.bigMkbrev_eq]
  exact .rest_brvb rfl fun _ => rfl

end

/-- Settles O52: what the started build has left is its big step; the invariant at the end says what
the table holds, and a table is determined by what it holds. -/
theorem mksinBuildsTheSineTable : Obligations.MksinBuildsTheSineTable := by
  intro α A e hi hp
  obtain ⟨tbl, hframe⟩ := e.bigMksin_frame A
  have hrest := e.startMksin_rest A
  rw [hframe] at hrest ⊢
  obtain ⟨f, hrun, hfi, hvis⟩ := Engine.run_sameVisible (Engine.startMksin_inv hi hp)
    (hi.err_eq_none (by simp [hp])) hrest hp
  have hbuilt := hfi.sine_valid hvis.sinv
  have hlen : f.sineLen = e.sineLen := congrArg Params.sineLen hvis.m
  rw [Engine.SineBuilt, hlen, hvis.m] at hbuilt
  exact ⟨f, hrun, hvis, hvis.phase.trans hp, hvis.sinv, hbuilt, hvis.x, hvis.y, hvis.bitrev,
    hvis.brv, hvis.err, fun hv => Cells.eq_of_full (hlen ▸ hfi.sintbl_wf) hi.sintbl_wf hbuilt
      (hi.sine_valid hv)⟩

/-- Settles O53: as O52; the accumulator is data that both views carry alike. -/
theorem mkbrevBuildsTheBitReversalTable : Obligations.MkbrevBuildsTheBitReversalTable := by
  intro α A e hi hp
  obtain ⟨tbl, bj, hframe⟩ := e.bigMkbrev_frame
  have hrest := e.startMkbrev_rest A
  rw [hframe] at hrest ⊢
  obtain ⟨f, hrun, hfi, hvis⟩ := Engine.run_sameVisible (Engine.startMkbrev_inv hi hp)
    (hi.err_eq_none (by simp [hp])) hrest hp
  have hbuilt := hfi.rev_valid hvis.brv
  have hlen : f.len = e.len := congrArg Params.len hvis.m
  rw [Engine.RevBuilt, hlen, hvis.m] at hbuilt
  exact ⟨f, hrun, hvis, hvis.phase.trans hp, hvis.brv, hbuilt, hvis.x, hvis.y, hvis.sintbl,
    hvis.sinv, hvis.err, fun hv => Cells.eq_of_full (hlen ▸ hfi.bitrev_wf) hi.bitrev_wf hbuilt
      (hi.rev_valid hv)⟩

end Sys2Proof.Machine

/-! PROOFS. Decoder and encoder (rules R90 to R104): the decoder reads every encoding back, what it
accepts is well-formed, and a command word is determined by the three fields the decoder tests. -/
namespace Sys2Proof.Machine

/-! ## Transaction fields -/

@[simp] theorem decodeSpace_encodeSpace (space : Space) :
    decodeSpace (encodeSpace space) = space := by
  cases space <;> rfl

/-- The data field carries an element of the space's type without loss (rules R98, R228). -/
theorem decodeDatum_encodeDatum {space : Space} {data : Datum} (h : data.fits space = true) :
    decodeDatum space (encodeDatum data) = data := by
  cases data with
  | word w =>
    have hword : space.holdsNum = false := by simpa [Datum.fits] using h
    simp [decodeDatum, encodeDatum, hword]
  | num v =>
    have hnum : space.holdsNum = true := h
    simp [decodeDatum, encodeDatum, hnum]

theorem decodeDatum_fits (space : Space) (data : BitVec 64) :
    (decodeDatum space data).fits space = true := by
  cases h : space.holdsNum <;> simp [decodeDatum, Datum.fits, h]

theorem wellFormed_of_decodeTxn {t : Txn} {i : Instr} (h : decodeTxn t = .ok i) :
    i.wellFormed = true := by
  unfold decodeTxn at h
  split_ifs at h <;> cases h
  · rfl
  · exact decodeDatum_fits _ _
  · rfl

/-! ## Command words -/

/-- The three fields of rule R92 are all the bits of a word. -/
theorem eq_of_commandFields_eq {w v : Word} (hhigh : w.extractLsb 31 3 = v.extractLsb 31 3)
    (hop : w.extractLsb 2 1 = v.extractLsb 2 1) (hinv : w.extractLsb 0 0 = v.extractLsb 0 0) :
    w = v := by
  apply BitVec.eq_of_toNat_eq
  have hhigh := congrArg BitVec.toNat hhigh
  have hop := congrArg BitVec.toNat hop
  have hinv := congrArg BitVec.toNat hinv
  simp only [BitVec.extractLsb_toNat, Nat.shiftRight_eq_div_pow] at hhigh hop hinv
  omega

/-- Exactly the word of a command decodes to it (rules R92 to R96). -/
theorem decodeCommand_eq_some_iff {w : Word} {c : Command} :
    decodeCommand w = some c ↔ w = encodeCommand c := by
  constructor
  · intro h
    unfold decodeCommand at h
    split_ifs at h with hhigh _ hfields hfields hfields hfields <;> cases h <;>
      exact eq_of_commandFields_eq (not_not.1 hhigh) hfields.1 hfields.2
  · rintro rfl
    exact decodeCommand_encodeCommand c

theorem encode_commandInstr (c : Command) : encode c.instr = .c (encodeCommand c) := by
  cases c <;> rfl

theorem decode_c_eq_ok_iff {w : Word} {i : Instr} :
    decode (.c w) = .ok i ↔ ∃ c, decodeCommand w = some c ∧ c.instr = i := by
  cases h : decodeCommand w <;> simp [decode, h]

theorem encode_of_decode_c {w : Word} {i : Instr} (h : decode (.c w) = .ok i) :
    encode i = .c w := by
  obtain ⟨c, hc, rfl⟩ := decode_c_eq_ok_iff.1 h
  rw [encode_commandInstr, decodeCommand_eq_some_iff.1 hc]

/-! ## Values of `PHASE` -/

theorem encode_of_decodePhase {p : BitVec 3} {i : Instr} (h : decodePhase p = .ok i) :
    encode i = .u p := by
  unfold decodePhase at h
  split_ifs at h with hp hp hp hp hp hp <;> cases h <;> rw [hp] <;> rfl

/-! ## Whole instructions -/

/-- Only a write has operands that can be ill-typed, and a write is a transaction. -/
theorem wellFormed_of_encode_ne_t {i : Instr} (h : ∀ t, encode i ≠ .t t) :
    i.wellFormed = true := by
  cases i with
  | hwr => exact absurd rfl (h _)
  | _ => rfl

theorem wellFormed_of_decode {code : Code} {i : Instr} (h : decode code = .ok i) :
    i.wellFormed = true := by
  cases code with
  | c w => exact wellFormed_of_encode_ne_t fun t => by simp [encode_of_decode_c h]
  | t tuple => exact wellFormed_of_decodeTxn h
  | u p => exact wellFormed_of_encode_ne_t fun t => by simp [encode_of_decodePhase h]

/-- Settles O3: a command by its word, a write by its space and its datum, the rest has no operands
that decoding could lose. -/
theorem decodeInvertsEncode : Obligations.DecodeInvertsEncode := by
  intro i hi
  cases i with
  | mksin | mkbrev | xformFwd | xformInv =>
    exact decode_c_eq_ok_iff.2 ⟨_, decodeCommand_encodeCommand _, rfl⟩
  | sinw | brvs | perm | twld | bfly | norm | reset => rfl
  | hrd space index => simp [encode, decode, decodeTxn]
  | hwr space index data =>
    have hdata := decodeDatum_encodeDatum (space := space) (data := data) hi
    simp [encode, decode, decodeTxn, hdata]

/-- Settles O2: a word that decodes is the word of its command, and the list has all four. -/
theorem commandWordsAreExactlyFour : Obligations.CommandWordsAreExactlyFour := by
  intro w
  split_ifs with h2 h4 h6 h7
  · exact decodeCommand_eq_some_iff.2 h2
  · exact decodeCommand_eq_some_iff.2 h4
  · exact decodeCommand_eq_some_iff.2 h6
  · exact decodeCommand_eq_some_iff.2 h7
  · refine Option.eq_none_iff_forall_ne_some.2 fun c hc => ?_
    have hw := decodeCommand_eq_some_iff.1 hc
    cases c with
    | mksin => exact h2 hw
    | mkbrev => exact h4 hw
    | xformFwd => exact h6 hw
    | xformInv => exact h7 hw

/-- Settles O4: formats C and U by their inverse lemmas, a tuple by its datum's type. -/
theorem decodedInstructionsAreWellFormed : Obligations.DecodedInstructionsAreWellFormed :=
  ⟨fun _ _ => wellFormed_of_decode, fun _ _ => encode_of_decode_c,
    fun _ _ => encode_of_decodePhase⟩

/-- Settles O1: the decoder runs on each of the bit patterns. -/
theorem specWordsDecodeAsWritten : Obligations.SpecWordsDecodeAsWritten := by
  unfold Obligations.SpecWordsDecodeAsWritten
  decide

/-! ## A command as a write to `CMD` -/

/-- A write of a word to `CMD` is the host write that decodes the word as a command (rule R222). -/
theorem exec_hwr_cmd (s : State) (w : Word) :
    exec (.hwr .csr 0#32 (.word w)) s = s.hostWrite (Engine.command w) :=
  rfl

/-- A command is the host write that decodes its own word (rules R93 to R96). -/
theorem exec_commandInstr (s : State) (c : Command) :
    exec c.instr s = s.hostWrite (Engine.command (encodeCommand c)) := by
  cases c <;> rfl

/-- Settles O33: both are the host write of the command's word. -/
theorem hwrOfCommandWordIsTheCommand : Obligations.HwrOfCommandWordIsTheCommand := fun s c =>
  (exec_hwr_cmd s _).trans (exec_commandInstr s c).symm

end Sys2Proof.Machine

/-! PROOFS. The sine table: what its build does, the symmetries of `SINVAL` over binary64 and over
exact reals, and the twiddle factor that a transform reads (rules R121 to R130, R167, R168). -/
namespace Sys2Proof.Machine

/-! ## The build -/

/-- Settles O14: both commands are host writes that always answer. -/
theorem tableBuildsStart : Obligations.TableBuildsStart := fun _ ha hp =>
  ⟨State.hostWrite_idle (work := fun e => .next e.startMksin) ha hp,
    State.hostWrite_idle (work := fun e => .next e.startMkbrev) ha hp⟩

/-- Settles O18: `Engine.sinw_next` gives the next engine, `Cells.read_write` its table. -/
theorem sinwWritesOneEntry : Obligations.SinwWritesOneEntry := by
  intro s ha hp hsi
  have h := State.microOp_of_next ha hp
    (Engine.sinw_next (A := Arith.binary64).2 ⟨hsi, rfl⟩)
  rw [hp] at h
  exact ⟨_, h, fun a => Cells.read_write _ _ a _⟩

/-! ## Fractions of a period -/

section
variable {m : ℕ}

/-- A period is four quarters (rules R8, R121). -/
theorem two_pow_eq_four_mul_quarter (hm : 2 ≤ m) : 2 ^ m = 4 * (2 ^ m / 4) :=
  (Nat.mul_div_cancel' (Nat.pow_dvd_pow 2 hm)).symm

theorem quarter_pos (hm : 2 ≤ m) : 0 < 2 ^ m / 4 := by
  have hpow := two_pow_eq_four_mul_quarter hm
  have hpos := Nat.two_pow_pos m
  omega

theorem half_eq_two_mul_quarter (hm : 2 ≤ m) : 2 ^ m / 2 = 2 * (2 ^ m / 4) := by
  have hpow := two_pow_eq_four_mul_quarter hm
  omega

theorem cast_quarter (hm : 2 ≤ m) : ((2 ^ m / 4 : ℕ) : ℝ) = 2 ^ m / 4 := by
  have hpow := congrArg (Nat.cast (R := ℝ)) (two_pow_eq_four_mul_quarter hm)
  push_cast at hpow
  linarith

theorem cast_half (hm : 2 ≤ m) : ((2 ^ m / 2 : ℕ) : ℝ) = 2 ^ m / 2 := by
  rw [half_eq_two_mul_quarter hm, Nat.cast_mul, cast_quarter hm]
  push_cast
  ring

/-! ## `SINVAL` over binary64 -/

theorem Sine.sinval_mul_quarter (hm : 2 ≤ m) {c : ℕ} (hc : c < 4) :
    Sine.sinval m (c * (2 ^ m / 4)) =
      if c = 1 then Ieee.pack false (1023 * 2 ^ 52)
      else if c = 3 then Ieee.pack true (1023 * 2 ^ 52) else Ieee.pack false 0 := by
  rw [Sine.sinval, if_neg (by omega)]
  simp only [Nat.mul_div_cancel c (quarter_pos hm), Nat.mul_mod_left]
  interval_cases c <;> simp

/-- Between the exact entries: an odd quadrant runs backwards, the second half is negative. -/
theorem Sine.sinval_inside (hm : 2 ≤ m) {c r : ℕ} (hc : c < 4) (h0 : 0 < r)
    (hr : r < 2 ^ m / 4) :
    Sine.sinval m (c * (2 ^ m / 4) + r) =
      Sine.firstQuadrant (decide (2 ≤ c)) m (if c % 2 = 0 then r else 2 ^ m / 4 - r) := by
  have hdiv : (c * (2 ^ m / 4) + r) / (2 ^ m / 4) = c := by
    rw [Nat.add_comm, Nat.add_mul_div_right _ _ (quarter_pos hm), Nat.div_eq_of_lt hr, Nat.zero_add]
  have hmod : (c * (2 ^ m / 4) + r) % (2 ^ m / 4) = r := by
    rw [Nat.mul_add_mod', Nat.mod_eq_of_lt hr]
  rw [Sine.sinval, if_neg (by omega)]
  simp only [hdiv, hmod, if_neg h0.ne']
  interval_cases c <;> simp

/-- An entry strictly inside the first quadrant is its computed sine rounded (rule R122). -/
theorem Sine.sinval_of_lt_quarter (hm : 2 ≤ m) {r : ℕ} (h0 : 0 < r) (hr : r < 2 ^ m / 4) :
    Sine.sinval m r = Sine.firstQuadrant false m r := by
  have h := Sine.sinval_inside hm (c := 0) (by decide) h0 hr
  rwa [Nat.zero_mul, Nat.zero_add] at h

theorem Sine.firstQuadrant_true (m r : ℕ) :
    Sine.firstQuadrant true m r = Ieee.neg (Sine.firstQuadrant false m r) :=
  Ieee.round_true _ _

theorem Sine.sinval_zero (m : ℕ) : Sine.sinval m 0 = 0#64 := by
  by_cases hm : m < 2 <;> simp [Sine.sinval, hm, Ieee.pack]

theorem Sine.sinval_quarter (hm : 2 ≤ m) : Sine.sinval m (2 ^ m / 4) = 0x3FF0000000000000#64 := by
  rw [← Nat.one_mul (2 ^ m / 4), Sine.sinval_mul_quarter hm (by decide)]
  rfl

theorem Sine.sinval_half (hm : 2 ≤ m) : Sine.sinval m (2 ^ m / 2) = 0#64 := by
  rw [half_eq_two_mul_quarter hm, Sine.sinval_mul_quarter hm (by decide)]
  rfl

theorem Sine.sinval_threeQuarters (hm : 2 ≤ m) :
    Sine.sinval m (3 * 2 ^ m / 4) = 0xBFF0000000000000#64 := by
  rw [Nat.mul_div_assoc 3 (Nat.pow_dvd_pow 2 hm), Sine.sinval_mul_quarter hm (by decide)]
  rfl

theorem Sine.sinval_half_sub_of_le (hm : 2 ≤ m) {i : ℕ} (hi : i ≤ 2 ^ m / 4) :
    Sine.sinval m (2 ^ m / 2 - i) = Sine.sinval m i := by
  have hhalf := half_eq_two_mul_quarter hm
  rcases Nat.eq_zero_or_pos i with rfl | h0
  · rw [Nat.sub_zero, Sine.sinval_half hm, Sine.sinval_zero]
  · rcases hi.lt_or_eq with hlt | rfl
    · have hsecond := Sine.sinval_inside hm (c := 1) (r := 2 ^ m / 4 - i) (by decide) (by omega)
        (by omega)
      rw [show 2 ^ m / 2 - i = 1 * (2 ^ m / 4) + (2 ^ m / 4 - i) by omega, hsecond]
      simp [Sine.sinval_of_lt_quarter hm h0 hlt, Nat.sub_sub_self hi]
    · congr 1
      omega

/-- Symmetric about the quarter period. -/
theorem Sine.sinval_half_sub (hm : 2 ≤ m) {i : ℕ} (hi : i ≤ 2 ^ m / 2) :
    Sine.sinval m (2 ^ m / 2 - i) = Sine.sinval m i := by
  have hhalf := half_eq_two_mul_quarter hm
  rcases Nat.le_total i (2 ^ m / 4) with hle | hge
  · exact Sine.sinval_half_sub_of_le hm hle
  · have h := Sine.sinval_half_sub_of_le hm (i := 2 ^ m / 2 - i) (by omega)
    rw [Nat.sub_sub_self hi] at h
    exact h.symm

/-- Negated after half a period, but for the positive zeros. -/
theorem Sine.sinval_add_half (hm : 2 ≤ m) {i : ℕ} (h0 : 0 < i) (hi : i < 2 ^ m / 2) :
    Sine.sinval m (i + 2 ^ m / 2) = Ieee.neg (Sine.sinval m i) := by
  have hhalf := half_eq_two_mul_quarter hm
  by_cases hq : i = 2 ^ m / 4
  · have hsum : i + 2 ^ m / 2 = 3 * 2 ^ m / 4 := by
      have hpow := two_pow_eq_four_mul_quarter hm
      omega
    rw [hsum, hq, Sine.sinval_threeQuarters hm, Sine.sinval_quarter hm]
    rfl
  · obtain ⟨c, r, hc, hr0, hr, rfl⟩ :
        ∃ c r, c < 2 ∧ 0 < r ∧ r < 2 ^ m / 4 ∧ i = c * (2 ^ m / 4) + r := by
      rcases Nat.lt_or_gt_of_ne hq with hlt | hgt
      · exact ⟨0, i, by decide, h0, hlt, by omega⟩
      · exact ⟨1, i - 2 ^ m / 4, by decide, by omega, by omega, by omega⟩
    have hshift : c * (2 ^ m / 4) + r + 2 ^ m / 2 = (c + 2) * (2 ^ m / 4) + r := by
      rw [hhalf]
      ring
    rw [hshift, Sine.sinval_inside hm (by omega) hr0 hr, Sine.sinval_inside hm (by omega) hr0 hr,
      Nat.add_mod_right, decide_eq_true (by omega : 2 ≤ c + 2),
      decide_eq_false (by omega : ¬2 ≤ c), Sine.firstQuadrant_true]

theorem Sine.sinval_add_period (hm : 2 ≤ m) (i : ℕ) :
    Sine.sinval m (i + 2 ^ m) = Sine.sinval m i := by
  have hpow := two_pow_eq_four_mul_quarter hm
  have hdiv : (i + 2 ^ m) / (2 ^ m / 4) = i / (2 ^ m / 4) + 4 := by
    rw [← Nat.add_mul_div_right _ _ (quarter_pos hm), ← hpow]
  have hmod : (i + 2 ^ m) % (2 ^ m / 4) = i % (2 ^ m / 4) := by
    rw [← Nat.add_mul_mod_self_right i 4, ← hpow]
  simp only [Sine.sinval, hdiv, hmod, Nat.add_mod_right]

theorem Sine.sinval_period (hm : 2 ≤ m) : Sine.sinval m (2 ^ m) = 0#64 := by
  rw [← Nat.zero_add (2 ^ m), Sine.sinval_add_period hm, Sine.sinval_zero]

/-! ## `SINVAL` over exact reals -/

/-- The exact sine of rule R122. -/
noncomputable def Sine.exact (m i : ℕ) : ℝ := Real.sin (2 * Real.pi * i / 2 ^ m)

theorem Arith.real_sinval (draw : ℕ → ℕ → ℝ) : (Arith.real draw).sinval = Sine.exact := rfl

theorem Sine.exact_zero (m : ℕ) : Sine.exact m 0 = 0 := by simp [Sine.exact]

theorem Sine.exact_half_sub (hm : 2 ≤ m) {i : ℕ} (hi : i ≤ 2 ^ m / 2) :
    Sine.exact m (2 ^ m / 2 - i) = Sine.exact m i := by
  have hangle : 2 * Real.pi * ((2 ^ m / 2 - i : ℕ) : ℝ) / 2 ^ m =
      Real.pi - 2 * Real.pi * i / 2 ^ m := by
    rw [Nat.cast_sub hi, cast_half hm]
    field_simp
  rw [Sine.exact, hangle, Real.sin_pi_sub, Sine.exact]

theorem Sine.exact_add_half (hm : 2 ≤ m) (i : ℕ) :
    Sine.exact m (i + 2 ^ m / 2) = -Sine.exact m i := by
  have hangle : 2 * Real.pi * ((i + 2 ^ m / 2 : ℕ) : ℝ) / 2 ^ m =
      2 * Real.pi * i / 2 ^ m + Real.pi := by
    rw [Nat.cast_add, cast_half hm]
    field_simp
  rw [Sine.exact, hangle, Real.sin_add_pi, Sine.exact]

theorem Sine.exact_add_period (m i : ℕ) : Sine.exact m (i + 2 ^ m) = Sine.exact m i := by
  have hangle : 2 * Real.pi * ((i + 2 ^ m : ℕ) : ℝ) / 2 ^ m =
      2 * Real.pi * i / 2 ^ m + 2 * Real.pi := by
    push_cast
    field_simp
  rw [Sine.exact, hangle, Real.sin_add_two_pi, Sine.exact]

/-- A quarter of a period on, the sine is the cosine (rules R121, R168). -/
theorem Sine.exact_add_quarter (hm : 2 ≤ m) (i : ℕ) :
    Sine.exact m (i + 2 ^ m / 4) = Real.cos (2 * Real.pi * i / 2 ^ m) := by
  have hangle : 2 * Real.pi * ((i + 2 ^ m / 4 : ℕ) : ℝ) / 2 ^ m =
      2 * Real.pi * i / 2 ^ m + Real.pi / 2 := by
    rw [Nat.cast_add, cast_quarter hm]
    field_simp
    ring
  rw [Sine.exact, hangle, Real.sin_add_pi_div_two]

theorem Sine.exact_succ_double (m i : ℕ) : Sine.exact (m + 1) (2 * i) = Sine.exact m i := by
  rw [Sine.exact, Sine.exact, Nat.cast_mul, Nat.cast_ofNat, pow_succ', mul_left_comm,
    mul_div_mul_left _ _ two_ne_zero]

theorem Sine.exact_nonneg (hm : 2 ≤ m) {i : ℕ} (hi : i ≤ 2 ^ m / 2) : 0 ≤ Sine.exact m i := by
  have hi' := (Nat.cast_le (α := ℝ)).2 hi
  rw [cast_half hm] at hi'
  refine Real.sin_nonneg_of_nonneg_of_le_pi (by positivity) ?_
  rw [div_le_iff₀ (by positivity)]
  nlinarith [Real.pi_pos]

/-- `2 sin² θ = 1 - cos 2θ`, in entries of the table. -/
theorem Sine.two_mul_exact_sq (hm : 2 ≤ m) (i : ℕ) :
    2 * Sine.exact m i ^ 2 = 1 - Sine.exact m (2 * i + 2 ^ m / 4) := by
  have hangle : 2 * Real.pi * ((2 * i : ℕ) : ℝ) / 2 ^ m = 2 * (2 * Real.pi * i / 2 ^ m) := by
    push_cast
    ring
  rw [Sine.exact_add_quarter hm, hangle, Sine.exact, Real.sin_sq_eq_half_sub]
  ring

theorem Sine.exact_quarter (hm : 2 ≤ m) : Sine.exact m (2 ^ m / 4) = 1 := by
  have h := Sine.exact_add_quarter hm 0
  simpa using h

theorem Sine.exact_half (hm : 2 ≤ m) : Sine.exact m (2 ^ m / 2) = 0 := by
  have h := Sine.exact_add_half hm 0
  rwa [Nat.zero_add, Sine.exact_zero, neg_zero] at h

theorem Sine.exact_period (m : ℕ) : Sine.exact m (2 ^ m) = 0 := by
  rw [← Nat.zero_add (2 ^ m), Sine.exact_add_period, Sine.exact_zero]

theorem Sine.exact_threeQuarters (hm : 2 ≤ m) : Sine.exact m (3 * 2 ^ m / 4) = -1 := by
  have hsum : 3 * 2 ^ m / 4 = 2 ^ m / 4 + 2 ^ m / 2 := by
    have hpow := two_pow_eq_four_mul_quarter hm
    omega
  rw [hsum, Sine.exact_add_half hm, Sine.exact_quarter hm]

end

/-- Settles O45: the folding of the quadrants over binary64, the period of the sine over exact
reals. -/
theorem sineExactEntriesAndSymmetries : Obligations.SineExactEntriesAndSymmetries := by
  refine ⟨fun m hm => ?_, Sine.sinval_zero 0, fun draw m hm => ?_⟩
  · exact ⟨Sine.sinval_zero m, Sine.sinval_quarter hm, Sine.sinval_half hm,
      Sine.sinval_threeQuarters hm, Sine.sinval_period hm, fun i => Sine.sinval_half_sub hm,
      fun i h0 hi _ => Sine.sinval_add_half hm h0 hi, fun i _ => Sine.sinval_add_period hm i⟩
  · simp only [Arith.real_sinval]
    exact ⟨Sine.exact_zero m, Sine.exact_quarter hm, Sine.exact_half hm,
      Sine.exact_threeQuarters hm, Sine.exact_period m, fun i => Sine.exact_half_sub hm,
      fun i _ _ => Sine.exact_add_half hm i, fun i _ => Sine.exact_add_period m i,
      Sine.exact_zero 0⟩

/-! ## The twiddle factor -/

section
variable {α : Type} {A : Arith α} {e : Engine α}

/-- In a valid table an entry is its contract value (rule R126). -/
theorem Engine.Inv.sinAt_eq (hi : e.Inv A) (hv : e.sinv = true) {n : ℕ} (hn : n < e.sineLen) :
    e.sinAt A n = A.sinval e.m n := by
  rw [Engine.sinAt, hi.sine_valid hv n hn, Option.getD_some]

theorem Engine.InStage.h_lt_half (h : e.InStage) : e.h < e.len / 2 := by
  have hle := h.h_add_d_le
  have hd := h.one_le_d
  omega

/-- A stage exists only from `M = 2` on (rule R9). -/
theorem Engine.InStage.two_le_m (h : e.InStage) (ha : Params.admitted e.m = true) : 2 ≤ e.m := by
  obtain ⟨s, hs, -⟩ := h
  rcases (Params.admitted_iff e.m).1 ha with h0 | ⟨h2, -⟩
  · omega
  · exact h2

/-- `TWLD` finds the ROM pair of its index (rules R130, R209). -/
theorem Engine.Inv.twld_next_rom (hi : e.Inv A) (hp : e.phase = .twld) :
    ∃ f, e.twld A = .next f ∧ f.rc = A.sinval e.m (e.h + e.quarter) ∧
      f.rs = if e.dir = .inv then A.neg (A.sinval e.m e.h) else A.sinval e.m e.h := by
  obtain ⟨⟨hv, -, -⟩, hs⟩ := (Engine.phaseOk_twld hp).1 hi.phase_ok
  have hcos := hs.h_add_quarter_lt
  refine ⟨_, Engine.twld_next.2 ⟨hcos, rfl⟩, hi.sinAt_eq hv hcos, ?_⟩
  rw [← hi.sinAt_eq hv (lt_of_le_of_lt (Nat.le_add_right _ _) hcos)]
  rfl

end

/-- Settles O24: `Engine.Inv.twld_next_rom` over both number types; over exact reals the ROM pair is
the cosine and the sine. -/
theorem twiddleFactorIsTheRomPair : Obligations.TwiddleFactorIsTheRomPair := by
  refine ⟨fun s hi hp => ?_, fun draw e hi hp => ?_⟩
  · obtain ⟨-, hs⟩ := (Engine.phaseOk_twld hp).1 hi.phase_ok
    obtain ⟨f, hf, hrc, hrs⟩ := hi.twld_next_rom hp
    exact ⟨hs.h_lt_half, hs.h_add_quarter_lt, _, State.microOp_of_next hi.admitted hp hf, hrc, hrs⟩
  · obtain ⟨-, hs⟩ := (Engine.phaseOk_twld hp).1 hi.phase_ok
    have hm := hs.two_le_m hi.admitted
    obtain ⟨f, hf, hrc, hrs⟩ := hi.twld_next_rom hp
    have hlen : (e.len : ℝ) = 2 ^ e.m := by simp [Engine.len, Params.len]
    have hquarter : e.quarter = 2 ^ e.m / 4 := if_pos hm
    refine ⟨f, ?_, ?_, ?_⟩
    · rw [Engine.micro, hp, Engine.selected_eq hi.admitted hp, hf]
    · rw [hrc, hlen, hquarter, Arith.real_sinval, Sine.exact_add_quarter hm]
    · rw [hrs, hlen, Arith.real_sinval, ite_mul, neg_one_mul, one_mul]
      rfl

end Sys2Proof.Machine

/-! PROOFS. The small sine tables (rule R122): a computed sine is near the exact one by the
half-angle formula, both ends of its error round to the entry, and so does everything between. -/
namespace Sys2Proof.Machine

/-! ## Rounding between two numbers -/

/-- A number nearer to `r` than to `w` stays so when it moves away from `w`. -/
theorem abs_sub_le_of_move {r w x y : ℝ} (hy : |r - y| ≤ |w - y|)
    (hmove : 0 ≤ (w - r) * (y - x)) :
    |r - x| ≤ |w - x| ∧ (|r - x| = |w - x| → |r - y| = |w - y|) := by
  rw [← sq_le_sq] at hy
  rw [← sq_le_sq, ← sq_eq_sq_iff_abs_eq_abs, ← sq_eq_sq_iff_abs_eq_abs]
  exact ⟨by linarith, fun heq => by linarith⟩

section
variable {a b x : ℝ} {r : F64}

/-- A value nearest to both ends of an interval is nearest to every number of it. -/
theorem Ieee.NearestEven.of_between (hax : a ≤ x) (hxb : x ≤ b) (ha : Ieee.NearestEven a r)
    (hb : Ieee.NearestEven b r) : Ieee.NearestEven x r := by
  refine ⟨ha.1, fun w hw => ?_⟩
  rcases le_total (Ieee.value w : ℝ) (Ieee.value r) with hle | hge
  · obtain ⟨hnear, htie⟩ := ha.2 w hw
    have hmove := mul_nonneg_of_nonpos_of_nonpos (sub_nonpos.2 hle) (sub_nonpos.2 hax)
    exact (abs_sub_le_of_move hnear hmove).imp_right fun h heq => htie (h heq)
  · obtain ⟨hnear, htie⟩ := hb.2 w hw
    have hmove := mul_nonneg (sub_nonneg.2 hge) (sub_nonneg.2 hxb)
    exact (abs_sub_le_of_move hnear hmove).imp_right fun h heq => htie (h heq)

theorem Ieee.RoundedTo.of_between (h0 : 0 ≤ a) (hax : a ≤ x) (hxb : x ≤ b)
    (ha : Ieee.RoundedTo a r) (hb : Ieee.RoundedTo b r) : Ieee.RoundedTo x r := by
  have hx0 := h0.trans hax
  unfold Ieee.RoundedTo at ha hb ⊢
  rw [abs_of_nonneg h0] at ha
  rw [abs_of_nonneg (hx0.trans hxb)] at hb
  rw [abs_of_nonneg hx0]
  split at hb
  · next hfin =>
    rw [if_pos (hax.trans_lt (hxb.trans_lt hfin))] at ha
    rw [if_pos (hxb.trans_lt hfin)]
    exact ha.of_between hax hxb hb
  · obtain ⟨hinf, hsign⟩ := hb
    have hge : ¬a < 2 ^ 1024 - 2 ^ 970 := by
      intro hlt
      rw [if_pos hlt] at ha
      exact Bool.noConfusion (hinf.symm.trans (Ieee.isInf_of_isFinite ha.1))
    rw [if_neg fun hlt => hge (hax.trans_lt hlt)]
    exact ⟨hinf, hsign.trans (iff_of_false (not_lt.2 (hx0.trans hxb)) (not_lt.2 hx0))⟩

end

/-! ## The exact entries -/

theorem Ieee.roundedTo_zero : Ieee.RoundedTo 0 0#64 := by
  have h := Ieee.roundedTo_round_false 0 0
  rwa [Nat.cast_zero, zero_div, zero_div] at h

theorem Ieee.roundedTo_one : Ieee.RoundedTo 1 0x3FF0000000000000#64 := by
  have hround : Ieee.round false (2 ^ 1074) 0 = 0x3FF0000000000000#64 := by decide +kernel
  have h := Ieee.roundedTo_round_false (2 ^ 1074) 0
  rwa [hround, Nat.cast_pow, Nat.cast_ofNat, pow_zero, div_one, div_self (by positivity)] at h

/-! ## From the first quadrant to the table -/

/-- The entry `i` of the table of `M = m` is the exact sine rounded once. -/
def Sine.Rounded (m i : ℕ) : Prop := Ieee.RoundedTo (Sine.exact m i) (Sine.sinval m i)

section
variable {m : ℕ}

theorem Sine.rounded_of_half (hm : 2 ≤ m) (hquad : ∀ r ≤ 2 ^ m / 4, Sine.Rounded m r) {i : ℕ}
    (hi : i ≤ 2 ^ m / 2) : Sine.Rounded m i := by
  have hhalf := half_eq_two_mul_quarter hm
  rcases Nat.le_total i (2 ^ m / 4) with hle | hge
  · exact hquad i hle
  · have h := hquad (2 ^ m / 2 - i) (by omega)
    rwa [Sine.Rounded, Sine.exact_half_sub hm hi, Sine.sinval_half_sub hm hi] at h

/-- The symmetries of rule R128 carry correct rounding from the first quadrant to the table. -/
theorem Sine.rounded_of_firstQuadrant (hm : 2 ≤ m) (hquad : ∀ r ≤ 2 ^ m / 4, Sine.Rounded m r)
    {i : ℕ} (hi : i < Params.sineLen m) : Sine.Rounded m i := by
  have hhalf := half_eq_two_mul_quarter hm
  have hpow := two_pow_eq_four_mul_quarter hm
  have hlen : Params.sineLen m = 2 ^ m + 2 ^ m / 4 := congrArg (2 ^ m + ·) (if_pos hm)
  rcases Nat.lt_or_ge (2 ^ m / 2) i with hlow | hlow
  · rcases Nat.lt_or_ge i (2 ^ m) with hhigh | hhigh
    · obtain ⟨n, rfl⟩ := Nat.exists_eq_add_of_le' hlow.le
      have h := (Sine.rounded_of_half hm hquad (i := n) (by omega)).neg
      rwa [Sine.Rounded, Sine.exact_add_half hm, Sine.sinval_add_half hm (by omega) (by omega)]
    · obtain ⟨n, rfl⟩ := Nat.exists_eq_add_of_le' hhigh
      have h := hquad n (by omega)
      rwa [Sine.Rounded, Sine.exact_add_period, Sine.sinval_add_period hm]
  · exact Sine.rounded_of_half hm hquad hlow

/-! ## The error of the computed sine -/

/-- `n` is `x` in units of 2^-448, up to eight of them. -/
def Sine.IsFixed (x : ℝ) (n : ℤ) : Prop := |x * 2 ^ 448 - n| ≤ 8

theorem Sine.IsFixed.neg {x : ℝ} {n : ℤ} (h : Sine.IsFixed x n) : Sine.IsFixed (-x) (-n) := by
  rw [Sine.IsFixed, Int.cast_neg, neg_mul, neg_sub_neg, abs_sub_comm]
  exact h

theorem Sine.isFixed_zero : Sine.IsFixed 0 0 := by simp [Sine.IsFixed]

/-- If `k` is the cosine of an angle up to its error, `n` is the sine of half the angle up to its
error: `2 n² = 1 - k`, in units of 2^-448. -/
abbrev Sine.HalfFits (n k : ℤ) : Prop :=
  0 ≤ n ∧ (n - 8) ^ 2 ≤ (2 ^ 448 - (k + 8)) * 2 ^ 447 ∧
    (2 ^ 448 - (k - 8)) * 2 ^ 447 ≤ (n + 8) ^ 2

theorem Sine.IsFixed.half {x c : ℝ} {n k : ℤ} (hc : Sine.IsFixed c k) (hx : 0 ≤ x)
    (hsq : 2 * x ^ 2 = 1 - c) (hhalf : Sine.HalfFits n k) : Sine.IsFixed x n := by
  obtain ⟨hn, hlow, hhigh⟩ := hhalf
  replace hlow := (Int.cast_le (R := ℝ)).2 hlow
  replace hhigh := (Int.cast_le (R := ℝ)).2 hhigh
  simp only [Int.cast_pow, Int.cast_mul, Int.cast_sub, Int.cast_add, Int.cast_ofNat]
    at hlow hhigh
  have hpos : (0 : ℝ) < 2 ^ 447 := by positivity
  have hdouble : (2 : ℝ) ^ 448 = 2 * 2 ^ 447 := pow_succ' 2 447
  have hn' : (0 : ℝ) ≤ n := Int.cast_nonneg hn
  rw [Sine.IsFixed, hdouble] at hc ⊢
  rw [hdouble] at hlow hhigh
  clear hdouble
  generalize (2 : ℝ) ^ 447 = p at *
  obtain ⟨hkl, hkh⟩ := abs_le.1 hc
  have hxx : (x * (2 * p)) ^ 2 = (2 * p - c * (2 * p)) * p := by
    linear_combination 2 * p ^ 2 * hsq
  have hle : (n : ℝ) - 8 ≤ x * (2 * p) := by
    refine le_of_abs_le (abs_le_of_sq_le_sq ?_ (by positivity))
    rw [hxx]
    exact hlow.trans (mul_le_mul_of_nonneg_right (by linarith) hpos.le)
  have hge : x * (2 * p) ≤ n + 8 := by
    refine le_of_abs_le (abs_le_of_sq_le_sq ?_ (by linarith))
    rw [hxx]
    exact le_trans (mul_le_mul_of_nonneg_right (by linarith) hpos.le) hhigh
  exact abs_le.2 ⟨by linarith, by linarith⟩

/-- An entry of the first half of the period from the cosine of twice its angle. -/
theorem Sine.IsFixed.half_exact {m i : ℕ} {n k : ℤ} (hm : 2 ≤ m) (hi : i ≤ 2 ^ m / 2)
    (hc : Sine.IsFixed (Sine.exact m (2 * i + 2 ^ m / 4)) k) (hhalf : Sine.HalfFits n k) :
    Sine.IsFixed (Sine.exact m i) n :=
  hc.half (Sine.exact_nonneg hm hi) (Sine.two_mul_exact_sq hm i) hhalf

/-! ## Rounding the computed sine -/

/-- `n / 2^448` rounded once: 2^-448 is 2^626 units of 2^-1074. -/
theorem Sine.roundedTo_round (n : ℕ) :
    Ieee.RoundedTo ((n : ℝ) / 2 ^ 448) (Ieee.round false (n * 2 ^ (1074 - 448)) 0) := by
  have hscale : (2 : ℝ) ^ 1074 = 2 ^ (1074 - 448) * 2 ^ 448 := by rw [← pow_add]
  have h := Ieee.roundedTo_round_false (n * 2 ^ (1074 - 448)) 0
  rwa [Nat.cast_mul, Nat.cast_pow, Nat.cast_ofNat, pow_zero, div_one, hscale, mul_comm (n : ℝ),
    mul_div_mul_left _ _ (by positivity)] at h

/-- Both ends of the error of `n / 2^448` round to `r`. -/
abbrev Sine.EndsRoundTo (n : ℕ) (r : F64) : Prop :=
  8 ≤ n ∧ Ieee.round false ((n - 8) * 2 ^ (1074 - 448)) 0 = r ∧
    Ieee.round false ((n + 8) * 2 ^ (1074 - 448)) 0 = r

/-- An error that cannot cross the middle of two values leaves the rounding as it is. -/
theorem Sine.IsFixed.roundedTo {x : ℝ} {n : ℕ} {r : F64} (h : Sine.IsFixed x n)
    (hends : Sine.EndsRoundTo n r) : Ieee.RoundedTo x r := by
  obtain ⟨hn, hlow, hhigh⟩ := hends
  have hl := Sine.roundedTo_round (n - 8)
  have hh := Sine.roundedTo_round (n + 8)
  rw [hlow, Nat.cast_sub hn, Nat.cast_ofNat] at hl
  rw [hhigh, Nat.cast_add, Nat.cast_ofNat] at hh
  obtain ⟨hxl, hxh⟩ := abs_le.1 h
  rw [Int.cast_natCast] at hxl hxh
  have hn' : (8 : ℝ) ≤ n := by exact_mod_cast hn
  have hpos : (0 : ℝ) < 2 ^ 448 := by positivity
  generalize (2 : ℝ) ^ 448 = p at *
  refine Ieee.RoundedTo.of_between (div_nonneg (sub_nonneg.2 hn') hpos.le) ?_ ?_ hl hh
  · rw [div_le_iff₀ hpos]
    linarith
  · rw [le_div_iff₀ hpos]
    linarith

/-! ## The tables of `M` = 2, 3 and 4 -/

/-- An eighth of a period: the cosine of twice the angle is 0. -/
theorem Sine.isFixed_eighth : Sine.IsFixed (Sine.exact 3 1) (Sine.fixed 3 1) := by
  have hc : Sine.exact 3 (2 * 1 + 2 ^ 3 / 4) = 0 := Sine.exact_half (by decide)
  refine Sine.IsFixed.half_exact (k := 0) (by decide) (by decide) ?_ (by decide +kernel)
  rw [hc]
  exact Sine.isFixed_zero

/-- A sixteenth of a period: the cosine of twice the angle is the sine of an eighth. -/
theorem Sine.isFixed_sixteenth : Sine.IsFixed (Sine.exact 4 1) (Sine.fixed 4 1) := by
  have hc : Sine.exact 4 (2 * 1 + 2 ^ 4 / 4) = Sine.exact 3 1 :=
    (Sine.exact_half_sub (m := 4) (i := 2) (by decide) (by decide)).trans
      (Sine.exact_succ_double 3 1)
  refine Sine.IsFixed.half_exact (k := Sine.fixed 3 1) (by decide) (by decide) ?_
    (by decide +kernel)
  rw [hc]
  exact Sine.isFixed_eighth

/-- Three sixteenths: the cosine of twice the angle is the sine of an eighth, negated. -/
theorem Sine.isFixed_threeSixteenths : Sine.IsFixed (Sine.exact 4 3) (Sine.fixed 4 3) := by
  have hc : Sine.exact 4 (2 * 3 + 2 ^ 4 / 4) = -Sine.exact 3 1 :=
    (Sine.exact_add_half (m := 4) (by decide) 2).trans
      (congrArg Neg.neg (Sine.exact_succ_double 3 1))
  refine Sine.IsFixed.half_exact (k := -Sine.fixed 3 1) (by decide) (by decide) ?_
    (by decide +kernel)
  rw [hc]
  exact Sine.isFixed_eighth.neg

theorem Sine.fixed_succ_double (m r : ℕ) : Sine.fixed (m + 1) (2 * r) = Sine.fixed m r := by
  have hx : 2 * (2 * r) * Sine.piFixed / 2 ^ (m + 1) = 2 * r * Sine.piFixed / 2 ^ m := by
    rw [pow_succ', Nat.mul_assoc, Nat.mul_assoc, Nat.mul_div_mul_left _ _ two_pos]
  rw [Sine.fixed, hx, Sine.fixed]

/-- Two sixteenths are an eighth. -/
theorem Sine.isFixed_twoSixteenths : Sine.IsFixed (Sine.exact 4 2) (Sine.fixed 4 2) := by
  rw [Sine.exact_succ_double 3 1, Sine.fixed_succ_double 3 1]
  exact Sine.isFixed_eighth

theorem Sine.rounded_zero (m : ℕ) : Sine.Rounded m 0 := by
  rw [Sine.Rounded, Sine.exact_zero, Sine.sinval_zero]
  exact Ieee.roundedTo_zero

theorem Sine.rounded_quarter (hm : 2 ≤ m) : Sine.Rounded m (2 ^ m / 4) := by
  rw [Sine.Rounded, Sine.exact_quarter hm, Sine.sinval_quarter hm]
  exact Ieee.roundedTo_one

/-- An entry inside the first quadrant is its computed sine, rounded once. -/
theorem Sine.rounded_of_isFixed (hm : 2 ≤ m) {r : ℕ} (h0 : 0 < r) (hr : r < 2 ^ m / 4)
    (h : Sine.IsFixed (Sine.exact m r) (Sine.fixed m r))
    (hends : Sine.EndsRoundTo (Sine.fixed m r) (Sine.firstQuadrant false m r)) :
    Sine.Rounded m r := by
  rw [Sine.Rounded, Sine.sinval_of_lt_quarter hm h0 hr]
  exact h.roundedTo hends

theorem Sine.rounded_firstQuadrant_two {r : ℕ} (hr : r ≤ 2 ^ 2 / 4) : Sine.Rounded 2 r := by
  interval_cases r
  · exact Sine.rounded_zero 2
  · exact Sine.rounded_quarter (m := 2) (by decide)

theorem Sine.rounded_firstQuadrant_three {r : ℕ} (hr : r ≤ 2 ^ 3 / 4) : Sine.Rounded 3 r := by
  interval_cases r
  · exact Sine.rounded_zero 3
  · exact Sine.rounded_of_isFixed (by decide) (by decide) (by decide) Sine.isFixed_eighth
      (by decide +kernel)
  · exact Sine.rounded_quarter (m := 3) (by decide)

theorem Sine.rounded_firstQuadrant_four {r : ℕ} (hr : r ≤ 2 ^ 4 / 4) : Sine.Rounded 4 r := by
  interval_cases r
  · exact Sine.rounded_zero 4
  · exact Sine.rounded_of_isFixed (by decide) (by decide) (by decide) Sine.isFixed_sixteenth
      (by decide +kernel)
  · exact Sine.rounded_of_isFixed (by decide) (by decide) (by decide) Sine.isFixed_twoSixteenths
      (by decide +kernel)
  · exact Sine.rounded_of_isFixed (by decide) (by decide) (by decide) Sine.isFixed_threeSixteenths
      (by decide +kernel)
  · exact Sine.rounded_quarter (m := 4) (by decide)

end

/-- Settles O46: the entries of the first quadrant carry the table by the symmetries of O45; the
table of `M = 0` is one zero. -/
theorem smallSineTablesAreCorrectlyRounded : Obligations.SmallSineTablesAreCorrectlyRounded := by
  rintro m (rfl | rfl | rfl | rfl) i hi
  · obtain rfl : i = 0 := Nat.lt_one_iff.1 hi
    exact Sine.rounded_zero 0
  · exact Sine.rounded_of_firstQuadrant (by decide) (fun _ => Sine.rounded_firstQuadrant_two) hi
  · exact Sine.rounded_of_firstQuadrant (by decide) (fun _ => Sine.rounded_firstQuadrant_three) hi
  · exact Sine.rounded_of_firstQuadrant (by decide) (fun _ => Sine.rounded_firstQuadrant_four) hi

end Sys2Proof.Machine

/-! PROOFS. The reversed increment from any accumulator, and the step of `BRVS` that uses it (rules
R142 to R145, R149). -/
namespace Sys2Proof.Machine

/-- Each probe fits into an accumulator of all bits one, and what is left is all bits one again, so
the loop comes to a probe of 0 (rule R149). -/
theorem brAdvance_last (m fuel : Nat) : brAdvance fuel (2 ^ m - 1) (2 ^ m / 2) = none := by
  induction fuel generalizing m with
  | zero => rfl
  | succ fuel ih =>
    cases m with
    | zero => rfl
    | succ m =>
      have hpos : 0 < 2 ^ m := Nat.two_pow_pos m
      have hprobe : 2 ^ (m + 1) / 2 = 2 ^ m := by omega
      have hfits : 2 ^ m ≤ 2 ^ (m + 1) - 1 := by omega
      have hleft : 2 ^ (m + 1) - 1 - 2 ^ m = 2 ^ m - 1 := by omega
      rw [hprobe, brAdvance, if_neg hpos.ne', if_pos hfits, hleft, ih m]

/-- Settles O20: below the last index the loop is `brAdvance_rev` with just `m` tests left. -/
theorem brNextIsTheReversedIncrement : Obligations.BrNextIsTheReversedIncrement := by
  refine ⟨fun m i hi => ?_, brAdvance_last⟩
  obtain ⟨k, hk, hloop⟩ := brAdvance_rev hi
  exact ⟨k, hk, hloop m le_rfl, hloop (m + 1) (Nat.le_succ m)⟩

/-- Only the last accumulator is the reversal of the last index. -/
theorem rev_add_one_lt {m j : Nat} (h : j + 1 < 2 ^ m) : rev m j + 1 < 2 ^ m := by
  have hne : rev m j ≠ 2 ^ m - 1 := by
    intro hlast
    have hj : j = 2 ^ m - 1 := by rw [← rev_rev (Nat.lt_of_succ_lt h), hlast, rev_last]
    omega
  have hlt := rev_lt m j
  omega

/-- The law of rule R143 read from the accumulator, whose index is its own reversal. -/
theorem brNext_of_add_one_lt {m j : Nat} (h : j + 1 < 2 ^ m) :
    ∃ k, brNext m j = some (rev m (rev m j + 1), k) := by
  obtain ⟨k, -, hnext⟩ := brNext_rev (rev_add_one_lt h)
  rw [rev_rev (Nat.lt_of_succ_lt h)] at hnext
  exact ⟨k, hnext⟩

/-- Settles O19: the two cases of `Engine.brvs_next`, with `Cells.read_write` for the table. -/
theorem brvsRecordsAndAdvances : Obligations.BrvsRecordsAndAdvances := by
  intro s ha hp hbi
  constructor
  · intro hlast
    have hstep := State.microOp_of_next ha hp (Engine.brvs_next.2 ⟨hbi, .inl ⟨hlast, rfl⟩⟩)
    exact ⟨_, hstep, fun a => Cells.read_write _ _ a _⟩
  · intro hmore hbj
    obtain ⟨bk, hnext⟩ := brNext_of_add_one_lt hbj
    have hstep := State.microOp_of_next ha hp
      (Engine.brvs_next.2 ⟨hbi, .inr ⟨hmore.ne, _, bk, hnext, rfl⟩⟩)
    exact ⟨_, bk, hnext, hstep, fun a => Cells.read_write _ _ a _⟩

end Sys2Proof.Machine

/-! PROOFS. The commands and micro-operations of the transform one by one: how `XFORM` starts, what
`PERM`, `TWLD`, `BFLY` and `NORM` do to the engine, the transition table, and that no running command
stops (rules R160 to R173, R245). -/
namespace Sys2Proof.Machine

/-! ## A running command -/

section
variable {α : Type} {A : Arith α} {e f : Engine α}

theorem Phase.ne_halt_of_busy {p : Phase} (h : p.busy = true) : p ≠ .halt := by
  rintro rfl
  cases h

theorem Engine.enterStage_phase_ne_halt (e : Engine α) (kn : Nat) :
    (e.enterStage kn).phase ≠ .halt := by
  rcases e.enterStage_cases kn with ⟨-, h⟩ | ⟨-, -, h⟩ | ⟨-, -, h⟩ <;> simp [h]

theorem Engine.sinw_phase_ne_halt (hp : e.phase = .sinb) (h : e.sinw A = .next f) :
    f.phase ≠ .halt := by
  obtain ⟨-, rfl⟩ := Engine.sinw_next.1 h
  dsimp only
  split <;> simp [hp]

theorem Engine.brvs_phase_ne_halt (hp : e.phase = .brvb) (h : e.brvs = .next f) :
    f.phase ≠ .halt := by
  obtain ⟨-, ⟨-, rfl⟩ | ⟨-, bj, bk, -, rfl⟩⟩ := Engine.brvs_next.1 h <;> simp [hp]

theorem Engine.perm_phase_ne_halt (hp : e.phase = .perm) (h : e.perm A = .next f) :
    f.phase ≠ .halt := by
  obtain ⟨-, rfl⟩ := Engine.perm_next.1 h
  split
  · exact Engine.enterStage_phase_ne_halt _ 1
  · simp [hp]

theorem Engine.twld_phase (h : e.twld A = .next f) : f.phase = .bfly := by
  obtain ⟨-, rfl⟩ := Engine.twld_next.1 h
  rfl

theorem Engine.bfly_phase_ne_halt (hp : e.phase = .bfly) (h : e.bfly A = .next f) :
    f.phase ≠ .halt := by
  obtain ⟨-, rfl⟩ := Engine.bfly_next.1 h
  split
  · simp [hp]
  · split
    · simp
    · exact Engine.enterStage_phase_ne_halt _ e.k2

theorem Engine.norm_phase_ne_halt (hp : e.phase = .norm) (h : e.norm A = .next f) :
    f.phase ≠ .halt := by
  obtain ⟨-, rfl⟩ := Engine.norm_next.1 h
  split <;> simp [hp]

/-- No row of the transition table leads to `HALT` (rule R173). -/
theorem Engine.micro_phase_ne_halt (ha : Params.admitted e.m = true) (hb : e.phase.busy = true)
    (h : e.micro A = .next f) : f.phase ≠ .halt := by
  rcases Engine.micro_cases A ha hb with
    ⟨hp, hm⟩ | ⟨hp, hm⟩ | ⟨hp, hm⟩ | ⟨hp, hm⟩ | ⟨hp, hm⟩ | ⟨hp, hm⟩ <;> rw [hm] at h
  · exact Engine.sinw_phase_ne_halt hp h
  · exact Engine.brvs_phase_ne_halt hp h
  · exact Engine.perm_phase_ne_halt hp h
  · simp [Engine.twld_phase h]
  · exact Engine.bfly_phase_ne_halt hp h
  · exact Engine.norm_phase_ne_halt hp h

end

theorem step_phase_ne_halt_of_busy {s t : State} (hb : s.phase.busy = true)
    (h : step s = .next t) : t.phase ≠ .halt := by
  obtain ⟨ha, -⟩ := step_next.1 h
  rw [step_eq_micro ha hb] at h
  obtain ⟨e, he, rfl⟩ := State.withEngine_next.1 h
  exact Engine.micro_phase_ne_halt ha hb he

/-- Settles O11: the step is the micro-operation of the engine, which answers and records no
fault. -/
theorem runningCommandsNeverStop : Obligations.RunningCommandsNeverStop := by
  intro s hi hb
  obtain ⟨f, hf, -, herr, -, -⟩ := Engine.micro_advances hi hb
  have hstep : step s = .next { s with toEngine := f } := by
    rw [step_eq_micro hi.admitted hb, hf]
    rfl
  exact ⟨_, hstep, herr.trans (hi.err_eq_none (Phase.ne_halt_of_busy hb)),
    step_phase_ne_halt_of_busy hb hstep, rfl, rfl⟩

/-! ## The start of a transform -/

section
variable {α : Type} {e : Engine α}

theorem Engine.populated_iff_read :
    e.populated = true ↔
      ∀ i < e.len, (∃ v, e.x.read i = some v) ∧ ∃ v, e.y.read i = some v := by
  rw [Engine.populated_iff, Cells.populated_iff, Cells.populated_iff]
  exact ⟨fun ⟨hx, hy⟩ i hi => ⟨hx i hi, hy i hi⟩,
    fun h => ⟨fun i hi => (h i hi).1, fun i hi => (h i hi).2⟩⟩

theorem Engine.populated_eq_false {i : Nat} (hi : i < e.len)
    (h : e.x.read i = none ∨ e.y.read i = none) : e.populated = false := by
  refine Bool.eq_false_of_not_eq_true fun hpop => ?_
  obtain ⟨⟨vx, hx⟩, vy, hy⟩ := Engine.populated_iff_read.1 hpop i hi
  rw [hx, hy] at h
  simp at h

theorem Engine.startXform_of_ready (dir : Direction) (hr : e.Ready) :
    e.startXform dir = .next { e with dir := dir, i := 0, phase := .perm } := by
  obtain ⟨hs, hb, hpop⟩ := hr
  exact Engine.startXform_next.2 (.inr ⟨hs, hb, hpop, rfl⟩)

theorem Engine.startXform_of_unpopulated (dir : Direction) (hs : e.sinv = true)
    (hb : e.brv = true) (hpop : e.populated = false) :
    e.startXform dir = .refused .unpopulatedBuffer := by
  simp [Engine.startXform, hs, hb, hpop]

end

section
variable {s t : State} (dir : Direction)

/-- The start of an `XFORM` on a machine (rule R162); the reply is the model's own (log entry 27). -/
theorem State.hostWrite_startXform_of_ready (ha : Params.admitted s.m = true)
    (hp : s.phase = .idle) (hr : s.Ready) :
    s.hostWrite (Engine.startXform dir) =
      .next { s with dir := dir, i := 0, phase := .perm, reply := .nothing } := by
  rw [State.hostWrite_idle ha hp, Engine.startXform_of_ready dir hr]
  rfl

theorem State.hostWrite_startXform_of_unpopulated (ha : Params.admitted s.m = true)
    (hp : s.phase = .idle) (hs : s.sinv = true) (hb : s.brv = true) (hpop : s.populated = false) :
    s.hostWrite (Engine.startXform dir) = .refused .unpopulatedBuffer := by
  rw [State.hostWrite_idle ha hp, Engine.startXform_of_unpopulated dir hs hb hpop]
  rfl

/-- The first two rows of the transition table (rule R173). -/
theorem State.startXform_row {dir : Direction} (hp : s.phase = .idle) (hr : s.Ready)
    (h : s.hostWrite (Engine.startXform dir) = .next t) :
    t.phase = .perm ∧ t.dir = dir ∧ t.i = 0 := by
  obtain ⟨ha, -⟩ := State.hostWrite_next.1 h
  rw [State.hostWrite_startXform_of_ready dir ha hp hr] at h
  cases h
  exact ⟨rfl, rfl, rfl⟩

end

/-- Settles O15: the start check passes for both directions. -/
theorem xformStartsWhenReady : Obligations.XformStartsWhenReady := by
  intro s ha hp hs hb hread
  have hr : s.Ready := ⟨hs, hb, Engine.populated_iff_read.2 hread⟩
  exact ⟨⟨_, State.hostWrite_startXform_of_ready .fwd ha hp hr, rfl, rfl⟩,
    ⟨_, State.hostWrite_startXform_of_ready .inv ha hp hr, rfl, rfl⟩⟩

/-- Settles O17: one missing element of either buffer fails the start check. -/
theorem xformOnUnpopulatedBufferIsRefused : Obligations.XformOnUnpopulatedBufferIsRefused := by
  rintro s ha hp hs hb ⟨i, hi, hnone⟩
  have hpop := Engine.populated_eq_false hi hnone
  exact ⟨State.hostWrite_startXform_of_unpopulated .fwd ha hp hs hb hpop,
    State.hostWrite_startXform_of_unpopulated .inv ha hp hs hb hpop⟩

/-! ## One micro-operation -/

section
variable {α : Type} (c : Cells α)

theorem Cells.read_write_write (i j : Nat) (u v : α) (a : Nat) :
    ((c.write j u).write i v).read a =
      if a = i then some v else if a = j then some u else c.read a := by
  rw [Cells.read_write, Cells.read_write]

/-- The conditional swap of rule R165 as later reads see it. -/
theorem Cells.read_ite_write_write (p : Prop) [Decidable p] (i t : Nat) (u v : α) (a : Nat) :
    (if p then (c.write i u).write t v else c).read a =
      if p then if a = t then some v else if a = i then some u else c.read a else c.read a := by
  rw [apply_ite (Cells.read · a), Cells.read_write_write]

end

/-- Settles O22: `Engine.perm_next` gives the next engine, `Cells.read_ite_write_write` its
buffers. -/
theorem permSwapsWhenSmaller : Obligations.PermSwapsWhenSmaller := by
  intro s ha hp hi t xi xk yi yk
  have hstep := State.microOp_of_next ha hp (Engine.perm_next (A := Arith.binary64).2 ⟨hi, rfl⟩)
  exact ⟨s.revAt_lt_len s.i, _, _, hstep, Cells.read_ite_write_write _ _ _ _ _ _,
    Cells.read_ite_write_write _ _ _ _ _ _⟩

/-- Settles O23: `Engine.twld_next` gives the next engine. -/
theorem twldLoadsTheTwiddleFactor : Obligations.TwldLoadsTheTwiddleFactor := fun _ ha hp hh =>
  State.microOp_of_next ha hp (Engine.twld_next (A := Arith.binary64).2 ⟨hh, rfl⟩)

/-- Settles O25: `Engine.bfly_next` gives the next engine, `Cells.read_write_write` its buffers. -/
theorem bflyComputesOneButterfly : Obligations.BflyComputesOneButterfly := by
  intro s ha hp hik ik nan xk yk xi yi dx dy
  have hstep := State.microOp_of_next ha hp (Engine.bfly_next (A := Arith.binary64).2 ⟨hik, rfl⟩)
  exact ⟨_, _, hstep, Cells.read_write_write _ _ _ _ _, Cells.read_write_write _ _ _ _ _⟩

section
variable {α : Type} {A : Arith α} {e : Engine α}

theorem Engine.norm_of_lt (hp : e.phase = .norm) (hi : e.i < e.len) :
    e.norm A = .next { e.normWork A e.i with
      i := e.i + 1
      phase := if e.i + 1 = e.len then .idle else .norm } := by
  refine Engine.norm_next.2 ⟨hi, ?_⟩
  rw [← hp]
  split <;> rfl

end

/-- Settles O26: `Engine.norm_of_lt` gives the next engine, `Cells.read_write` its buffers. -/
theorem normDividesOneIndex : Obligations.NormDividesOneIndex := by
  intro s ha hp hi
  have hstep := State.microOp_of_next ha hp (Engine.norm_of_lt (A := Arith.binary64) hp hi)
  exact ⟨_, _, hstep, fun a => Cells.read_write _ _ a _, fun a => Cells.read_write _ _ a _⟩

/-! ## The transition table -/

section
variable {α : Type} {A : Arith α} {e f : Engine α}

theorem Engine.perm_dir (h : e.perm A = .next f) : f.dir = e.dir := by
  obtain ⟨-, rfl⟩ := Engine.perm_next.1 h
  split
  · exact Engine.enterStage_dir _ 1
  · rfl

/-- The next index of the permute phase. -/
theorem Engine.perm_row_index (hp : e.phase = .perm) (h : e.perm A = .next f)
    (hin : e.i + 1 < e.len) : f.phase = .perm ∧ f.i = e.i + 1 := by
  obtain ⟨-, rfl⟩ := Engine.perm_next.1 h
  rw [if_neg hin.ne]
  exact ⟨hp, rfl⟩

/-- The engine after the last index of the permute phase, before the first stage is entered. -/
def Engine.afterPermute (A : Arith α) (e : Engine α) : Engine α :=
  { e.permWork A e.i with i := e.i + 1 }

theorem Engine.perm_of_last (h : e.perm A = .next f) (hlast : e.i + 1 = e.len) :
    f = (e.afterPermute A).enterStage 1 := by
  obtain ⟨-, rfl⟩ := Engine.perm_next.1 h
  exact if_pos hlast

theorem Engine.perm_row_stage (h : e.perm A = .next f) (hlast : e.i + 1 = e.len)
    (hlt : 1 < e.len) :
    f.phase = .twld ∧ f.k = 1 ∧ f.k2 = 2 ∧ f.d = e.len / 2 ∧ f.j = 0 ∧ f.h = 0 := by
  obtain rfl := Engine.perm_of_last h hlast
  rw [Engine.enterStage_of_lt (e := e.afterPermute A) hlt]
  exact ⟨rfl, rfl, rfl, rfl, rfl, rfl⟩

theorem Engine.perm_row_norm (h : e.perm A = .next f) (hlast : e.i + 1 = e.len)
    (hone : e.len = 1) (hd : e.dir = .fwd) : f.phase = .norm ∧ f.k = 1 ∧ f.i = 0 := by
  obtain rfl := Engine.perm_of_last h hlast
  rw [Engine.enterStage_fwd (e := e.afterPermute A) hone.not_gt hd]
  exact ⟨rfl, rfl, rfl⟩

theorem Engine.perm_row_idle (h : e.perm A = .next f) (hlast : e.i + 1 = e.len)
    (hone : e.len = 1) (hd : e.dir = .inv) : f.phase = .idle ∧ f.k = 1 := by
  have hne : e.dir ≠ .fwd := by simp [hd]
  obtain rfl := Engine.perm_of_last h hlast
  rw [Engine.enterStage_inv (e := e.afterPermute A) hone.not_gt hne]
  exact ⟨rfl, rfl⟩

theorem Engine.twld_row (h : e.twld A = .next f) :
    f.phase = .bfly ∧ f.i = e.j ∧ f.dir = e.dir ∧ f.k = e.k ∧ f.k2 = e.k2 ∧ f.d = e.d ∧
      f.j = e.j ∧ f.h = e.h := by
  obtain ⟨-, rfl⟩ := Engine.twld_next.1 h
  exact ⟨rfl, rfl, rfl, rfl, rfl, rfl, rfl, rfl⟩

/-- The next butterfly of the group. -/
theorem Engine.bfly_row_butterfly (hp : e.phase = .bfly) (h : e.bfly A = .next f)
    (hin : e.i + e.k2 < e.len) :
    f.phase = .bfly ∧ f.i = e.i + e.k2 ∧ f.j = e.j ∧ f.h = e.h ∧ f.k = e.k ∧ f.k2 = e.k2 ∧
      f.d = e.d := by
  obtain ⟨-, rfl⟩ := Engine.bfly_next.1 h
  rw [if_pos hin]
  exact ⟨hp, rfl, rfl, rfl, rfl, rfl, rfl⟩

/-- The next group of the stage. -/
theorem Engine.bfly_row_group (h : e.bfly A = .next f) (hout : e.len ≤ e.i + e.k2)
    (hj : e.j + 1 < e.k) :
    f.phase = .twld ∧ f.i = e.i + e.k2 ∧ f.h = e.h + e.d ∧ f.j = e.j + 1 ∧ f.k = e.k ∧
      f.k2 = e.k2 ∧ f.d = e.d := by
  obtain ⟨-, rfl⟩ := Engine.bfly_next.1 h
  rw [if_neg hout.not_gt, if_pos hj]
  exact ⟨rfl, rfl, rfl, rfl, rfl, rfl, rfl⟩

/-- After the last butterfly of a stage the next one is entered. -/
theorem Engine.bfly_of_last (h : e.bfly A = .next f) (hout : e.len ≤ e.i + e.k2)
    (hj : e.j + 1 = e.k) : f = (e.afterGroup A).enterStage e.k2 := by
  obtain ⟨-, rfl⟩ := Engine.bfly_next.1 h
  rw [if_neg hout.not_gt, if_neg hj.not_lt]

theorem Engine.bfly_dir (h : e.bfly A = .next f) : f.dir = e.dir := by
  obtain ⟨-, rfl⟩ := Engine.bfly_next.1 h
  split
  · rfl
  · split
    · rfl
    · exact Engine.enterStage_dir (e.afterGroup A) e.k2

theorem Engine.bfly_row_stage (h : e.bfly A = .next f) (hout : e.len ≤ e.i + e.k2)
    (hj : e.j + 1 = e.k) (hlt : e.k2 < e.len) :
    f.phase = .twld ∧ f.k = e.k2 ∧ f.k2 = 2 * e.k2 ∧ f.d = e.len / f.k2 ∧ f.j = 0 ∧ f.h = 0 := by
  obtain rfl := Engine.bfly_of_last h hout hj
  rw [Engine.enterStage_of_lt (e := e.afterGroup A) hlt]
  exact ⟨rfl, rfl, rfl, rfl, rfl, rfl⟩

theorem Engine.bfly_row_norm (h : e.bfly A = .next f) (hout : e.len ≤ e.i + e.k2)
    (hj : e.j + 1 = e.k) (hlen : e.k2 = e.len) (hd : e.dir = .fwd) :
    f.phase = .norm ∧ f.k = e.len ∧ f.i = 0 := by
  obtain rfl := Engine.bfly_of_last h hout hj
  rw [Engine.enterStage_fwd (e := e.afterGroup A) hlen.not_lt hd]
  exact ⟨rfl, hlen, rfl⟩

theorem Engine.bfly_row_idle (h : e.bfly A = .next f) (hout : e.len ≤ e.i + e.k2)
    (hj : e.j + 1 = e.k) (hlen : e.k2 = e.len) (hd : e.dir = .inv) :
    f.phase = .idle ∧ f.k = e.len := by
  have hne : e.dir ≠ .fwd := by simp [hd]
  obtain rfl := Engine.bfly_of_last h hout hj
  rw [Engine.enterStage_inv (e := e.afterGroup A) hlen.not_lt hne]
  exact ⟨rfl, hlen⟩

theorem Engine.norm_rows (hp : e.phase = .norm) (h : e.norm A = .next f) :
    (e.i + 1 < e.len → f.phase = .norm ∧ f.i = e.i + 1) ∧
      (e.i + 1 = e.len → f.phase = .idle ∧ f.i = e.len) := by
  obtain ⟨-, rfl⟩ := Engine.norm_next.1 h
  refine ⟨fun hlt => ?_, fun heq => ?_⟩
  · rw [if_neg hlt.ne]
    exact ⟨hp, rfl⟩
  · rw [if_pos heq]
    exact ⟨rfl, heq⟩

/-! Exactly one row applies in every state of the invariant. -/

theorem Engine.transitionRows_perm (hp : e.phase = .perm) (hi : e.i < e.len) :
    e.transitionRows.count true = 1 := by
  have hnext : e.i + 1 ≤ e.len := hi
  have hlen : 1 ≤ e.len := e.len_pos
  simp only [Engine.transitionRows, hp]
  rcases hnext.lt_or_eq with hlt | heq
  · simp [hlt, hlt.ne]
  · rcases hlen.lt_or_eq with hone | hone
    · simp [heq, hone, hone.ne']
    · cases hd : e.dir <;> simp [heq, ← hone]

theorem Engine.transitionRows_bfly (hp : e.phase = .bfly) (hs : e.InStage) :
    e.transitionRows.count true = 1 := by
  have hnext : e.j + 1 ≤ e.k := hs.j_lt_k
  simp only [Engine.transitionRows, hp]
  rcases Nat.lt_or_ge (e.i + e.k2) e.len with hin | hout
  · simp [hin, hin.not_ge]
  · rcases hnext.lt_or_eq with hj | hj
    · simp [hout, hout.not_gt, hj, hj.ne]
    · rcases hs.k2_le_len.lt_or_eq with hk | hk
      · simp [hout, hout.not_gt, hj, hk, hk.ne]
      · cases hd : e.dir <;> simp [hj, hk]

theorem Engine.transitionRows_norm (hp : e.phase = .norm) (hi : e.i < e.len) :
    e.transitionRows.count true = 1 := by
  have hnext : e.i + 1 ≤ e.len := hi
  simp only [Engine.transitionRows, hp]
  rcases hnext.lt_or_eq with hlt | heq
  · simp [hlt, hlt.ne]
  · simp [heq]

theorem Engine.Inv.transitionRows_count (hi : e.Inv A)
    (hp : e.phase = .perm ∨ e.phase = .twld ∨ e.phase = .bfly ∨ e.phase = .norm) :
    e.transitionRows.count true = 1 := by
  rcases hp with hp | hp | hp | hp
  · obtain ⟨-, hlt⟩ := (Engine.phaseOk_perm hp).1 hi.phase_ok
    exact Engine.transitionRows_perm hp hlt
  · simp [Engine.transitionRows, hp]
  · obtain ⟨-, hs, -⟩ := (Engine.phaseOk_bfly hp).1 hi.phase_ok
    exact Engine.transitionRows_bfly hp hs
  · obtain ⟨-, hlt, -⟩ := (Engine.phaseOk_norm hp).1 hi.phase_ok
    exact Engine.transitionRows_norm hp hlt

end

/-- Settles O27: the rows of each phase are read off what its micro-operation can do; the conditions
of a phase's rows exclude each other and leave no case. -/
theorem sequencerFollowsTheTransitionTable : Obligations.SequencerFollowsTheTransitionTable := by
  intro s t
  refine ⟨State.startXform_row, State.startXform_row, fun hp h => ?_, fun _ h => ?_, fun hp h => ?_,
    fun hp h => ?_, Engine.Inv.transitionRows_count, step_phase_ne_halt_of_busy⟩ <;>
    replace h := (State.microOp_engine h).2
  · exact ⟨Engine.perm_dir h, Engine.perm_row_index hp h, Engine.perm_row_stage h,
      Engine.perm_row_norm h, Engine.perm_row_idle h⟩
  · exact Engine.twld_row h
  · exact ⟨Engine.bfly_dir h, Engine.bfly_row_butterfly hp h, Engine.bfly_row_group h,
      Engine.bfly_row_stage h, Engine.bfly_row_norm h, Engine.bfly_row_idle h⟩
  · exact Engine.norm_rows hp h

end Sys2Proof.Machine

/-! PROOFS. The permute phase as a permutation of the buffers (rule R163), and the transform of one
sample (rule R175). -/
namespace Sys2Proof.Machine

/-! ## The permute phase -/

/-- A loop with an invariant that knows the index. -/
theorem forFrom_induct_index {σ : Type} {n : Nat} {body : Nat → σ → σ} {P : Nat → σ → Prop}
    (hbody : ∀ i < n, ∀ s, P i s → P (i + 1) (body i s)) {a : Nat} (ha : a ≤ n) {s : σ}
    (h0 : P a s) : P n (forFrom a n body s) := by
  induction hk : n - a generalizing a s with
  | zero =>
    obtain rfl : a = n := by omega
    rwa [forFrom_of_le le_rfl]
  | succ k ih =>
    have hlt : a < n := by omega
    rw [forFrom_of_lt hlt]
    exact ih hlt (hbody a hlt s h0) (by omega)

/-- The buffer when the indices below `a` are done: a pair is in place once its smaller index is
done (rule R163). -/
def Cells.PermutedBelow {α : Type} (m a : Nat) (c0 c : Cells α) : Prop :=
  ∀ i < 2 ^ m, c.read i = if i < a ∨ rev m i < a then c0.read (rev m i) else c0.read i

section
variable {α : Type} {m a i : Nat} {c0 c c' : Cells α}

theorem Cells.permutedBelow_zero (m : Nat) (c : Cells α) : c.PermutedBelow m 0 c := fun _ _ => by
  simp

theorem Cells.PermutedBelow.read_of_done (h : c0.PermutedBelow m a c) (hi : i < 2 ^ m)
    (hd : i < a ∨ rev m i < a) : c.read i = c0.read (rev m i) := by
  rw [h i hi, if_pos hd]

theorem Cells.PermutedBelow.read_of_left (h : c0.PermutedBelow m a c) (hi : i < 2 ^ m)
    (hl : a ≤ i) (hr : a ≤ rev m i) : c.read i = c0.read i := by
  rw [h i hi, if_neg (by omega)]

/-- An index puts its own pair in place and leaves the others. -/
theorem Cells.PermutedBelow.succ (h : c0.PermutedBelow m a c) (ha : a < 2 ^ m)
    (hself : c'.read a = c0.read (rev m a)) (hpair : c'.read (rev m a) = c0.read a)
    (hother : ∀ i, i ≠ a → i ≠ rev m a → c'.read i = c.read i) :
    c0.PermutedBelow m (a + 1) c' := by
  intro i hi
  by_cases hia : i = a
  · rw [hia, if_pos (.inl (Nat.lt_succ_self a)), hself]
  · by_cases hir : i = rev m a
    · rw [hir, rev_rev ha, if_pos (.inr (Nat.lt_succ_self a)), hpair]
    · have hri : rev m i ≠ a := by
        rintro rfl
        exact hir (rev_rev hi).symm
      have hsame : i < a + 1 ∨ rev m i < a + 1 ↔ i < a ∨ rev m i < a := by omega
      rw [hother i hia hir, h i hi]
      simp only [hsame]

/-- The conditional swap of rule R165: the pair of an index that is the larger one is in place
already. -/
theorem Cells.PermutedBelow.swap (h : c0.PermutedBelow m a c) (ha : a < 2 ^ m)
    (hread : ∀ i, c'.read i =
      if a < rev m a then
        if i = rev m a then c.read a else if i = a then c.read (rev m a) else c.read i
      else c.read i) :
    c0.PermutedBelow m (a + 1) c' := by
  have hrev := rev_rev ha
  have hra := rev_lt m a
  rcases Nat.lt_trichotomy a (rev m a) with hlt | heq | hgt
  · simp only [if_pos hlt] at hread
    refine h.succ ha ?_ ?_ fun i hia hir => by rw [hread, if_neg hir, if_neg hia]
    · rw [hread, if_neg hlt.ne, if_pos rfl, h.read_of_left hra hlt.le hrev.ge]
    · rw [hread, if_pos rfl, h.read_of_left ha le_rfl hlt.le]
  · have hleft := h.read_of_left ha le_rfl heq.le
    rw [← heq] at hread
    simp only [lt_irrefl, if_false] at hread
    exact h.succ ha (by rw [hread, ← heq, hleft]) (by rw [hread, ← heq, hleft])
      fun i _ _ => hread i
  · simp only [if_neg hgt.not_gt] at hread
    have hpair := h.read_of_done hra (.inl hgt)
    rw [hrev] at hpair
    exact h.succ ha (by rw [hread, h.read_of_done ha (.inr hgt)]) (by rw [hread, hpair])
      fun i _ _ => hread i

end

section
variable {α : Type} {A : Arith α} {e f : Engine α}

/-- In a valid table an entry is the reversal of its index (rule R146). -/
theorem Engine.RevBuilt.revAt_eq (h : e.RevBuilt e.len) {i : Nat} (hi : i < e.len) :
    e.revAt i = rev e.m i := by
  rw [Engine.revAt, h i hi, Option.getD_some]
  exact Nat.mod_eq_of_lt (rev_lt e.m i)

theorem Engine.xAt_of_read {slot i : Nat} {v : α} (h : e.x.read i = some v) :
    e.xAt A slot i = v := by
  rw [Engine.xAt, h, Option.getD_some]

theorem Engine.yAt_of_read {slot i : Nat} {v : α} (h : e.y.read i = some v) :
    e.yAt A slot i = v := by
  rw [Engine.yAt, h, Option.getD_some]

/-- A populated buffer element is what a micro-operation reads (rule R161). -/
theorem Engine.some_xAt (h : e.populated = true) (slot : Nat) {i : Nat} (hi : i < e.len) :
    some (e.xAt A slot i) = e.x.read i := by
  obtain ⟨⟨v, hv⟩, -⟩ := Engine.populated_iff_read.1 h i hi
  rw [Engine.xAt_of_read hv, hv]

theorem Engine.some_yAt (h : e.populated = true) (slot : Nat) {i : Nat} (hi : i < e.len) :
    some (e.yAt A slot i) = e.y.read i := by
  obtain ⟨-, v, hv⟩ := Engine.populated_iff_read.1 h i hi
  rw [Engine.yAt_of_read hv, hv]

theorem Engine.Keeps.populated (h : e.Keeps f) (hp : e.populated = true) : f.populated = true := by
  obtain ⟨hx, hy⟩ := Engine.populated_iff.1 hp
  rw [Engine.populated_iff, h.len_eq]
  exact ⟨h.x.2 hx, h.y.2 hy⟩

/-- On populated buffers both are permuted alike, and the staging registers do not matter. -/
theorem Engine.permWork_read (hp : e.populated = true) {a : Nat} (ha : a < e.len) (i : Nat) :
    ((e.permWork A a).x.read i =
      if a < e.revAt a then
        if i = e.revAt a then e.x.read a else if i = a then e.x.read (e.revAt a) else e.x.read i
      else e.x.read i) ∧
    ((e.permWork A a).y.read i =
      if a < e.revAt a then
        if i = e.revAt a then e.y.read a else if i = a then e.y.read (e.revAt a) else e.y.read i
      else e.y.read i) := by
  have ht := e.revAt_lt_len a
  rw [← Engine.some_xAt (A := A) hp 0 ha, ← Engine.some_xAt (A := A) hp 1 ht,
    ← Engine.some_yAt (A := A) hp 2 ha, ← Engine.some_yAt (A := A) hp 3 ht]
  exact ⟨Cells.read_ite_write_write _ _ _ _ _ _ i, Cells.read_ite_write_write _ _ _ _ _ _ i⟩

/-- What the permute phase has done when the indices below `a` are done. -/
structure Engine.PermutedBelow (e : Engine α) (a : Nat) (f : Engine α) : Prop where
  m : f.m = e.m
  bitrev : f.bitrev = e.bitrev
  populated : f.populated = true
  x : e.x.PermutedBelow e.m a f.x
  y : e.y.PermutedBelow e.m a f.y

theorem Engine.PermutedBelow.permWork (A : Arith α) {a : Nat} (hrev : e.RevBuilt e.len)
    (ha : a < e.len) (h : e.PermutedBelow a f) : e.PermutedBelow (a + 1) (f.permWork A a) := by
  have hlen : f.len = e.len := congrArg Params.len h.m
  have hbuilt : f.RevBuilt f.len := by rwa [Engine.RevBuilt, hlen, h.bitrev, h.m]
  have haf : a < f.len := hlen.symm ▸ ha
  have hread := Engine.permWork_read (A := A) h.populated haf
  rw [hbuilt.revAt_eq haf, h.m] at hread
  exact
    { m := h.m
      bitrev := h.bitrev
      populated := (Engine.permWork_keeps A haf).populated h.populated
      x := h.x.swap ha fun i => (hread i).1
      y := h.y.swap ha fun i => (hread i).2 }

theorem Engine.bigPermute_permutedBelow (A : Arith α) (hrev : e.RevBuilt e.len)
    (hp : e.populated = true) : e.PermutedBelow e.len (e.bigPermute A) := by
  rw [Engine.bigPermute_eq]
  exact forFrom_induct_index (P := e.PermutedBelow) (fun a ha f h => h.permWork A hrev ha)
    (Nat.zero_le _) ⟨rfl, rfl, hp, Cells.permutedBelow_zero _ _, Cells.permutedBelow_zero _ _⟩

end

/-- Settles O55: `Engine.PermutedBelow` holds before the first index and each index keeps it; after
the last one every pair is in place. -/
theorem permuteReordersByBitReversal : Obligations.PermuteReordersByBitReversal := by
  intro α A e hrev hp i hi
  have h := Engine.bigPermute_permutedBelow A hrev hp
  exact ⟨h.x.read_of_done hi (.inl hi), h.y.read_of_done hi (.inl hi)⟩

/-! ## Division by one -/

section
variable {q c : Nat}

theorem Ieee.nearestEven_mul_two_pow (q c : Nat) : Ieee.nearestEven (q * 2 ^ c) c = q := by
  have hpos : 2 ^ c ≠ 0 := (Nat.two_pow_pos c).ne'
  simp [Ieee.nearestEven, hpos.symm]

/-- A number of at most 53 bits and `c` zeros loses only the zeros. -/
theorem Ieee.expStep_mul_two_pow (hq : q < 2 ^ 53) (hlow : c = 0 ∨ 2 ^ 52 ≤ q) :
    Ieee.expStep (q * 2 ^ c) 0 = c := by
  unfold Ieee.expStep
  rcases Nat.lt_or_ge q (2 ^ 52) with hlt | hge
  · obtain rfl : c = 0 := hlow.resolve_right hlt.not_ge
    have hlog : q.log2 ≤ 52 := by
      rcases Nat.eq_zero_or_pos q with rfl | hpos
      · decide
      · exact Nat.le_of_lt_succ ((Nat.log2_lt hpos.ne').2 hq)
    rw [pow_zero, Nat.mul_one]
    omega
  · have hlog : (q * 2 ^ c).log2 = 52 + c := by
      have hpos : 0 < 2 ^ c := Nat.two_pow_pos c
      refine (Nat.log2_eq_iff (by positivity)).2 ⟨?_, ?_⟩
      · rw [pow_add]
        exact Nat.mul_le_mul_right _ hge
      · rw [Nat.add_right_comm, pow_add]
        exact Nat.mul_lt_mul_of_pos_right hq hpos
    omega

theorem Ieee.round_mul_two_pow (neg : Bool) (hq : q < 2 ^ 53) (hlow : c = 0 ∨ 2 ^ 52 ≤ q) :
    Ieee.round neg (q * 2 ^ c) 0 = Ieee.pack neg (min (c * 2 ^ 52 + q) Ieee.infBits) := by
  rw [Ieee.round_eq, Ieee.significand, Ieee.expStep_mul_two_pow hq hlow, Nat.zero_add,
    Ieee.nearestEven_mul_two_pow]

end

section
variable {v : F64}

theorem Ieee.expField_lt (h : Ieee.isFinite v = true) : Ieee.expField v < 2047 := by
  have hne : Ieee.expField v ≠ 2047 := by simpa [Ieee.isFinite] using h
  have hfield := Ieee.expField_eq v
  omega

/-- A finite value is its own rounding. -/
theorem Ieee.round_units (h : Ieee.isFinite v = true) :
    Ieee.round (Ieee.negative v) (Ieee.units v) 0 = v := by
  have hfrac := Ieee.fracField_lt v
  have hexp := Ieee.expField_lt h
  have hfields := Ieee.pack_fields v
  have hinf : Ieee.expField v * 2 ^ 52 + Ieee.fracField v ≤ Ieee.infBits := by
    unfold Ieee.infBits
    omega
  unfold Ieee.units
  split
  · next hsub =>
    rw [hsub, Nat.zero_mul] at hfields hinf
    have hround := Ieee.round_mul_two_pow (c := 0) (Ieee.negative v)
      (hfrac.trans (by decide)) (.inl rfl)
    rwa [pow_zero, Nat.mul_one, Nat.zero_mul, min_eq_left hinf, hfields] at hround
  · next hnorm =>
    have hmag : (Ieee.expField v - 1) * 2 ^ 52 + (2 ^ 52 + Ieee.fracField v) =
        Ieee.expField v * 2 ^ 52 + Ieee.fracField v := by omega
    rw [Ieee.round_mul_two_pow _ (by omega) (.inr (Nat.le_add_right _ _)), hmag,
      min_eq_left hinf, hfields]

/-- Division by `N = 1` is exact (rules R172, R175). -/
theorem Ieee.divN_zero (q : F64) (h : Ieee.isNaN v = false) : Ieee.divN 0 q v = v := by
  cases hinf : Ieee.isInf v with
  | true => exact Ieee.divN_of_isInf q 0 hinf
  | false =>
    have hfin : Ieee.isFinite v = true := by rw [Ieee.isFinite_eq, h, hinf]; rfl
    rw [Ieee.divN_of_isFinite q 0 hfin, Ieee.round_units hfin]

end

/-! ## The transform of one sample -/

section
variable {α : Type} {A : Arith α} {e f : Engine α}

theorem Engine.micro_of_perm (ha : Params.admitted e.m = true) (hp : e.phase = .perm) :
    e.micro A = e.perm A := by
  rw [Engine.micro, hp, Engine.selected_eq ha hp]

theorem Engine.micro_of_norm (ha : Params.admitted e.m = true) (hp : e.phase = .norm) :
    e.micro A = e.norm A := by
  rw [Engine.micro, hp, Engine.selected_eq ha hp]

theorem Engine.len_eq_one (hm : e.m = 0) : e.len = 1 := by rw [Engine.len, hm]; rfl

/-- With one sample there is no pair to swap and no stage (rule R175). -/
theorem Engine.perm_of_one (A : Arith α) (hm : e.m = 0) (hi : e.i = 0) :
    ∃ f, e.perm A = .next f ∧ f.x = e.x ∧ f.y = e.y := by
  have hlen := Engine.len_eq_one hm
  have hrev := e.revAt_lt_len e.i
  have hself : ¬e.i < e.revAt e.i := by omega
  have h := Engine.perm_next (A := A).2 ⟨(by omega : e.i < e.len), rfl⟩
  have hlast := Engine.perm_of_last h (by omega)
  refine ⟨_, h, ?_, ?_⟩
  · rw [hlast, Engine.enterStage_x]
    exact if_neg hself
  · rw [hlast, Engine.enterStage_y]
    exact if_neg hself

/-- After the permute phase of one sample the inverse is at its end, the forward direction at its
normalisation (rule R173). -/
theorem Engine.micro_perm_of_one (A : Arith α) (ha : Params.admitted e.m = true) (hm : e.m = 0)
    (hp : e.phase = .perm) (hi : e.i = 0) :
    ∃ f, e.micro A = .next f ∧ f.m = e.m ∧ f.x = e.x ∧ f.y = e.y ∧
      (e.dir = .fwd → f.phase = .norm ∧ f.i = 0) ∧ (e.dir = .inv → f.phase = .idle) := by
  have hlen := Engine.len_eq_one hm
  have hlast : e.i + 1 = e.len := by omega
  obtain ⟨f, hf, hx, hy⟩ := Engine.perm_of_one A hm hi
  refine ⟨f, (Engine.micro_of_perm ha hp).trans hf, (Engine.perm_sameParams hf).1, hx, hy,
    fun hd => ?_, fun hd => (Engine.perm_row_idle hf hlast hlen hd).1⟩
  obtain ⟨hphase, -, hfi⟩ := Engine.perm_row_norm hf hlast hlen hd
  exact ⟨hphase, hfi⟩

end

section
variable {e : Engine F64} {vx vy : F64}

/-- The division of one sample leaves every value but a NaN as it is (rules R171, R175). -/
theorem Engine.norm_of_one (hm : e.m = 0) (hp : e.phase = .norm) (hi : e.i = 0)
    (hx : e.x.read 0 = some vx) (hy : e.y.read 0 = some vy) :
    ∃ f, e.norm Arith.binary64 = .next f ∧ f.phase = .idle ∧
      (Ieee.isNaN vx = false → f.x.read 0 = some vx) ∧
      (Ieee.isNaN vy = false → f.y.read 0 = some vy) := by
  have hlen := Engine.len_eq_one hm
  refine ⟨_, Engine.norm_of_lt hp (by omega), if_pos (by omega), fun hnan => ?_, fun hnan => ?_⟩
  · rw [hi, Engine.normWork, Cells.read_write_same, hm, Engine.xAt_of_read hx]
    exact congrArg some (Ieee.divN_zero _ hnan)
  · rw [hi, Engine.normWork, Cells.read_write_same, hm, Engine.yAt_of_read hy]
    exact congrArg some (Ieee.divN_zero _ hnan)

end

/-- Settles O56: the permute phase moves nothing; the inverse ends there, the forward direction after
one division by one. -/
theorem lengthOneTransformIsTheIdentity : Obligations.LengthOneTransformIsTheIdentity := by
  intro e vx vy hi hm hp hs hb hx hy
  have hlen := Engine.len_eq_one hm
  have hr : e.Ready := by
    refine ⟨hs, hb, Engine.populated_iff_read.2 fun i hlt => ?_⟩
    obtain rfl : i = 0 := by omega
    exact ⟨⟨vx, hx⟩, vy, hy⟩
  constructor
  · obtain ⟨f, hf, -, hfx, hfy, -, hidle⟩ :=
      Engine.micro_perm_of_one (e := { e with dir := .inv, i := 0, phase := .perm })
        Arith.binary64 hi.admitted hm rfl rfl
    exact ⟨_, f, Engine.startXform_of_ready .inv hr, Engine.run_succ_of_next hf, hidle rfl,
      hfx ▸ hx, hfy ▸ hy⟩
  · obtain ⟨f, hf, hfm, hfx, hfy, hnorm, -⟩ :=
      Engine.micro_perm_of_one (e := { e with dir := .fwd, i := 0, phase := .perm })
        Arith.binary64 hi.admitted hm rfl rfl
    obtain ⟨hfp, hfi⟩ := hnorm rfl
    obtain ⟨g, hg, hend⟩ := Engine.norm_of_one (hfm.trans hm) hfp hfi (hfx ▸ hx) (hfy ▸ hy)
    have hmicro := (Engine.micro_of_norm (hfm.symm ▸ hi.admitted) hfp).trans hg
    exact ⟨_, g, Engine.startXform_of_ready .fwd hr,
      (Engine.run_succ_of_next hf).trans (Engine.run_succ_of_next hmicro), hend⟩

end Sys2Proof.Machine

/-! PROOFS. The counts of micro-operations (rules R200, R201, R300): the count of what is left is 0
exactly at the end of a command, every micro-operation lowers it by one, and a command starts with
its own count. -/
namespace Sys2Proof.Machine

section
variable {α : Type} {A : Arith α} {e f : Engine α}

/-- A command is at its end exactly when it has nothing left (rule R300). -/
theorem Engine.remaining_eq_zero_iff (hi : e.Inv A) :
    e.remaining = 0 ↔ e.phase.busy = false := by
  refine ⟨fun h => ?_, Engine.remaining_of_not_busy⟩
  by_contra hb
  obtain ⟨f, -, -, -, hrem, -⟩ := Engine.micro_advances hi (Bool.eq_true_of_not_eq_false hb)
  omega

/-- Without a fault the end of a command is `IDLE`. -/
theorem Engine.phase_idle_iff (hi : e.Inv A) (herr : e.err = .none) :
    e.phase = .idle ↔ e.remaining = 0 := by
  rw [Engine.remaining_eq_zero_iff hi]
  exact ⟨fun hp => by rw [hp]; rfl, Engine.phase_eq_idle hi herr⟩

/-- A running command is after some micro-operations as many nearer its end (rule R300). -/
theorem Engine.run_counts_down (hi : e.Inv A) (herr : e.err = .none) {n : ℕ}
    (hn : n ≤ e.remaining) :
    ∃ f, e.run A n = .next f ∧ f.Inv A ∧ f.err = .none ∧ f.remaining + n = e.remaining := by
  induction n generalizing e with
  | zero => exact ⟨e, rfl, hi, herr, rfl⟩
  | succ n ih =>
    have hb : e.phase.busy = true := Bool.eq_true_of_not_eq_false
      (mt (Engine.remaining_eq_zero_iff hi).2 (by omega))
    obtain ⟨f, hf, hfi, hferr, hrem, -⟩ := Engine.micro_advances hi hb
    obtain ⟨g, hg, hgi, hgerr, hgrem⟩ := ih hfi (hferr.trans herr) (by omega)
    exact ⟨g, (Engine.run_succ_of_next hf).trans hg, hgi, hgerr, by omega⟩

/-- After exactly its count a command has ended, and not before. -/
theorem Engine.takes_remaining (hi : e.Inv A) (herr : e.err = .none) :
    (∃ f, e.run A e.remaining = .next f ∧ f.phase = .idle ∧ f.err = .none) ∧
      ∀ k < e.remaining, ∃ f, e.run A k = .next f ∧ f.phase.busy = true := by
  constructor
  · obtain ⟨f, hf, hfi, hferr, hrem⟩ := Engine.run_counts_down hi herr le_rfl
    exact ⟨f, hf, (Engine.phase_idle_iff hfi hferr).2 (by omega), hferr⟩
  · intro k hk
    obtain ⟨f, hf, hfi, -, hrem⟩ := Engine.run_counts_down hi herr hk.le
    exact ⟨f, hf, Bool.eq_true_of_not_eq_false
      (mt (Engine.remaining_eq_zero_iff hfi).2 (by omega))⟩

/-! ## The count of each command -/

/-- All the stages together (rule R200). -/
theorem stagesLeft_one (m : ℕ) : stagesLeft m 1 = 2 ^ m - 1 + m * 2 ^ m / 2 := by
  have hhalf : m * 2 ^ m / 2 = m * (2 ^ m / 2) := by
    cases m with
    | zero => rfl
    | succ m => exact Nat.mul_div_assoc _ (Dvd.intro_left _ (pow_succ 2 m).symm)
  have hlog : Nat.log2 1 = 0 := Nat.log2_two_pow (n := 0)
  rw [stagesLeft, hlog, Nat.sub_zero, hhalf]

theorem Engine.remaining_startXform {dir : Direction} (h : e.startXform dir = .next f)
    (hp : f.phase = .perm) :
    f.remaining =
      2 * e.len - 1 + e.m * e.len / 2 + if dir = .fwd then e.len else 0 := by
  rcases Engine.startXform_next.1 h with ⟨-, rfl⟩ | ⟨-, -, -, rfl⟩
  · cases hp
  · have hpos := e.len_pos
    have hstages : stagesLeft e.m 1 = e.len - 1 + e.m * e.len / 2 := stagesLeft_one e.m
    rw [Engine.remaining_perm rfl]
    show e.len - 0 + stagesLeft e.m 1 + (if dir = .fwd then e.len else 0) = _
    rw [hstages]
    omega

end

/-- Settles O12: `Engine.micro_advances`; no fault is recorded, so the end is `IDLE`. -/
theorem everyMicroOperationCountsDown : Obligations.EveryMicroOperationCountsDown := by
  intro α A e hi hb
  obtain ⟨f, hf, hfi, hferr, hrem, -⟩ := Engine.micro_advances hi hb
  have herr := hferr.trans (hi.err_eq_none (Phase.ne_halt_of_busy hb))
  exact ⟨f, hf, hfi, hrem, (Engine.phase_idle_iff hfi herr).symm⟩

/-- Settles O13: each command starts in the invariant with its count, which `Engine.takes_remaining`
counts down. -/
theorem commandsTakeTheirCountOfSteps : Obligations.CommandsTakeTheirCountOfSteps := by
  intro α A e e1 n hi hp hcmd
  suffices h : e1.Inv A ∧ e1.phase ≠ .halt ∧ e1.remaining = n by
    obtain ⟨hi1, hp1, rfl⟩ := h
    exact Engine.takes_remaining hi1 (hi1.err_eq_none hp1)
  rcases hcmd with ⟨rfl, rfl⟩ | ⟨rfl, rfl⟩ | ⟨hstart, hp1, rfl⟩ | ⟨hstart, hp1, rfl⟩
  · exact ⟨Engine.startMksin_inv hi hp, by simp, Engine.remaining_sinb rfl⟩
  · exact ⟨Engine.startMkbrev_inv hi hp, by simp, Engine.remaining_brvb rfl⟩
  · refine ⟨Engine.startXform_inv hi hp hstart, by simp [hp1], ?_⟩
    rw [Engine.remaining_startXform hstart hp1]
    rfl
  · have hpos := e.len_pos
    refine ⟨Engine.startXform_inv hi hp hstart, by simp [hp1], ?_⟩
    rw [Engine.remaining_startXform hstart hp1, if_pos rfl]
    omega

end Sys2Proof.Machine

/-! PROOFS. The mathematics of the butterfly network (rules R202, R205 to R208): a stage of
butterflies as a step of the partial sums of rule R208, one butterfly at a time, and the discrete
Fourier transform with its two directions as inverses of each other. -/
namespace Sys2Proof.Machine

/-! ## The sums of the butterfly network -/

/-- Block `b` of the stage invariant at the output index `i` (rule R208): the sum over the samples
whose index is congruent to `rev_(m-s)(b)` modulo `2^(m-s)`. -/
noncomputable def blockSum (ω : ℂ) (m s : ℕ) (z : ℕ → ℂ) (b i : ℕ) : ℂ :=
  ∑ q ∈ Finset.range (2 ^ s), z (rev (m - s) b + q * 2 ^ (m - s)) * ω ^ (2 ^ (m - s) * q * i)

/-- What line `i` holds after `s` stages (rule R208). -/
noncomputable def stageSum (ω : ℂ) (m s : ℕ) (z : ℕ → ℂ) (i : ℕ) : ℂ :=
  blockSum ω m s z (i / 2 ^ s) i

section
variable {ω : ℂ} {m s j t : ℕ} {z : ℕ → ℂ}

theorem sum_range_two_mul (f : ℕ → ℂ) (n : ℕ) :
    ∑ q ∈ Finset.range (2 * n), f q = ∑ q ∈ Finset.range n, (f (2 * q) + f (2 * q + 1)) := by
  induction n with
  | zero => rfl
  | succ n ih => rw [Nat.mul_succ, Finset.sum_range_succ, Finset.sum_range_succ, ih,
      Finset.sum_range_succ, add_assoc]

theorem stageSum_zero (ω : ℂ) (m : ℕ) (z : ℕ → ℂ) (i : ℕ) :
    stageSum ω m 0 z i = z (rev m i) := by
  simp [stageSum, blockSum]

theorem stageSum_last (ω : ℂ) (m : ℕ) (z : ℕ → ℂ) (i : ℕ) :
    stageSum ω m m z i = ∑ n ∈ Finset.range (2 ^ m), z n * ω ^ (i * n) := by
  simp [stageSum, blockSum, rev, Nat.mul_comm]

/-- A stage merges two blocks: the even samples of the new block are the one, the odd samples the
other (rule R208). -/
theorem blockSum_succ (hs : s < m) (b i : ℕ) :
    blockSum ω m (s + 1) z b i =
      blockSum ω m s z (2 * b) i +
        ω ^ (2 ^ (m - (s + 1)) * i) * blockSum ω m s z (2 * b + 1) i := by
  obtain ⟨p, rfl⟩ := Nat.exists_eq_add_of_lt hs
  have hp : s + p + 1 - s = p + 1 := by omega
  have hp' : s + p + 1 - (s + 1) = p := by omega
  have hmod : (2 * b + 1) % 2 = 1 := by omega
  have hdiv : (2 * b + 1) / 2 = b := by omega
  have heven : rev (p + 1) (2 * b) = rev p b := by simp [rev]
  have hodd : rev (p + 1) (2 * b + 1) = 2 ^ p + rev p b := by rw [rev, hmod, hdiv, one_mul]
  rw [blockSum, blockSum, blockSum, hp, hp', pow_succ' 2 s, sum_range_two_mul,
    Finset.sum_add_distrib, Finset.mul_sum, heven, hodd]
  congr 1 <;> refine Finset.sum_congr rfl fun q _ => ?_
  · congr 2 <;> ring
  · rw [mul_left_comm, ← pow_add]
    congr 2 <;> ring

/-- A block is periodic in the output index. -/
theorem blockSum_add_two_pow (hω : ω ^ 2 ^ m = 1) (hs : s ≤ m) (b i : ℕ) :
    blockSum ω m s z b (i + 2 ^ s) = blockSum ω m s z b i := by
  refine Finset.sum_congr rfl fun q _ => ?_
  have hexp : 2 ^ (m - s) * q * (i + 2 ^ s) = 2 ^ m * q + 2 ^ (m - s) * q * i := by
    rw [← pow_sub_mul_pow 2 hs]
    ring
  rw [hexp, pow_add, pow_mul, hω, one_pow, one_mul]

/-- The `2^(m-(s+1))` butterflies of a group, `2^(s+1)` apart, span all lines (rule R202). -/
theorem butterflies_mul_distance (hs : s < m) : 2 ^ (m - (s + 1)) * 2 ^ (s + 1) = 2 ^ m :=
  pow_sub_mul_pow 2 hs

theorem pow_half_eq_neg_one (hω : IsPrimitiveRoot ω (2 ^ m)) (hs : s < m) :
    ω ^ (2 ^ (m - (s + 1)) * 2 ^ s) = -1 := by
  have hhalf : 2 ^ m = 2 ^ (m - (s + 1)) * 2 ^ s * 2 := by
    rw [mul_assoc, ← pow_succ, butterflies_mul_distance hs]
  exact (hω.pow (Nat.two_pow_pos m) hhalf).eq_neg_one_of_two_right

/-- The twiddle factor of a group (rule R202). -/
theorem pow_even_line (hω : ω ^ 2 ^ m = 1) (hs : s < m) (j t : ℕ) :
    ω ^ (2 ^ (m - (s + 1)) * (j + t * 2 ^ (s + 1))) = ω ^ (j * 2 ^ (m - (s + 1))) := by
  have hexp : 2 ^ (m - (s + 1)) * (j + t * 2 ^ (s + 1)) =
      2 ^ m * t + j * 2 ^ (m - (s + 1)) := by
    rw [← butterflies_mul_distance hs]
    ring
  rw [hexp, pow_add, pow_mul, hω, one_pow, one_mul]

/-- Half a period further, on the odd line, the factor is negated (rule R169). -/
theorem pow_odd_line (hω : IsPrimitiveRoot ω (2 ^ m)) (hs : s < m) (j t : ℕ) :
    ω ^ (2 ^ (m - (s + 1)) * (j + t * 2 ^ (s + 1) + 2 ^ s)) = -ω ^ (j * 2 ^ (m - (s + 1))) := by
  rw [Nat.mul_add, pow_add ω, pow_half_eq_neg_one hω hs, pow_even_line hω.pow_eq_one hs,
    mul_neg_one]

/-! The wiring of a stage (rule R202): line `i` belongs to group `i % 2^s` and, inside it, to
butterfly `i / 2^(s+1)`. -/

theorem even_line_div (hj : j < 2 ^ s) : (j + t * 2 ^ (s + 1)) / 2 ^ s = 2 * t := by
  have hsum : j + t * 2 ^ (s + 1) = j + 2 * t * 2 ^ s := by ring
  rw [hsum, Nat.add_mul_div_right _ _ (Nat.two_pow_pos s), Nat.div_eq_of_lt hj, Nat.zero_add]

theorem odd_line_div (hj : j < 2 ^ s) : (j + t * 2 ^ (s + 1) + 2 ^ s) / 2 ^ s = 2 * t + 1 := by
  rw [Nat.add_div_right _ (Nat.two_pow_pos s), even_line_div hj]

theorem even_line_mod (hj : j < 2 ^ s) : (j + t * 2 ^ (s + 1)) % 2 ^ s = j := by
  have hsum : j + t * 2 ^ (s + 1) = j + 2 ^ s * (2 * t) := by ring
  rw [hsum, Nat.add_mul_mod_self_left, Nat.mod_eq_of_lt hj]

theorem div_two_pow_succ (i s : ℕ) : i / 2 ^ (s + 1) = i / 2 ^ s / 2 := by
  rw [pow_succ, Nat.div_div_eq_div_mul]

/-- The lines of a butterfly exist (rule R209). -/
theorem odd_line_lt (hs : s < m) (hj : j < 2 ^ s) (ht : t < 2 ^ (m - (s + 1))) :
    j + t * 2 ^ (s + 1) + 2 ^ s < 2 ^ m := by
  have hmul : (t + 1) * 2 ^ (s + 1) ≤ 2 ^ (m - (s + 1)) * 2 ^ (s + 1) :=
    Nat.mul_le_mul_right _ ht
  rw [butterflies_mul_distance hs, Nat.succ_mul, pow_succ] at hmul
  rw [pow_succ]
  omega

/-- Every twiddle index of a stage is a sample index (rule R209). -/
theorem twiddle_index_lt (hs : s < m) (hj : j < 2 ^ s) : j * 2 ^ (m - (s + 1)) < 2 ^ m := by
  have hj' : j < 2 ^ (s + 1) := hj.trans (Nat.pow_lt_pow_right (by decide) (Nat.lt_succ_self s))
  rw [← butterflies_mul_distance hs, Nat.mul_comm]
  exact Nat.mul_lt_mul_of_pos_left hj' (Nat.two_pow_pos _)

/-- A butterfly joins exactly two lines (rule R202). -/
theorem line_of_butterfly_iff (hj : j < 2 ^ s) (n : ℕ) :
    n % 2 ^ s = j ∧ n / 2 ^ (s + 1) = t ↔
      n = j + t * 2 ^ (s + 1) ∨ n = j + t * 2 ^ (s + 1) + 2 ^ s := by
  rw [div_two_pow_succ]
  constructor
  · rintro ⟨rfl, rfl⟩
    have hn := Nat.mod_add_div n (2 ^ s)
    rcases Nat.mod_two_eq_zero_or_one (n / 2 ^ s) with heven | hodd
    · left
      have hdiv : n / 2 ^ s = 2 * (n / 2 ^ s / 2) := by omega
      rw [hdiv] at hn
      linear_combination hn.symm
    · right
      have hdiv : n / 2 ^ s = 2 * (n / 2 ^ s / 2) + 1 := by omega
      rw [hdiv] at hn
      linear_combination hn.symm
  · rintro (rfl | rfl)
    · rw [even_line_mod hj, even_line_div hj]
      omega
    · rw [Nat.add_mod_right, even_line_mod hj, odd_line_div hj]
      omega

/-- The even line of a butterfly (rules R169, R202). -/
theorem stageSum_succ_even (hω : ω ^ 2 ^ m = 1) (hs : s < m) (hj : j < 2 ^ s) :
    stageSum ω m (s + 1) z (j + t * 2 ^ (s + 1)) =
      stageSum ω m s z (j + t * 2 ^ (s + 1)) +
        ω ^ (j * 2 ^ (m - (s + 1))) * stageSum ω m s z (j + t * 2 ^ (s + 1) + 2 ^ s) := by
  have ht : 2 * t / 2 = t := by omega
  rw [stageSum, stageSum, stageSum, div_two_pow_succ, even_line_div hj, odd_line_div hj, ht,
    blockSum_succ hs, blockSum_add_two_pow hω hs.le, pow_even_line hω hs]

/-- The odd line of a butterfly (rules R169, R202). -/
theorem stageSum_succ_odd (hω : IsPrimitiveRoot ω (2 ^ m)) (hs : s < m) (hj : j < 2 ^ s) :
    stageSum ω m (s + 1) z (j + t * 2 ^ (s + 1) + 2 ^ s) =
      stageSum ω m s z (j + t * 2 ^ (s + 1)) -
        ω ^ (j * 2 ^ (m - (s + 1))) * stageSum ω m s z (j + t * 2 ^ (s + 1) + 2 ^ s) := by
  have ht : (2 * t + 1) / 2 = t := by omega
  rw [stageSum, stageSum, stageSum, div_two_pow_succ, even_line_div hj, odd_line_div hj, ht,
    blockSum_succ hs, blockSum_add_two_pow hω.pow_eq_one hs.le,
    blockSum_add_two_pow hω.pow_eq_one hs.le, pow_odd_line hω hs, neg_mul, sub_eq_add_neg]

end

/-! ## Inside a stage -/

/-- A butterfly of the lines `i` and `i + k` of a signal (rules R169, R170). -/
noncomputable def butterflySignal (w : ℂ) (i k : ℕ) (z : ℕ → ℂ) (n : ℕ) : ℂ :=
  if n = i then z i + w * z (i + k) else if n = i + k then z i - w * z (i + k) else z n

/-- What line `n` holds inside stage `s`, when the groups below `j` and the butterflies below `t` of
group `j` are done (rules R201, R202). -/
noncomputable def stageSumUpTo (ω : ℂ) (m s : ℕ) (z : ℕ → ℂ) (j t n : ℕ) : ℂ :=
  if n % 2 ^ s < j ∨ n % 2 ^ s = j ∧ n / 2 ^ (s + 1) < t then stageSum ω m (s + 1) z n
  else stageSum ω m s z n

section
variable {ω : ℂ} {m s j t n : ℕ} {z : ℕ → ℂ}

theorem stageSumUpTo_first (n : ℕ) : stageSumUpTo ω m s z 0 0 n = stageSum ω m s z n := by
  simp [stageSumUpTo]

theorem stageSumUpTo_last (n : ℕ) :
    stageSumUpTo ω m s z (2 ^ s) 0 n = stageSum ω m (s + 1) z n :=
  if_pos (.inl (Nat.mod_lt n (Nat.two_pow_pos s)))

/-- A group has `2^(m-(s+1))` butterflies (rule R200). -/
theorem stageSumUpTo_group (hs : s < m) (hn : n < 2 ^ m) :
    stageSumUpTo ω m s z j (2 ^ (m - (s + 1))) n = stageSumUpTo ω m s z (j + 1) 0 n := by
  have hlt : n / 2 ^ (s + 1) < 2 ^ (m - (s + 1)) := by
    rw [Nat.div_lt_iff_lt_mul (Nat.two_pow_pos _), butterflies_mul_distance hs]
    exact hn
  have hiff : n % 2 ^ s < j ∨ n % 2 ^ s = j ∧ n / 2 ^ (s + 1) < 2 ^ (m - (s + 1)) ↔
      n % 2 ^ s < j + 1 ∨ n % 2 ^ s = j + 1 ∧ n / 2 ^ (s + 1) < 0 := by
    simp only [hlt, and_true, Nat.not_lt_zero, and_false, or_false]
    omega
  simp only [stageSumUpTo, hiff]

/-- One butterfly brings its two lines to the next stage (rules R202, R208). -/
theorem stageSumUpTo_butterfly (hω : IsPrimitiveRoot ω (2 ^ m)) (hs : s < m) (hj : j < 2 ^ s)
    (n : ℕ) :
    butterflySignal (ω ^ (j * 2 ^ (m - (s + 1)))) (j + t * 2 ^ (s + 1)) (2 ^ s)
      (stageSumUpTo ω m s z j t) n = stageSumUpTo ω m s z j (t + 1) n := by
  have hline := line_of_butterfly_iff (t := t) hj
  have hpending : ∀ l, l % 2 ^ s = j ∧ l / 2 ^ (s + 1) = t →
      stageSumUpTo ω m s z j t l = stageSum ω m s z l := fun l hl => if_neg (by omega)
  have hdone : ∀ l, l % 2 ^ s = j ∧ l / 2 ^ (s + 1) = t →
      stageSumUpTo ω m s z j (t + 1) l = stageSum ω m (s + 1) z l := fun l hl => if_pos (by omega)
  rw [butterflySignal, hpending _ ((hline _).2 (.inl rfl)), hpending _ ((hline _).2 (.inr rfl)),
    ← stageSum_succ_even hω.pow_eq_one hs hj, ← stageSum_succ_odd hω hs hj]
  split
  · next heven => rw [hdone n ((hline n).2 (.inl heven)), heven]
  · next heven =>
    split
    · next hodd => rw [hdone n ((hline n).2 (.inr hodd)), hodd]
    · next hodd =>
      have hother := mt (hline n).1 (not_or.2 ⟨heven, hodd⟩)
      have hiff : n % 2 ^ s < j ∨ n % 2 ^ s = j ∧ n / 2 ^ (s + 1) < t ↔
          n % 2 ^ s < j ∨ n % 2 ^ s = j ∧ n / 2 ^ (s + 1) < t + 1 := by omega
      simp only [stageSumUpTo, hiff]

end

/-! ## The discrete Fourier transform -/

/-- The sign of the exponent of a direction (rule R205). -/
def Direction.sign : Direction → ℝ
  | .fwd => -1
  | .inv => 1

/-- The root of unity whose powers the sum of rule R205 takes. -/
noncomputable def dftRoot (σ : ℝ) (m : ℕ) : ℂ :=
  Complex.exp (Complex.I * ((σ * (2 * Real.pi / 2 ^ m) : ℝ) : ℂ))

theorem dftRoot_pow (σ : ℝ) (m n : ℕ) :
    dftRoot σ m ^ n = Complex.exp (Complex.I * ((σ * (2 * Real.pi * n / 2 ^ m) : ℝ) : ℂ)) := by
  rw [dftRoot, ← Complex.exp_nat_mul]
  congr 1
  push_cast
  ring

theorem dftRoot_neg (σ : ℝ) (m : ℕ) : dftRoot (-σ) m = (dftRoot σ m)⁻¹ := by
  rw [dftRoot, dftRoot, neg_mul, Complex.ofReal_neg, mul_neg, Complex.exp_neg]

theorem dftRoot_inv_primitive (m : ℕ) : IsPrimitiveRoot (dftRoot 1 m) (2 ^ m) := by
  have hexp : dftRoot 1 m = Complex.exp (2 * Real.pi * Complex.I / ((2 ^ m : ℕ) : ℂ)) := by
    rw [dftRoot]
    congr 1
    push_cast
    ring
  rw [hexp]
  exact Complex.isPrimitiveRoot_exp _ (Nat.two_pow_pos m).ne'

theorem dftRoot_primitive (dir : Direction) (m : ℕ) :
    IsPrimitiveRoot (dftRoot dir.sign m) (2 ^ m) := by
  cases dir with
  | fwd => exact dftRoot_neg 1 m ▸ (dftRoot_inv_primitive m).inv
  | inv => exact dftRoot_inv_primitive m

theorem dftSum_eq (σ : ℝ) (m : ℕ) (z : ℕ → ℂ) (k : ℕ) :
    dftSum σ (2 ^ m) z k = ∑ n ∈ Finset.range (2 ^ m), z n * dftRoot σ m ^ (k * n) := by
  refine Finset.sum_congr rfl fun n _ => ?_
  rw [dftRoot_pow]
  congr 4
  push_cast
  ring

theorem dftSum_congr {σ : ℝ} {len : ℕ} {z z' : ℕ → ℂ} (h : ∀ n < len, z n = z' n) (k : ℕ) :
    dftSum σ len z k = dftSum σ len z' k :=
  Finset.sum_congr rfl fun n hn => by rw [h n (Finset.mem_range.1 hn)]

/-- The sum of rule R205 is linear (rule R207). -/
theorem dftSum_mul_add (σ : ℝ) (len : ℕ) (a : ℂ) (z z' : ℕ → ℂ) (k : ℕ) :
    dftSum σ len (fun n => a * z n + z' n) k = a * dftSum σ len z k + dftSum σ len z' k := by
  simp only [dftSum, Finset.mul_sum, ← Finset.sum_add_distrib, add_mul, mul_assoc]

theorem dftSum_mul (σ : ℝ) (len : ℕ) (a : ℂ) (z : ℕ → ℂ) (k : ℕ) :
    dftSum σ len (fun n => a * z n) k = a * dftSum σ len z k := by
  simp only [dftSum, Finset.mul_sum, mul_assoc]

section
variable {ω : ℂ} {N : ℕ}

/-- The powers of two different entries of a row are orthogonal (rule R206). -/
theorem sum_pow_div_pow (hω : IsPrimitiveRoot ω N) {n k : ℕ} (hn : n < N) (hk : k < N) :
    ∑ l ∈ Finset.range N, (ω ^ n / ω ^ k) ^ l = if n = k then (N : ℂ) else 0 := by
  have hne : ω ^ k ≠ 0 := pow_ne_zero k (hω.ne_zero (Nat.ne_zero_of_lt hn))
  split
  · next heq => simp [heq, div_self hne]
  · next hdiff =>
    have hone : ω ^ n / ω ^ k - 1 ≠ 0 := fun h =>
      hdiff (hω.pow_inj hn hk ((div_eq_one_iff_eq hne).1 (sub_eq_zero.1 h)))
    refine (mul_eq_zero.1 ?_).resolve_right hone
    rw [geom_sum_mul, div_pow, ← pow_mul, ← pow_mul, Nat.mul_comm n, Nat.mul_comm k, pow_mul,
      pow_mul, hω.pow_eq_one, one_pow, one_pow, div_one, sub_self]

end

/-- The two directions undo each other, up to the factor `N` (rule R206). -/
theorem dftSum_dftSum (dir : Direction) (m : ℕ) (z : ℕ → ℂ) {k : ℕ} (hk : k < 2 ^ m) :
    dftSum (-dir.sign) (2 ^ m) (dftSum dir.sign (2 ^ m) z) k = 2 ^ m * z k := by
  have hω := dftRoot_primitive dir m
  have hterm : ∀ l n, z n * dftRoot dir.sign m ^ (l * n) * dftRoot (-dir.sign) m ^ (k * l) =
      z n * (dftRoot dir.sign m ^ n / dftRoot dir.sign m ^ k) ^ l := fun l n => by
    rw [dftRoot_neg, div_pow, ← pow_mul, ← pow_mul, Nat.mul_comm n, inv_pow, mul_assoc,
      div_eq_mul_inv]
  calc
    _ = ∑ l ∈ Finset.range (2 ^ m), ∑ n ∈ Finset.range (2 ^ m),
          z n * (dftRoot dir.sign m ^ n / dftRoot dir.sign m ^ k) ^ l := by
      simp only [dftSum_eq, Finset.sum_mul, hterm]
    _ = ∑ n ∈ Finset.range (2 ^ m), z n * if n = k then ((2 ^ m : ℕ) : ℂ) else 0 := by
      rw [Finset.sum_comm]
      refine Finset.sum_congr rfl fun n hn => ?_
      rw [← Finset.mul_sum, sum_pow_div_pow hω (Finset.mem_range.1 hn) hk]
    _ = 2 ^ m * z k := by
      simp [hk, mul_comm]

end Sys2Proof.Machine

/-! PROOFS. The transform over exact reals (rules R205 to R208): what each part of the big step does
to the complex signal the buffers hold, and what a run of an `XFORM` leaves. -/
namespace Sys2Proof.Machine

/-! ## Frames in a row -/

section
variable {α : Type} {A : Arith α} {e f g : Engine α}

theorem Cells.KeptIn.trans {n : ℕ} {c c' c'' : Cells α} (h : c.KeptIn n c')
    (h' : c'.KeptIn n c'') : c.KeptIn n c'' :=
  ⟨h'.1 ∘ h.1, h'.2 ∘ h.2⟩

theorem Engine.Keeps.trans (h : e.Keeps f) (h' : f.Keeps g) : e.Keeps g where
  params := ⟨h'.params.1.trans h.params.1, h'.params.2.trans h.params.2⟩
  sintbl := h'.sintbl.trans h.sintbl
  bitrev := h'.bitrev.trans h.bitrev
  sinv := h'.sinv.trans h.sinv
  brv := h'.brv.trans h.brv
  x := h.x.trans (h.len_eq ▸ h'.x)
  y := h.y.trans (h.len_eq ▸ h'.y)

theorem Engine.twldWork_keeps (A : Arith α) (e : Engine α) (h : ℕ) : e.Keeps (e.twldWork A h) :=
  { Engine.Keeps.refl e with }

/-- The sine table keeps its contract values through a transform (rules R126, R174). -/
theorem Engine.Keeps.sinAt_eq (h : e.Keeps f) (hi : e.Inv A) (hv : e.sinv = true) {n : ℕ}
    (hn : n < e.sineLen) : f.sinAt A n = A.sinval e.m n := by
  rw [Engine.sinAt, h.sintbl, hi.sine_valid hv n hn, Option.getD_some]

end

/-! ## The operations of exact reals -/

section
variable (draw : ℕ → ℕ → ℝ) (q a b : ℝ)

@[simp] theorem Arith.real_add : (Arith.real draw).add q a b = a + b := rfl
@[simp] theorem Arith.real_sub : (Arith.real draw).sub q a b = a - b := rfl
@[simp] theorem Arith.real_mul : (Arith.real draw).mul q a b = a * b := rfl
@[simp] theorem Arith.real_neg : (Arith.real draw).neg a = -a := rfl
@[simp] theorem Arith.real_divN (m : ℕ) : (Arith.real draw).divN m q a = a / 2 ^ m := rfl

end

/-! ## The signal in the buffers -/

/-- The twiddle factor the registers `C` and `S` hold, as a complex number (rule R168). -/
def Engine.twiddle (e : Engine ℝ) : ℂ := ⟨e.rc, -e.rs⟩

section
variable {draw : ℕ → ℕ → ℝ} {e f : Engine ℝ}

theorem Engine.signal_eq_xAt_yAt (hp : e.populated = true) (u v : ℕ) {i : ℕ} (hi : i < e.len) :
    e.signal i = ⟨e.xAt (Arith.real draw) u i, e.yAt (Arith.real draw) v i⟩ := by
  rw [Engine.signal, ← Engine.some_xAt (A := Arith.real draw) hp u hi,
    ← Engine.some_yAt (A := Arith.real draw) hp v hi, Option.getD_some, Option.getD_some]

/-- A butterfly on the signal (rules R169, R170). -/
theorem Engine.signal_bflyWork (hp : e.populated = true) {i k : ℕ} (hik : i + k < e.len) (n : ℕ) :
    (e.bflyWork (Arith.real draw) i k).signal n = butterflySignal e.twiddle i k e.signal n := by
  have hi : i < e.len := Nat.lt_of_le_of_lt (Nat.le_add_right i k) hik
  rw [butterflySignal, Engine.signal_eq_xAt_yAt (draw := draw) hp 2 3 hi,
    Engine.signal_eq_xAt_yAt (draw := draw) hp 0 1 hik]
  simp only [Engine.signal, Engine.bflyWork, Cells.read_write_write]
  split
  · apply Complex.ext <;> simp [butterfly, Engine.twiddle] <;> ring
  · split
    · apply Complex.ext <;> simp [butterfly, Engine.twiddle] <;> ring
    · rfl

/-- The normalisation of one index of the signal (rule R171). -/
theorem Engine.signal_normWork (hp : e.populated = true) {i : ℕ} (hi : i < e.len) (n : ℕ) :
    (e.normWork (Arith.real draw) i).signal n =
      if n = i then ((1 / 2 ^ e.m : ℝ) : ℂ) * e.signal i else e.signal n := by
  rw [Engine.signal_eq_xAt_yAt (draw := draw) hp 0 1 hi]
  simp only [Engine.signal, Engine.normWork, Cells.read_write]
  split
  · apply Complex.ext
    · rw [Complex.re_ofReal_mul, one_div_mul_eq_div]
      rfl
    · rw [Complex.im_ofReal_mul, one_div_mul_eq_div]
      rfl
  · rfl

end

/-- A transform has come from one engine to another that holds a given signal. -/
structure Engine.ComesTo (e f : Engine ℝ) (z : ℕ → ℂ) : Prop where
  keeps : e.Keeps f
  dir : f.dir = e.dir
  signal : ∀ n < e.len, f.signal n = z n

section
variable {draw : ℕ → ℕ → ℝ} {e f : Engine ℝ} {z z' : ℕ → ℂ}

theorem Engine.ComesTo.congr (h : e.ComesTo f z) (hz : ∀ n < e.len, z n = z' n) :
    e.ComesTo f z' :=
  { h with signal := fun n hn => (h.signal n hn).trans (hz n hn) }

/-! ## A stage -/

theorem Engine.ComesTo.bflyWork (hp : e.populated = true) (h : e.ComesTo f z) {i k : ℕ}
    (hik : i + k < e.len) :
    e.ComesTo (f.bflyWork (Arith.real draw) i k) (butterflySignal f.twiddle i k z) := by
  have hikf : i + k < f.len := h.keeps.len_eq.symm ▸ hik
  refine ⟨h.keeps.trans (Engine.bflyWork_keeps _ hikf), h.dir, fun n hn => ?_⟩
  rw [Engine.signal_bflyWork (h.keeps.populated hp) hikf, butterflySignal, h.signal n hn,
    h.signal _ hik, h.signal i (Nat.lt_of_le_of_lt (Nat.le_add_right i k) hik), butterflySignal]

theorem Engine.ComesTo.twldWork (h : e.ComesTo f z) (n : ℕ) :
    e.ComesTo (f.twldWork (Arith.real draw) n) z :=
  { h with keeps := h.keeps.trans (f.twldWork_keeps _ n) }

theorem exp_I_mul_ofReal (θ : ℝ) : Complex.exp (Complex.I * θ) = ⟨Real.cos θ, Real.sin θ⟩ := by
  rw [mul_comm]
  exact Complex.ext (Complex.exp_ofReal_mul_I_re θ) (Complex.exp_ofReal_mul_I_im θ)

/-- The registers hold the power of the direction's root that the twiddle index names (rules R130,
R168). -/
theorem Engine.ComesTo.twiddle_eq (hi : e.Inv (Arith.real draw)) (hv : e.sinv = true)
    (hm : 2 ≤ e.m) (h : e.ComesTo f z) {n : ℕ} (hn : n < e.len) :
    (f.twldWork (Arith.real draw) n).twiddle = dftRoot e.dir.sign e.m ^ n := by
  have hsine : f.sinAt (Arith.real draw) n = Real.sin (2 * Real.pi * n / 2 ^ e.m) :=
    h.keeps.sinAt_eq hi hv (Nat.lt_of_lt_of_le hn (Nat.le_add_right _ _))
  have hquarter : f.quarter = 2 ^ e.m / 4 :=
    (congrArg Params.quarter h.keeps.params.1).trans (if_pos hm)
  have hlt : n + 2 ^ e.m / 4 < e.sineLen := by
    rw [← (if_pos hm : e.quarter = 2 ^ e.m / 4)]
    exact Nat.add_lt_add_right hn _
  have hcos : f.sinAt (Arith.real draw) (n + f.quarter) =
      Real.cos (2 * Real.pi * n / 2 ^ e.m) := by
    rw [hquarter, h.keeps.sinAt_eq hi hv hlt, Arith.real_sinval, Sine.exact_add_quarter hm]
  rw [dftRoot_pow, exp_I_mul_ofReal, Engine.twiddle, Engine.twldWork_rc, Engine.twldWork, hsine,
    hcos, h.dir]
  cases e.dir <;> simp [Direction.sign]

end

section
variable {draw : ℕ → ℕ → ℝ} {e f : Engine ℝ} {s j t : ℕ} {z : ℕ → ℂ}

/-- The butterflies of a group (rules R164, R208). -/
theorem Engine.ComesTo.bflysFrom (hp : e.populated = true) (hs : s < e.m) (hj : j < 2 ^ s)
    (h : e.ComesTo f (stageSumUpTo (dftRoot e.dir.sign e.m) e.m s z j 0))
    (hw : f.twiddle = dftRoot e.dir.sign e.m ^ (j * 2 ^ (e.m - (s + 1)))) :
    e.ComesTo (f.bflysFrom (Arith.real draw) (2 ^ s) (2 ^ (s + 1)) (2 ^ (e.m - (s + 1))) j 0)
      (stageSumUpTo (dftRoot e.dir.sign e.m) e.m s z (j + 1) 0) := by
  have hω := dftRoot_primitive e.dir e.m
  have hloop := forFrom_induct_index
    (P := fun t g => e.ComesTo g (stageSumUpTo (dftRoot e.dir.sign e.m) e.m s z j t) ∧
      g.twiddle = f.twiddle)
    (body := fun t g => g.bflyWork (Arith.real draw) (j + t * 2 ^ (s + 1)) (2 ^ s))
    (fun t ht g ⟨hg, hgw⟩ => ⟨(hg.bflyWork hp (odd_line_lt hs hj ht)).congr fun n _ => by
      rw [hgw, hw, stageSumUpTo_butterfly hω hs hj], hgw⟩)
    (Nat.zero_le (2 ^ (e.m - (s + 1)))) ⟨h, rfl⟩
  exact hloop.1.congr fun n hn => stageSumUpTo_group hs hn

/-- A stage takes the sums of rule R208 one stage further. -/
theorem Engine.ComesTo.bigStage (hi : e.Inv (Arith.real draw)) (hr : e.Ready) (hs : s < e.m)
    (h : e.ComesTo f (stageSum (dftRoot e.dir.sign e.m) e.m s z)) :
    e.ComesTo (f.bigStage (Arith.real draw) s)
      (stageSum (dftRoot e.dir.sign e.m) e.m (s + 1) z) := by
  obtain ⟨hv, -, hp⟩ := hr
  have hm : 2 ≤ e.m := by
    rcases (Params.admitted_iff e.m).1 hi.admitted with h0 | ⟨h2, -⟩ <;> omega
  have hd : f.len / 2 ^ (s + 1) = 2 ^ (e.m - (s + 1)) := by
    rw [h.keeps.len_eq]
    exact Nat.pow_div hs (by decide)
  rw [Engine.bigStage_eq, hd]
  have hloop := forFrom_induct_index
    (P := fun j g => e.ComesTo g (stageSumUpTo (dftRoot e.dir.sign e.m) e.m s z j 0))
    (body := Engine.bigGroup (Arith.real draw) (2 ^ s) (2 ^ (s + 1)) (2 ^ (e.m - (s + 1))))
    (fun j hj g hg => (hg.twldWork _).bflysFrom hp hs hj
      (hg.twiddle_eq hi hv hm (twiddle_index_lt hs hj)))
    (Nat.zero_le _) (h.congr fun n _ => (stageSumUpTo_first n).symm)
  exact hloop.congr fun n _ => stageSumUpTo_last n

/-! ## The whole transform -/

/-- The permute phase on the signal (rule R163). -/
theorem Engine.comesTo_bigPermute (hr : e.RevBuilt e.len) (hp : e.populated = true) :
    e.ComesTo (e.bigPermute (Arith.real draw))
      (stageSum (dftRoot e.dir.sign e.m) e.m 0 e.signal) := by
  have hframe := forFrom_induct_index (P := fun _ f => e.Keeps f ∧ f.dir = e.dir)
    (body := Engine.permWork (Arith.real draw))
    (fun i hi f ⟨hk, hd⟩ => ⟨hk.trans (Engine.permWork_keeps _ (hk.len_eq.symm ▸ hi)), hd⟩)
    (Nat.zero_le e.len) ⟨.refl e, rfl⟩
  rw [← Engine.bigPermute_eq] at hframe
  refine ⟨hframe.1, hframe.2, fun n hn => ?_⟩
  obtain ⟨hx, hy⟩ := permuteReordersByBitReversal ℝ (Arith.real draw) e hr hp n hn
  rw [Engine.signal, hx, hy, stageSum_zero]
  rfl

/-- After the last stage the lines hold the sum of rule R205, before the normalisation. -/
theorem Engine.comesTo_bigStages (hi : e.Inv (Arith.real draw)) (hr : e.Ready) :
    e.ComesTo ((e.bigPermute (Arith.real draw)).bigStages (Arith.real draw))
      (dftSum e.dir.sign e.len e.signal) := by
  have ⟨_, hb, hp⟩ := hr
  have hperm := Engine.comesTo_bigPermute (draw := draw) (hi.rev_valid hb) hp
  have hm : (e.bigPermute (Arith.real draw)).m = e.m := hperm.keeps.params.1
  rw [Engine.bigStages, forRange_eq_forFrom, hm]
  have hloop := forFrom_induct_index
    (P := fun s f => e.ComesTo f (stageSum (dftRoot e.dir.sign e.m) e.m s e.signal))
    (body := Engine.bigStage (Arith.real draw))
    (fun s hs f hf => hf.bigStage hi hr hs) (Nat.zero_le e.m) hperm
  exact hloop.congr fun n _ => by rw [stageSum_last, Engine.len, Params.len, dftSum_eq]

/-- The factor of a direction (rules R172, R205). -/
noncomputable def Direction.gain (m : ℕ) : Direction → ℝ
  | .fwd => 1 / 2 ^ m
  | .inv => 1

theorem Engine.ComesTo.normWork (hp : e.populated = true) (h : e.ComesTo f z) {i : ℕ}
    (hi : i < e.len) :
    e.ComesTo (f.normWork (Arith.real draw) i) fun n =>
      if n = i then ((1 / 2 ^ e.m : ℝ) : ℂ) * z n else z n := by
  have hif : i < f.len := h.keeps.len_eq.symm ▸ hi
  refine ⟨h.keeps.trans (Engine.normWork_keeps _ hif), h.dir, fun n hn => ?_⟩
  rw [Engine.signal_normWork (h.keeps.populated hp) hif, h.keeps.params.1, h.signal n hn]
  split
  · next heq => rw [heq, h.signal i hi]
  · rfl

/-- The normalisation loop (rule R172). -/
theorem Engine.ComesTo.norms (hp : e.populated = true) (h : e.ComesTo f z) :
    e.ComesTo (forFrom 0 e.len (Engine.normWork (Arith.real draw)) f) fun n =>
      ((1 / 2 ^ e.m : ℝ) : ℂ) * z n := by
  have hloop := forFrom_induct_index
    (P := fun i g => e.ComesTo g fun n => if n < i then ((1 / 2 ^ e.m : ℝ) : ℂ) * z n else z n)
    (body := Engine.normWork (Arith.real draw))
    (fun i hi g hg => (hg.normWork hp hi).congr fun n _ => by
      rcases Nat.lt_trichotomy n i with hlt | rfl | hgt
      · rw [if_neg hlt.ne, if_pos hlt, if_pos (Nat.lt_succ_of_lt hlt)]
      · rw [if_pos rfl, if_neg (lt_irrefl _), if_pos (Nat.lt_succ_self _)]
      · rw [if_neg hgt.ne', if_neg hgt.not_gt, if_neg (by omega)])
    (Nat.zero_le e.len) (h.congr fun n _ => (if_neg (Nat.not_lt_zero n)).symm)
  exact hloop.congr fun n hn => if_pos hn

theorem Engine.ComesTo.bigNorm (hp : e.populated = true) (h : e.ComesTo f z) :
    e.ComesTo (f.bigNorm (Arith.real draw)) fun n => (e.dir.gain e.m : ℂ) * z n := by
  rw [Engine.bigNorm_eq, h.dir, h.keeps.len_eq]
  cases e.dir with
  | fwd => exact h.norms hp
  | inv => exact h.congr fun n _ => by rw [Direction.gain, Complex.ofReal_one, one_mul]

/-- The big step of an `XFORM` is the closed form (rule R205). -/
theorem Engine.comesTo_bigXform (dir : Direction) (hi : e.Inv (Arith.real draw))
    (hp : e.phase = .idle) (hr : e.Ready) :
    ({ e with dir := dir } : Engine ℝ).ComesTo (e.bigXform (Arith.real draw) dir) fun n =>
      (dir.gain e.m : ℂ) * dftSum dir.sign e.len e.signal n := by
  have hinv : ({ e with dir := dir } : Engine ℝ).Inv (Arith.real draw) :=
    { hi with phase_ok := by simp [Engine.PhaseOk, hp] }
  have ⟨_, _, hpop⟩ := hr
  exact (Engine.comesTo_bigStages hinv hr).bigNorm hpop

end

/-! ## Runs of a transform -/

/-- What an `XFORM` leaves when it has run to its end (rules R205, R245). -/
structure Engine.TransformsTo (draw : ℕ → ℕ → ℝ) (dir : Direction) (e f : Engine ℝ) : Prop where
  inv : f.Inv (Arith.real draw)
  idle : f.phase = .idle
  ready : f.Ready
  m : f.m = e.m
  signal : ∀ n < e.len, f.signal n = (dir.gain e.m : ℂ) * dftSum dir.sign e.len e.signal n

theorem Engine.SameVisible.ready {α : Type} {e f : Engine α} (h : e.SameVisible f)
    (hr : f.Ready) : e.Ready := by
  rwa [Engine.Ready, Engine.populated, Engine.len, h.sinv, h.brv, h.x, h.y, h.m]

theorem Engine.SameVisible.signal {e f : Engine ℝ} (h : e.SameVisible f) :
    e.signal = f.signal := by
  funext n
  rw [Engine.signal, h.x, h.y, Engine.signal]

section
variable {draw : ℕ → ℕ → ℝ} {dir : Direction} {e f : Engine ℝ}

theorem Engine.TransformsTo.len (h : e.TransformsTo draw dir f) : f.len = e.len :=
  congrArg Params.len h.m

theorem Engine.TransformsTo.err (h : e.TransformsTo draw dir f) : f.err = .none :=
  h.inv.err_eq_none (by simp [h.idle])

/-- An `XFORM` of a ready engine runs to its end and leaves the closed form (rules R70, R205). -/
theorem Engine.exists_run_transformsTo (dir : Direction) (hi : e.Inv (Arith.real draw))
    (hp : e.phase = .idle) (hr : e.Ready) :
    ∃ e1 e2, e.startXform dir = .next e1 ∧ e1.run (Arith.real draw) e1.remaining = .next e2 ∧
      e.TransformsTo draw dir e2 := by
  obtain ⟨e1, e2, hstart, hrun, hvis⟩ :=
    transformSmallStepIsBigStep ℝ (Arith.real draw) e dir hi hp hr
  have hi1 := Engine.startXform_inv hi hp hstart
  obtain rfl := Host.Outcome.next.inj ((Engine.startXform_of_ready dir hr).symm.trans hstart)
  obtain ⟨f, hf, hfi, hidle, -⟩ := Engine.run_remaining hi1 (hi1.err_eq_none (by simp))
  obtain rfl : e2 = f := Host.Outcome.next.inj (hrun.symm.trans hf)
  have hbig := Engine.comesTo_bigXform dir hi hp hr
  exact ⟨_, e2, hstart, hrun, hfi, hidle, hvis.ready (hbig.keeps.ready hr),
    hvis.m.trans hbig.keeps.params.1, fun n hn => by rw [hvis.signal, hbig.signal n hn]⟩

end

theorem Direction.gain_fwd (m : ℕ) : ((Direction.fwd.gain m : ℝ) : ℂ) = 1 / (Params.len m : ℂ) := by
  simp [Direction.gain, Params.len]

/-- Settles O57: `Engine.exists_run_transformsTo` for the forward direction. -/
theorem forwardTransformIsTheDft : Obligations.ForwardTransformIsTheDft := by
  intro draw e hi hp hr
  obtain ⟨e1, e2, hstart, hrun, h⟩ := Engine.exists_run_transformsTo .fwd hi hp hr
  obtain ⟨-, -, hpop⟩ := h.ready
  refine ⟨e1, e2, hstart, hrun, h.idle, h.err, hpop, fun n hn => ?_⟩
  rw [h.signal n hn, Direction.gain_fwd]
  rfl

/-- Settles O58: `Engine.exists_run_transformsTo` for the inverse direction. -/
theorem inverseTransformIsTheInverseDft : Obligations.InverseTransformIsTheInverseDft := by
  intro draw e hi hp hr
  obtain ⟨e1, e2, hstart, hrun, h⟩ := Engine.exists_run_transformsTo .inv hi hp hr
  obtain ⟨-, -, hpop⟩ := h.ready
  refine ⟨e1, e2, hstart, hrun, h.idle, h.err, hpop, fun n hn => ?_⟩
  rw [h.signal n hn, Direction.gain, Complex.ofReal_one, one_mul]
  rfl

/-! ## Round trip and linearity -/

section
variable {draw : ℕ → ℕ → ℝ} {e f : Engine ℝ}

/-- A populated buffer holds the parts of the signal. -/
theorem Engine.read_eq_signal (hp : e.populated = true) {n : ℕ} (hn : n < e.len) :
    e.x.read n = some (e.signal n).re ∧ e.y.read n = some (e.signal n).im := by
  obtain ⟨⟨u, hu⟩, v, hv⟩ := Engine.populated_iff_read.1 hp n hn
  simp [Engine.signal, hu, hv]

/-- Populated buffers are the same data when they hold the same signal (rule R206). -/
theorem Engine.buffers_eq_of_signal (hi : e.Inv (Arith.real draw)) (hf : f.Inv (Arith.real draw))
    (hp : e.populated = true) (hpf : f.populated = true) (hlen : f.len = e.len)
    (h : ∀ n < e.len, f.signal n = e.signal n) : f.x = e.x ∧ f.y = e.y := by
  have hread := fun n hn => e.read_eq_signal hp (n := n) hn
  have hreadf := fun n (hn : n < e.len) => h n hn ▸ f.read_eq_signal hpf (hlen.symm ▸ hn)
  exact ⟨Cells.eq_of_full (hlen ▸ hf.x_wf) hi.x_wf (fun n hn => (hreadf n hn).1)
      fun n hn => (hread n hn).1,
    Cells.eq_of_full (hlen ▸ hf.y_wf) hi.y_wf (fun n hn => (hreadf n hn).2)
      fun n hn => (hread n hn).2⟩

end

/-- The factor `1/N` stands in exactly one of the two directions (rule R205). -/
theorem Direction.gain_mul_gain {first second : Direction} (h : first ≠ second) (m : ℕ) :
    ((second.gain m : ℝ) : ℂ) * (first.gain m : ℝ) * 2 ^ m = 1 := by
  cases first <;> cases second <;> simp [Direction.gain] at h ⊢

theorem Direction.sign_eq_neg {first second : Direction} (h : first ≠ second) :
    second.sign = -first.sign := by
  cases first <;> cases second <;> simp [Direction.sign] at h ⊢

/-- Settles O59: the two closed forms undo each other, and a populated buffer is determined by its
signal. -/
theorem roundTripRestoresTheBuffers : Obligations.RoundTripRestoresTheBuffers := by
  intro draw e first second hne hi hp hr
  obtain ⟨e1, e2, hstart, hrun, h⟩ := Engine.exists_run_transformsTo first hi hp hr
  obtain ⟨e3, e4, hstart', hrun', h'⟩ := Engine.exists_run_transformsTo second h.inv h.idle h.ready
  obtain ⟨-, -, hpop⟩ := hr
  obtain ⟨-, -, hpop'⟩ := h'.ready
  have hsignal : ∀ n < e.len, e4.signal n = e.signal n := fun n hn => by
    rw [h'.signal n (h.len.symm ▸ hn), h.len, h.m, dftSum_congr h.signal, dftSum_mul,
      Direction.sign_eq_neg hne, Engine.len, Params.len, dftSum_dftSum first e.m e.signal hn,
      ← mul_assoc, ← mul_assoc, Direction.gain_mul_gain hne, one_mul]
  exact ⟨e1, e2, e3, e4, hstart, hrun, hstart', hrun', h'.idle,
    Engine.buffers_eq_of_signal hi h'.inv hpop hpop' (h'.len.trans h.len) hsignal⟩

/-- Settles O60: the sum of rule R205 is linear. -/
theorem transformsAreLinear : Obligations.TransformsAreLinear := by
  intro draw a dir e f g hei hfi hgi hep hfp hgp her hfr hgr hfm hgm hlin
  obtain ⟨e1, e2, hes, herun, he⟩ := Engine.exists_run_transformsTo dir hei hep her
  obtain ⟨f1, f2, hfs, hfrun, hf⟩ := Engine.exists_run_transformsTo dir hfi hfp hfr
  obtain ⟨g1, g2, hgs, hgrun, hg⟩ := Engine.exists_run_transformsTo dir hgi hgp hgr
  have hflen : f.len = e.len := congrArg Params.len hfm
  have hglen : g.len = e.len := congrArg Params.len hgm
  refine ⟨e1, e2, f1, f2, g1, g2, hes, herun, hfs, hfrun, hgs, hgrun, he.idle, hf.idle, hg.idle,
    fun n hn => ?_⟩
  rw [he.signal n hn, hf.signal n (hflen.symm ▸ hn), hg.signal n (hglen.symm ▸ hn), hflen, hglen,
    hfm, hgm, dftSum_congr hlin, dftSum_mul_add]
  ring

end Sys2Proof.Machine


/-! PROOFS. Host access (rules R221 to R228): what `HRD` and `HWR` do at every location in `IDLE` and
in `HALT`, and that `HALT` keeps the engine until a `RESET`. -/
namespace Sys2Proof.Machine

/-! ## Access rights -/

section
variable {α : Type} {e : Engine α} {space : Space} {n : BitVec 32}

/-- The locations that rule R224 does not make readable. -/
theorem Engine.readable_eq_false_iff :
    e.readable space n.toNat = false ↔
      space = .csr ∧ n ≠ 1#32 ∧ n ≠ 2#32 ∨
        (space = .x ∨ space = .y) ∧ e.len ≤ n.toNat ∨
        space = .sintbl ∧ (e.sineLen ≤ n.toNat ∨ e.sinv = false) ∨
        space = .bitrev ∧ (e.len ≤ n.toNat ∨ e.brv = false) ∨
        space = .reserved5 ∨ space = .reserved6 ∨ space = .reserved7 := by
  cases space with
  | csr => simp [Engine.readable, BitVec.toNat_eq]
  | x | y => simp [Engine.readable]
  | sintbl | bitrev => simp [Engine.readable, imp_iff_not_or]
  | reserved5 | reserved6 | reserved7 => simp [Engine.readable]

/-- The locations that rule R224 does not make writable. -/
theorem Engine.writable_eq_false_iff :
    e.writable space n.toNat = false ↔
      space = .csr ∧ n ≠ 0#32 ∨
        (space = .x ∨ space = .y) ∧ e.len ≤ n.toNat ∨
        space = .sintbl ∨ space = .bitrev ∨
        space = .reserved5 ∨ space = .reserved6 ∨ space = .reserved7 := by
  cases space with
  | csr => simp [Engine.writable, BitVec.toNat_eq]
  | x | y => simp [Engine.writable]
  | sintbl | bitrev | reserved5 | reserved6 | reserved7 => simp [Engine.writable]

theorem Engine.readable_sintbl {i : Nat} (hi : i < e.sineLen) (hv : e.sinv = true) :
    e.readable .sintbl i = true := by
  simp [Engine.readable, hi, hv]

theorem Engine.readable_bitrev {i : Nat} (hi : i < e.len) (hv : e.brv = true) :
    e.readable .bitrev i = true := by
  simp [Engine.readable, hi, hv]

end

/-! ## Reads -/

section
variable {s : State} {space : Space} {n : BitVec 32}

/-- A readable location answers alike in `IDLE` and in `HALT` (rules R221, R227). -/
theorem execHrd_of_readable (ha : Params.admitted s.m = true)
    (hp : s.phase = .idle ∨ s.phase = .halt) (hr : s.readable space n.toNat = true) :
    execHrd space n s = s.answer space n.toNat := by
  rcases hp with hp | hp
  · exact (State.hostMove_idle ha hp).trans (if_pos hr)
  · exact (State.hostMove_halt ha hp).trans (if_pos hr)

theorem execHrd_of_value {v : Datum} (ha : Params.admitted s.m = true)
    (hp : s.phase = .idle ∨ s.phase = .halt) (hr : s.readable space n.toNat = true)
    (hv : s.hostValue space n.toNat = some v) :
    execHrd space n s = .next { s with reply := .ok v } := by
  rw [execHrd_of_readable ha hp hr, State.answer, hv]

theorem execHrd_of_no_value (ha : Params.admitted s.m = true)
    (hp : s.phase = .idle ∨ s.phase = .halt) (hr : s.readable space n.toNat = true)
    (hv : s.hostValue space n.toNat = none) : execHrd space n s = .refused .unwrittenRead := by
  rw [execHrd_of_readable ha hp hr, State.answer, hv]

theorem execHrd_idle_of_unreadable (ha : Params.admitted s.m = true) (hp : s.phase = .idle)
    (hr : s.readable space n.toNat = false) :
    execHrd space n s = .next { s with err := .badAccess, phase := .halt, reply := .err } :=
  (State.hostMove_idle ha hp).trans (if_neg (ne_true_of_eq_false hr))

theorem execHrd_halt_of_unreadable (ha : Params.admitted s.m = true) (hp : s.phase = .halt)
    (hr : s.readable space n.toNat = false) :
    execHrd space n s = .next { s with reply := .err } :=
  (State.hostMove_halt ha hp).trans (if_neg (ne_true_of_eq_false hr))

theorem Engine.sinAt_of_read {α : Type} {A : Arith α} {e : Engine α} {i : Nat} {v : α}
    (h : e.sintbl.read i = some v) : e.sinAt A i = v := by
  rw [Engine.sinAt, h, Option.getD_some]

theorem Engine.revAt_of_read {α : Type} {e : Engine α} {i v : Nat} (h : e.bitrev.read i = some v)
    (hv : v < e.len) : e.revAt i = v := by
  rw [Engine.revAt, h, Option.getD_some, Nat.mod_eq_of_lt hv]

theorem revWord_of_lt {v : Nat} (draws : Nat) (h : v < 2 ^ 32) :
    revWord draws v = BitVec.ofNat 32 v :=
  if_pos h

end

/-- Settles O28: each clause names a readable location and the value there. -/
theorem hrdReturnsReadableLocations : Obligations.HrdReturnsReadableLocations := by
  intro s n ha hp
  refine ⟨execHrd_of_value ha hp rfl rfl, execHrd_of_value ha hp rfl rfl, fun v hn hv => ?_,
    fun v hn hv => ?_, fun hn hs => ?_, fun hn hb => ?_⟩
  · exact execHrd_of_value ha hp (decide_eq_true hn) (congrArg (Option.map Datum.num) hv)
  · exact execHrd_of_value ha hp (decide_eq_true hn) (congrArg (Option.map Datum.num) hv)
  · have answers := execHrd_of_value ha hp (Engine.readable_sintbl hn hs) rfl
    exact ⟨⟨_, answers⟩, fun v hv => Engine.sinAt_of_read hv ▸ answers⟩
  · have answers := execHrd_of_value ha hp (Engine.readable_bitrev hn hb) rfl
    refine ⟨⟨_, answers⟩, fun v hv hlen hwide => ?_⟩
    rw [Engine.revAt_of_read hv hlen, revWord_of_lt s.draws hwide] at answers
    exact answers

/-- Settles O29: these are the locations that are not readable. -/
theorem hrdOfUnreadableLocationIsABadAccess :
    Obligations.HrdOfUnreadableLocationIsABadAccess := fun _ _ _ ha hloc =>
  have hr := Engine.readable_eq_false_iff.2 hloc
  ⟨fun hp => execHrd_idle_of_unreadable ha hp hr, fun hp => execHrd_halt_of_unreadable ha hp hr⟩

/-- Settles O30: the location is readable, but there is no value to answer with. -/
theorem hrdOfUnwrittenElementIsRefused : Obligations.HrdOfUnwrittenElementIsRefused :=
  fun _ _ ha hp hn =>
    ⟨fun hx => execHrd_of_no_value ha hp (decide_eq_true hn) (congrArg (Option.map Datum.num) hx),
      fun hy => execHrd_of_no_value ha hp (decide_eq_true hn) (congrArg (Option.map Datum.num) hy)⟩

/-! ## Writes -/

section
variable {s : State} {space : Space} {n : BitVec 32} {data : Datum}

/-- In `IDLE` a write is the store of the engine (rule R222). -/
theorem execHwr_of_hostStore {e : Engine F64} (ha : Params.admitted s.m = true)
    (hp : s.phase = .idle) (h : s.toEngine.hostStore space n.toNat data = .next e) :
    execHwr space n data s = .next { s with toEngine := e, reply := .nothing } :=
  State.hostWrite_next.2 ⟨ha, .inl ⟨hp, e, h, rfl⟩⟩

end

section
variable {e : Engine F64} {i : Nat}

theorem Engine.hostStore_x (hi : i < e.len) (v : F64) :
    e.hostStore .x i (.num v) = .next { e with x := e.x.write i v } :=
  Engine.hostStore_next.2 (.inr ⟨decide_eq_true hi, .inl ⟨v, rfl, rfl, rfl⟩⟩)

theorem Engine.hostStore_y (hi : i < e.len) (v : F64) :
    e.hostStore .y i (.num v) = .next { e with y := e.y.write i v } :=
  Engine.hostStore_next.2 (.inr ⟨decide_eq_true hi, .inr (.inl ⟨v, rfl, rfl, rfl⟩)⟩)

theorem Engine.hostStore_of_unwritable {space : Space} (h : e.writable space i = false)
    (data : Datum) : e.hostStore space i data = .next (e.raise .badAccess) :=
  Engine.hostStore_next.2 (.inl ⟨h, rfl⟩)

end

/-- Settles O32: the store is `Cells.write` on the buffer that is named. -/
theorem hwrStoresOneElement : Obligations.HwrStoresOneElement := fun s _ v ha hp hn =>
  ⟨⟨_, execHwr_of_hostStore ha hp (Engine.hostStore_x hn v), fun a => Cells.read_write s.x _ a v⟩,
    ⟨_, execHwr_of_hostStore ha hp (Engine.hostStore_y hn v), fun a => Cells.read_write s.y _ a v⟩⟩

/-- Settles O35: these are the locations that are not writable, and the check comes first. -/
theorem hwrToUnwritableLocationIsABadAccess :
    Obligations.HwrToUnwritableLocationIsABadAccess := fun _ _ _ data ha hp hloc =>
  execHwr_of_hostStore ha hp
    (Engine.hostStore_of_unwritable (Engine.writable_eq_false_iff.2 hloc) data)

/-! ## HALT -/

/-- Settles O36: a write and a command are both host writes. -/
theorem haltIgnoresWritesAndCommands : Obligations.HaltIgnoresWritesAndCommands :=
  fun s _ _ _ c ha hp =>
    ⟨State.hostWrite_halt ha hp, (exec_commandInstr s c).trans (State.hostWrite_halt ha hp)⟩

section
variable {s t : State} (hp : s.phase = .halt)
include hp

theorem State.hostWrite_engine_of_halt
    {work : Engine F64 → Host.Outcome (Engine F64) Fault Refusal} (h : s.hostWrite work = .next t) :
    t.toEngine = s.toEngine := by
  rcases State.hostWrite_engine h with ⟨hidle, -⟩ | he
  · exact nomatch hp.symm.trans hidle
  · exact he

theorem State.microOp_ne_next_of_halt {p : Phase} (hne : p ≠ .halt)
    {work : Engine F64 → Host.Outcome (Engine F64) Fault Refusal} : s.microOp p work ≠ .next t :=
  fun h => hne ((State.microOp_engine h).1.symm.trans hp)

/-- A read in `HALT` records no fault (rule R227). -/
theorem execHrd_engine_of_halt {space : Space} {index : BitVec 32}
    (h : execHrd space index s = .next t) : t.toEngine = s.toEngine := by
  cases hr : s.readable space index.toNat with
  | true =>
    obtain ⟨-, -, v, -, rfl⟩ := (execHrd_next_of_readable hr).1 h
    rfl
  | false =>
    obtain ⟨ha, -⟩ := State.hostMove_next.1 h
    cases (execHrd_halt_of_unreadable ha hp hr).symm.trans h
    rfl

/-- In `HALT` the host's writes are ignored, its reads record nothing, and no micro-operation is
selected (rules R100, R227, R253). -/
theorem exec_engine_of_halt {i : Instr} (hr : i ≠ .reset) (h : exec i s = .next t) :
    t.toEngine = s.toEngine := by
  cases i with
  | mksin => exact State.hostWrite_engine_of_halt (work := fun e => .next e.startMksin) hp h
  | mkbrev => exact State.hostWrite_engine_of_halt (work := fun e => .next e.startMkbrev) hp h
  | xformFwd | xformInv | hwr => exact State.hostWrite_engine_of_halt hp h
  | sinw | brvs | perm | twld | bfly | norm =>
    exact absurd h (State.microOp_ne_next_of_halt hp Phase.noConfusion)
  | hrd => exact execHrd_engine_of_halt hp h
  | reset => exact absurd rfl hr

end

/-- Settles O37: a step from `HALT` waits or takes a transaction, and of those only `RESET` touches
the engine. -/
theorem onlyResetLeavesHalt : Obligations.OnlyResetLeavesHalt := by
  intro s t hp h
  obtain ⟨-, ⟨hb, -⟩ | ⟨-, -, rfl⟩ | ⟨-, txn, rest, i, hpend, hdec, hexec⟩⟩ := step_next.1 h
  · rw [hp] at hb
    cases hb
  · exact .inl rfl
  · by_cases hi : i = .reset
    · subst hi
      obtain ⟨-, -, rfl⟩ := execReset_next.1 hexec
      exact .inr ⟨txn, rest, hpend, hdec, rfl, rfl⟩
    · exact .inl (exec_engine_of_halt (s := { s with pending := rest }) hp hi hexec)

end Sys2Proof.Machine


/-! PROOFS. The exceptions (rules R242 to R245): how a command raises each of its two faults, and what
any instruction and any step can do to `ERR`. -/
namespace Sys2Proof.Machine

/-! ## What an instruction does to `ERR` -/

/-- An operation leaves `ERR` as it is, or it is the taking of a fault and nothing else (rule R244). -/
def Engine.KeepsErrOrRaises {α : Type} (e f : Engine α) : Prop := f.err = e.err ∨ f = e.raise f.err

section
variable {α : Type} {A : Arith α} {e f : Engine α}

theorem Engine.raise_keepsErrOrRaises (e : Engine α) (c : ErrCode) :
    e.KeepsErrOrRaises (e.raise c) :=
  .inr rfl

theorem Engine.startXform_keepsErrOrRaises {dir : Direction} (h : e.startXform dir = .next f) :
    e.KeepsErrOrRaises f := by
  rcases Engine.startXform_next.1 h with ⟨-, rfl⟩ | ⟨-, -, -, rfl⟩
  · exact e.raise_keepsErrOrRaises _
  · exact .inl rfl

theorem Engine.command_keepsErrOrRaises {w : Word} (h : e.command w = .next f) :
    e.KeepsErrOrRaises f := by
  rcases Engine.command_next.1 h with ⟨-, rfl⟩ | ⟨-, rfl⟩ | ⟨-, h⟩ | ⟨-, h⟩ | ⟨-, rfl⟩
  · exact .inl rfl
  · exact .inl rfl
  · exact Engine.startXform_keepsErrOrRaises h
  · exact Engine.startXform_keepsErrOrRaises h
  · exact e.raise_keepsErrOrRaises _

theorem Engine.hostStore_keepsErrOrRaises {e f : Engine F64} {space : Space} {index : Nat}
    {data : Datum} (h : e.hostStore space index data = .next f) : e.KeepsErrOrRaises f := by
  rcases Engine.hostStore_next.1 h with
    ⟨-, rfl⟩ | ⟨-, ⟨v, -, -, rfl⟩ | ⟨v, -, -, rfl⟩ | ⟨w, -, -, h⟩⟩
  · exact e.raise_keepsErrOrRaises _
  · exact .inl rfl
  · exact .inl rfl
  · exact Engine.command_keepsErrOrRaises h

end

section
variable {s t : State} {i : Instr}

/-- A write of the host can raise a fault in `IDLE` only (rules R227, R245). -/
theorem State.hostWrite_err {work : Engine F64 → Host.Outcome (Engine F64) Fault Refusal}
    (hwork : ∀ {e f : Engine F64}, work e = .next f → e.KeepsErrOrRaises f)
    (h : s.hostWrite work = .next t) :
    t.err = s.err ∨ s.phase = .idle ∧ t.toEngine = s.toEngine.raise t.err := by
  rcases State.hostWrite_engine h with ⟨hp, he⟩ | he
  · exact (hwork he).imp_right fun hraise => ⟨hp, hraise⟩
  · exact .inl (congrArg Engine.err he)

/-- A read of the host can raise a fault in `IDLE` only (rules R227, R245). -/
theorem execHrd_err {space : Space} {index : BitVec 32} (h : execHrd space index s = .next t) :
    t.err = s.err ∨ s.phase = .idle ∧ t.toEngine = s.toEngine.raise t.err := by
  obtain ⟨-, ⟨hp, -⟩ | ⟨hp, -⟩⟩ := State.hostMove_next.1 h
  · rcases execHrd_engine h with he | he
    · have hcode : t.err = .badAccess := congrArg Engine.err he
      exact .inr ⟨hp, hcode ▸ he⟩
    · exact .inl (congrArg Engine.err he)
  · exact .inl (congrArg Engine.err (execHrd_engine_of_halt hp h))

/-- Everything an instruction can do to `ERR`: leave it, clear it, or, in `IDLE`, take a fault and do
nothing else to the engine (rules R244, R245). -/
theorem exec_err (h : exec i s = .next t) :
    t.err = s.err ∨ t.err = .none ∨ s.phase = .idle ∧ t.toEngine = s.toEngine.raise t.err := by
  cases i with
  | mksin =>
    exact (State.hostWrite_err (work := fun e => .next e.startMksin)
      (fun he => by cases he; exact .inl rfl) h).imp_right .inr
  | mkbrev =>
    exact (State.hostWrite_err (work := fun e => .next e.startMkbrev)
      (fun he => by cases he; exact .inl rfl) h).imp_right .inr
  | xformFwd | xformInv =>
    exact (State.hostWrite_err Engine.startXform_keepsErrOrRaises h).imp_right .inr
  | sinw => exact .inl (Engine.sinw_err (State.microOp_engine h).2)
  | brvs => exact .inl (Engine.brvs_err (State.microOp_engine h).2)
  | perm => exact .inl (Engine.perm_err (State.microOp_engine h).2)
  | twld => exact .inl (Engine.twld_err (State.microOp_engine h).2)
  | bfly => exact .inl (Engine.bfly_err (State.microOp_engine h).2)
  | norm => exact .inl (Engine.norm_err (State.microOp_engine h).2)
  | hrd space index => exact (execHrd_err h).imp_right .inr
  | hwr space index data =>
    exact (State.hostWrite_err Engine.hostStore_keepsErrOrRaises h).imp_right .inr
  | reset =>
    obtain ⟨-, -, rfl⟩ := execReset_next.1 h
    exact .inr (.inl rfl)

/-! ## The host's list -/

theorem State.microOp_pending {p : Phase}
    {work : Engine F64 → Host.Outcome (Engine F64) Fault Refusal} (h : s.microOp p work = .next t) :
    t.pending = s.pending := by
  obtain ⟨-, -, e, -, rfl⟩ := State.microOp_next.1 h
  rfl

theorem State.hostWrite_pending {work : Engine F64 → Host.Outcome (Engine F64) Fault Refusal}
    (h : s.hostWrite work = .next t) : t.pending = s.pending := by
  obtain ⟨-, ⟨-, e, -, rfl⟩ | ⟨-, rfl⟩⟩ := State.hostWrite_next.1 h <;> rfl

theorem execHrd_pending {space : Space} {index : BitVec 32} (h : execHrd space index s = .next t) :
    t.pending = s.pending := by
  cases hr : s.readable space index.toNat with
  | true =>
    obtain ⟨-, -, v, -, rfl⟩ := (execHrd_next_of_readable hr).1 h
    rfl
  | false =>
    obtain ⟨ha, ⟨hp, -⟩ | ⟨hp, -⟩⟩ := State.hostMove_next.1 h
    · cases (execHrd_idle_of_unreadable ha hp hr).symm.trans h
      rfl
    · cases (execHrd_halt_of_unreadable ha hp hr).symm.trans h
      rfl

/-- No instruction touches the transactions that are still to come. -/
theorem exec_pending (h : exec i s = .next t) : t.pending = s.pending := by
  cases i with
  | mksin => exact State.hostWrite_pending (work := fun e => .next e.startMksin) h
  | mkbrev => exact State.hostWrite_pending (work := fun e => .next e.startMkbrev) h
  | xformFwd | xformInv | hwr => exact State.hostWrite_pending h
  | sinw | brvs | perm | twld | bfly | norm => exact State.microOp_pending h
  | hrd => exact execHrd_pending h
  | reset =>
    obtain ⟨-, -, rfl⟩ := execReset_next.1 h
    rfl

/-! ## The step -/

/-- Everything a step can do to `ERR`: the fault of an instruction in `IDLE` is the one of the oldest
transaction, for there `PHASE` selects no micro-operation (rules R223, R245). -/
theorem step_err (h : step s = .next t) :
    t.err = s.err ∨ t.err = .none ∨
      s.phase = .idle ∧ t.toEngine = s.toEngine.raise t.err ∧
        ∃ txn : Txn, s.pending = txn :: t.pending := by
  obtain ⟨-, ⟨hb, i, -, hexec⟩ | ⟨-, -, rfl⟩ | ⟨-, txn, rest, i, hpend, -, hexec⟩⟩ := step_next.1 h
  · rcases exec_err hexec with hkept | hclear | ⟨hp, -⟩
    · exact .inl hkept
    · exact .inr (.inl hclear)
    · rw [hp] at hb
      cases hb
  · exact .inl rfl
  · rcases exec_err hexec with hkept | hclear | ⟨hp, he⟩
    · exact .inl hkept
    · exact .inr (.inl hclear)
    · have hrest : t.pending = rest := exec_pending hexec
      exact .inr (.inr ⟨hp, he, txn, hrest.symm ▸ hpend⟩)

end

/-- Settles O40: of the three things a step can do to `ERR`, only the taking of a fault makes it a
code, and that is done in `IDLE`. -/
theorem faultsAreRaisedFromIdleAndPrecise : Obligations.FaultsAreRaisedFromIdleAndPrecise := by
  intro s t h
  rcases step_err h with hkept | hclear | ⟨hp, he, htaken⟩
  · exact ⟨fun hs ht => absurd (hkept.trans hs) ht, fun _ => .inl hkept⟩
  · exact ⟨fun _ ht => absurd hclear ht, fun _ => .inr hclear⟩
  · exact ⟨fun _ _ => ⟨hp, congrArg Engine.phase he, he, htaken⟩, fun hne => absurd hp hne⟩

/-! ## The faults of a command -/

section
variable {s : State}

/-- The start check of `XFORM` looks at the valid bits first (rules R161, R243); the reply is the
model's own (log entry 27). -/
theorem State.hostWrite_startXform_of_not_ready (dir : Direction)
    (ha : Params.admitted s.m = true) (hp : s.phase = .idle)
    (hv : s.sinv = false ∨ s.brv = false) :
    s.hostWrite (Engine.startXform dir) =
      .next { s with err := .notReady, phase := .halt, reply := .nothing } :=
  State.hostWrite_next.2 ⟨ha, .inl ⟨hp, _, Engine.startXform_next.2 (.inl ⟨hv, rfl⟩), rfl⟩⟩

/-- A word that is no command raises `ILLEGAL_CMD` (rule R242); the reply is the model's own (log
entry 27). -/
theorem State.hostWrite_command_of_illegal {w : Word} (ha : Params.admitted s.m = true)
    (hp : s.phase = .idle) (hw : decodeCommand w = none) :
    s.hostWrite (Engine.command w) =
      .next { s with err := .illegalCmd, phase := .halt, reply := .nothing } :=
  have hraise : s.toEngine.command w = .next (s.toEngine.raise .illegalCmd) :=
    Engine.command_next.2 (.inr (.inr (.inr (.inr ⟨hw, rfl⟩))))
  State.hostWrite_next.2 ⟨ha, .inl ⟨hp, _, hraise, rfl⟩⟩

end

theorem decodeCommand_eq_none {w : Word} (h2 : w ≠ 2#32) (h4 : w ≠ 4#32) (h6 : w ≠ 6#32)
    (h7 : w ≠ 7#32) : decodeCommand w = none := by
  rw [commandWordsAreExactlyFour w, if_neg h2, if_neg h4, if_neg h6, if_neg h7]

/-- Settles O16: either direction fails the start check, and the invariant gives both valid bits when
`PRELOAD` is 1. -/
theorem xformBeforeTablesRaisesNotReady : Obligations.XformBeforeTablesRaisesNotReady :=
  ⟨fun _ ha hp hv => ⟨⟨_, State.hostWrite_startXform_of_not_ready .fwd ha hp hv, rfl, rfl⟩,
      ⟨_, State.hostWrite_startXform_of_not_ready .inv ha hp hv, rfl, rfl⟩⟩,
    fun _ hi => hi.preload_valid⟩

/-- Settles O34: the write is the one that decodes the word as a command, and it decodes to none. -/
theorem illegalCommandWordFaults : Obligations.IllegalCommandWordFaults :=
  fun _ _ ha hp h2 h4 h6 h7 =>
    ⟨_, State.hostWrite_command_of_illegal ha hp (decodeCommand_eq_none h2 h4 h6 h7), rfl, rfl⟩

end Sys2Proof.Machine


/-! PROOFS. What a reset restores and what lasts until the next one (rules R280, R281, R285). -/
namespace Sys2Proof.Machine

/-! ## Valid tables -/

section
variable {α : Type} {A : Arith α} {e f : Engine α}

theorem Engine.sinw_sinv_stays (h : e.sinw A = .next f) (hv : e.sinv = true) : f.sinv = true := by
  obtain ⟨-, rfl⟩ := Engine.sinw_next.1 h
  simp [hv]

theorem Engine.sinw_brv (h : e.sinw A = .next f) : f.brv = e.brv := by
  obtain ⟨-, rfl⟩ := Engine.sinw_next.1 h
  rfl

theorem Engine.brvs_brv_stays (h : e.brvs = .next f) (hv : e.brv = true) : f.brv = true := by
  obtain ⟨-, ⟨-, rfl⟩ | ⟨-, bj, bk, -, rfl⟩⟩ := Engine.brvs_next.1 h
  · rfl
  · exact hv

theorem Engine.brvs_sinv (h : e.brvs = .next f) : f.sinv = e.sinv := by
  obtain ⟨-, ⟨-, rfl⟩ | ⟨-, bj, bk, -, rfl⟩⟩ := Engine.brvs_next.1 h <;> rfl

end

section
variable {i : Instr} {s t : State} (hr : i ≠ .reset) (h : exec i s = .next t)
include hr h

/-- But for `RESET` only `SINW` writes `SINV`, and only with 1 (rules R28, R125). -/
theorem exec_sinv_stays (hv : s.sinv = true) : t.sinv = true := by
  by_cases hs : i = .sinw
  · subst hs
    exact Engine.sinw_sinv_stays (State.microOp_engine h).2 hv
  · by_cases hb : i = .brvs
    · subst hb
      exact (Engine.brvs_sinv (State.microOp_engine h).2).trans hv
    · exact (exec_keeps hs hb hr h).sinv.trans hv

/-- But for `RESET` only `BRVS` writes `BRV`, and only with 1 (rules R29, R145). -/
theorem exec_brv_stays (hv : s.brv = true) : t.brv = true := by
  by_cases hb : i = .brvs
  · subst hb
    exact Engine.brvs_brv_stays (State.microOp_engine h).2 hv
  · by_cases hs : i = .sinw
    · subst hs
      exact (Engine.sinw_brv (State.microOp_engine h).2).trans hv
    · exact (exec_keeps hs hb hr h).brv.trans hv

end

section
variable {α : Type} {A : Arith α} {e f : Engine α}

/-- A valid sine table can hold nothing but its contract values (rules R120, R126). -/
theorem Engine.Inv.sintbl_read_eq (he : e.Inv A) (hf : f.Inv A) (hm : f.m = e.m)
    (hve : e.sinv = true) (hvf : f.sinv = true) {n : Nat} (hn : n < e.sineLen) :
    f.sintbl.read n = e.sintbl.read n := by
  have hlen : f.sineLen = e.sineLen := congrArg Params.sineLen hm
  rw [he.sine_valid hve n hn, hf.sine_valid hvf n (hlen ▸ hn), hm]

/-- A valid bit-reversal table can hold nothing but its contract values (rules R140, R146). -/
theorem Engine.Inv.bitrev_read_eq (he : e.Inv A) (hf : f.Inv A) (hm : f.m = e.m)
    (hve : e.brv = true) (hvf : f.brv = true) {n : Nat} (hn : n < e.len) :
    f.bitrev.read n = e.bitrev.read n := by
  have hlen : f.len = e.len := congrArg Params.len hm
  rw [he.rev_valid hve n hn, hf.rev_valid hvf n (hlen ▸ hn), hm]

end

/-- Settles O44: no instruction but `RESET` clears a valid bit, and in the invariant, which every
instruction keeps, the valid bit fixes the contents, so that a rebuild writes what is there. -/
theorem validTablesStayUntilReset : Obligations.ValidTablesStayUntilReset := by
  intro i s t hi h hr
  have ht : t.Inv := exec_inv hi h
  obtain ⟨hm, -⟩ := exec_sameParams h
  constructor
  · intro hv
    have hvt := exec_sinv_stays hr h hv
    exact ⟨hvt, fun _ => hi.sintbl_read_eq ht hm hv hvt⟩
  · intro hv
    have hvt := exec_brv_stays hr h hv
    exact ⟨hvt, fun _ => hi.bitrev_read_eq ht hm hv hvt⟩

/-! ## RESET -/

section
variable {α : Type} {A : Arith α} {e : Engine α}

theorem Engine.afterReset_tables_of_preload (h : e.preload = true) :
    (e.afterReset A).SineBuilt A e.sineLen ∧ (e.afterReset A).RevBuilt e.len := by
  rw [Engine.afterReset, h]
  exact ⟨fun _ => Engine.resetOf_preloaded_sintbl A e.m _,
    fun _ => Engine.resetOf_preloaded_bitrev A e.m _⟩

/-- Without `PRELOAD` no entry of a table is written after reset (rule R41; log entry 8). -/
theorem Engine.afterReset_tables_of_not_preload (h : e.preload = false) (a : Nat) :
    (e.afterReset A).sintbl.read a = none ∧ (e.afterReset A).bitrev.read a = none := by
  rw [Engine.afterReset, h]
  exact ⟨rfl, rfl⟩

end

/-- Settles O38: `execReset_next` gives the next state, whose tables are as `PRELOAD` says; the rest
is the definition of the reset engine. -/
theorem resetRestoresTheResetState : Obligations.ResetRestoresTheResetState := fun _ ha hp =>
  ⟨_, execReset_next.2 ⟨ha, hp, rfl⟩, rfl, rfl, rfl, rfl, rfl, rfl, rfl, rfl, rfl,
    fun _ => ⟨rfl, rfl⟩, Engine.afterReset_tables_of_preload,
    Engine.afterReset_tables_of_not_preload⟩

end Sys2Proof.Machine
